-- ==== Sys2Proof/Word.lean ====
section
/-! DEFINITION. The word types of the MELPS 740 core (spec/00_scope.md R5): 8-bit data, 16-bit addresses, and the
three-bit bit number that the bit instructions carry in their opcode (spec/30_encoding.md R93). -/

namespace Sys2Proof

/-- One byte: every register but PC, every memory location, every operand byte (R5, R64). -/
abbrev Byte := BitVec 8

/-- A 16-bit address; its sums wrap modulo 0x10000 (R5, R25, R66). -/
abbrev Addr := BitVec 16

/-- A bit number 0 to 7 (R93). -/
abbrev BitNo := BitVec 3

end Sys2Proof
end

