-- ==== Sys2Proof/Config.lean ====
section
/-! DEFINITION. What a chip of the family fixes: the fourteen parameters of spec/00_scope.md R4 as one structure of plain
data, and the values the spec leaves open as opaque constants.

The parameters are data, not constants of Lean: a state of the machine carries its chip (`State.cfg`), no step changes
it, and a statement about every state is a statement about every chip.  `Config.base` is only the chip of
`State.reset`.

The free values have NO BODY: nothing can be proved about them but that they are some value of their type.  Each is
applied to `State.draws`, which every step of the CPU advances, so that every execution draws anew. -/

namespace Sys2Proof

/-- Where one bit of a memory-mapped byte lives: (address, bit number) (R4, R322). -/
structure BitLoc where
  addr : Addr
  bit  : BitNo
  deriving DecidableEq, Repr

/-- What populates an address (`P_MEMORY_MAP`, R4, R71).  Decision D8 lets the map say what a write to ROM does: the two
ROM kinds are its two choices. -/
inductive MemKind where
  /-- read and write memory -/
  | ram
  /-- read-only memory; a write is refused (R71) -/
  | rom
  /-- read-only memory; a write is a no-op (R71) -/
  | romIgnoringWrites
  /-- a special function register or I/O byte: stored like RAM, and the environment may change it between two
  instructions (R72) -/
  | sfr
  /-- nothing is there (R71) -/
  | absent
  deriving DecidableEq, Repr

/-- A run of addresses of one kind, both ends included. -/
structure Region where
  first : Nat
  last  : Nat
  kind  : MemKind
  deriving DecidableEq, Repr

/-- `P_STACK_PAGE` with what belongs to its choice: `P_SPS_LOCATION` (a zero-page address and a bit number) and
`P_SPS_RESET` (`none`: unspecified) exist only where a Stack Page Selection Bit does (R4, R24, R37). -/
inductive StackPage where
  | selectable (zp : Byte) (bit : BitNo) (resetValue : Option Bool)
  | fixed (page : Byte)
  deriving DecidableEq, Repr

/-- `P_BRK_PUSH_OFFSET` (R4, D9): what BRK adds to its own address to form the pushed return address. -/
inductive BrkOffset where
  | one
  | two
  deriving DecidableEq, Repr

/-- One record of `P_IRQ_SOURCES` (R322).  A smaller `rank` is a higher priority. -/
structure IrqSource where
  name      : String
  vector    : Addr
  request   : BitLoc
  enable    : BitLoc
  rank      : Nat
  autoClear : Bool
  requestReset : Bool
  enableReset  : Bool
  deriving DecidableEq, Repr

/-- The implementation parameters of R4, one field each. -/
structure Config where
  /-- `P_MULDIV` -/
  mulDiv : Bool
  /-- `P_SLW_FST` -/
  slwFst : Bool
  /-- `P_STP` -/
  stp : Bool
  /-- `P_SERIES_38000` -/
  series38000 : Bool
  /-- `P_INDEP_BRK_VECTOR` -/
  indepBrkVector : Bool
  /-- `P_SPECIAL_PAGE` -/
  specialPage : Byte
  /-- `P_STACK_PAGE`, `P_SPS_LOCATION`, `P_SPS_RESET` -/
  stackPage : StackPage
  /-- `P_VEC_RESET` -/
  vecReset : Addr
  /-- `P_VEC_BRK` -/
  vecBrk : Addr
  /-- `P_IRQ_SOURCES` -/
  irqSources : List IrqSource
  /-- `P_BRK_PUSH_OFFSET` -/
  brkOffset : BrkOffset
  /-- `P_MEMORY_MAP`: the first region that covers an address gives its kind; an address no region covers is absent. -/
  memoryMap : List Region
  deriving DecidableEq, Repr

/-- DESIGN CHOICE (log 1): the chip of `State.reset`.  The values are the conventions of spec/95_test_vectors.md section 0
(`P_MULDIV` and `P_STP` true, `P_SLW_FST` false, special page 0xFF, stack page fixed at 1, BRK vector 0xFFF4, offset 2),
those of its section 4 (`P_SERIES_38000` false), no interrupt source, and RAM everywhere.  No statement rests on them. -/
def Config.base : Config where
  mulDiv := true
  slwFst := false
  stp := true
  series38000 := false
  indepBrkVector := true
  specialPage := 0xFF
  stackPage := .fixed 0x01
  vecReset := 0xFFFE
  vecBrk := 0xFFF4
  irqSources := []
  brkOffset := .two
  memoryMap := [⟨0x0000, 0xFFFF, .ram⟩]

/-! ### Free values: what the spec leaves open after an instruction that goes on -/

/-- N after a decimal ADC or SBC: any value (R182, U2). Log 5. -/
opaque Config.freeDecimalN : Nat → Bool
/-- V after a decimal ADC or SBC: any value (R182, U2). Log 5. -/
opaque Config.freeDecimalV : Nat → Bool
/-- Z after a decimal ADC or SBC: any value (R182, U2). Log 5. -/
opaque Config.freeDecimalZ : Nat → Bool
/-- The result byte of a decimal ADC or SBC with an operand that is not valid BCD (R182, U3, D14). Log 6. -/
opaque Config.freeDecimalResult : Nat → Byte
/-- C after a decimal ADC or SBC with an operand that is not valid BCD (R182, U3, D14). Log 6. -/
opaque Config.freeDecimalCarry : Nat → Bool
/-- A after a DIV by 0 or with a quotient above 0xFF (R199, U4, D15). Log 7. -/
opaque Config.freeQuotient : Nat → Byte
/-- The byte pushed by a DIV by 0 or with a quotient above 0xFF (R199, U4, D15). Log 7. -/
opaque Config.freePushedRemainder : Nat → Byte
/-- How many boundaries of the running CPU a source that became acceptable is passed over before it must be accepted: any
finite number (R326, U24, D16, D18). Log 8. -/
opaque Config.freePatience : Nat → IrqSource → Nat
/-- What a read sees of a request bit that the instruction before changed: its old or its new value (R371, U8). Log 9. -/
opaque Config.freeRequestRead : Nat → BitLoc → Bool
/-- What the acceptance test sees of a request bit that the instruction before changed (R371, U8). Log 9. -/
opaque Config.freeRequestSeen : Nat → BitLoc → Bool
/-- Whether the acceptance test directly after a PLP still sees the old I (R326 with R370). Log 10. -/
opaque Config.freeOldI : Nat → Bool
/-- A after a reset of a running machine: unspecified (R43, R361). Log 11. -/
opaque Config.freeResetA : Nat → Byte
/-- X after a reset of a running machine: unspecified (R43, R361). Log 11. -/
opaque Config.freeResetX : Nat → Byte
/-- Y after a reset of a running machine: unspecified (R43, R361). Log 11. -/
opaque Config.freeResetY : Nat → Byte
/-- S after a reset of a running machine: unspecified (R43, R361). Log 11. -/
opaque Config.freeResetS : Nat → Byte
/-- N, V, T, D, Z and C after a reset of a running machine, as bits of a PS byte: undefined (R43, U1). Log 11. -/
opaque Config.freeResetFlags : Nat → Byte
/-- The Stack Page Selection Bit after a reset where `P_SPS_RESET` is unspecified (R4, R43). Log 11. -/
opaque Config.freeResetSps : Nat → Bool
/-- The XOUTF connection after a reset of a running machine: not in the spec (R39). Log 11. -/
opaque Config.freeResetXoutf : Nat → Bool
/-- A byte of RAM, SFR or I/O after a reset of a running machine: unspecified (R361). Log 11. -/
opaque Config.freeResetMemory : Nat → Nat → Byte

end Sys2Proof
end

