-- ==== Sys2Proof/Syntax.lean ====
section
/-! DEFINITION. The instructions of spec/opcode_table.json: one constructor for each of the 73 mnemonics of
spec/30_encoding.md R95, whose operand type has one constructor for each format R95 gives that mnemonic.  A row of the
table is a constructor with a format (and, for CLB, SEB, BBC and BBS, a bit number, which R93 makes a field of the
opcode): the 233 rows are the 233 such combinations.  A form R95 does not list cannot be written. -/

namespace Sys2Proof

/-- Formats of ADC, AND, CMP, EOR, LDA, ORA, SBC (R95). -/
inductive AluSrc where
  | imm (nn : Byte) | zp (zz : Byte) | zpX (zz : Byte) | abs (a : Addr)
  | absX (a : Addr) | absY (a : Addr) | indX (zz : Byte) | indY (zz : Byte)
  deriving DecidableEq, Repr

/-- Formats of STA (R95). -/
inductive StaDst where
  | zp (zz : Byte) | zpX (zz : Byte) | abs (a : Addr)
  | absX (a : Addr) | absY (a : Addr) | indX (zz : Byte) | indY (zz : Byte)
  deriving DecidableEq, Repr

/-- Formats of ASL, LSR, ROL, ROR, INC, DEC (R95). -/
inductive RmwPlace where
  | acc | zp (zz : Byte) | zpX (zz : Byte) | abs (a : Addr) | absX (a : Addr)
  deriving DecidableEq, Repr

/-- Formats of BIT (R95). -/
inductive BitSrc where
  | zp (zz : Byte) | abs (a : Addr)
  deriving DecidableEq, Repr

/-- Formats of CPX and CPY (R95). -/
inductive CpSrc where
  | imm (nn : Byte) | zp (zz : Byte) | abs (a : Addr)
  deriving DecidableEq, Repr

/-- Formats of LDX (R95). -/
inductive LdxSrc where
  | imm (nn : Byte) | zp (zz : Byte) | zpY (zz : Byte) | abs (a : Addr) | absY (a : Addr)
  deriving DecidableEq, Repr

/-- Formats of LDY (R95). -/
inductive LdySrc where
  | imm (nn : Byte) | zp (zz : Byte) | zpX (zz : Byte) | abs (a : Addr) | absX (a : Addr)
  deriving DecidableEq, Repr

/-- Formats of STX (R95). -/
inductive StxDst where
  | zp (zz : Byte) | zpY (zz : Byte) | abs (a : Addr)
  deriving DecidableEq, Repr

/-- Formats of STY (R95). -/
inductive StyDst where
  | zp (zz : Byte) | zpX (zz : Byte) | abs (a : Addr)
  deriving DecidableEq, Repr

/-- Formats of JMP (R95): ABS, IND, ZP,IND. -/
inductive JmpTarget where
  | abs (a : Addr) | ind (a : Addr) | zpInd (zz : Byte)
  deriving DecidableEq, Repr

/-- Formats of JSR (R95): ABS, SP, ZP,IND. -/
inductive JsrTarget where
  | abs (a : Addr) | sp (ll : Byte) | zpInd (zz : Byte)
  deriving DecidableEq, Repr

/-- Where the bit of CLB, SEB, BBC, BBS lies: in A (BIT,A and BIT,A,REL) or in a zero-page byte (BIT,ZP and BIT,ZP,REL). -/
inductive BitPlace where
  | acc | zp (zz : Byte)
  deriving DecidableEq, Repr

/-- The 73 instructions (R95). -/
inductive Instr where
  -- spec/41_load_store_transfer.md
  | lda (m : AluSrc) | ldx (m : LdxSrc) | ldy (m : LdySrc) | ldm (nn zz : Byte)
  | sta (d : StaDst) | stx (d : StxDst) | sty (d : StyDst)
  | tax | tay | txa | tya | tsx | txs
  -- spec/42_arithmetic_logic.md
  | adc (m : AluSrc) | sbc (m : AluSrc) | and (m : AluSrc) | ora (m : AluSrc) | eor (m : AluSrc)
  | cmp (m : AluSrc) | cpx (m : CpSrc) | cpy (m : CpSrc) | bit (m : BitSrc) | tst (zz : Byte) | com (zz : Byte)
  | inc (p : RmwPlace) | dec (p : RmwPlace) | inx | iny | dex | dey
  | mul (zz : Byte) | div (zz : Byte)
  -- spec/43_shift_rotate_bit.md
  | asl (p : RmwPlace) | lsr (p : RmwPlace) | rol (p : RmwPlace) | ror (p : RmwPlace) | rrf (zz : Byte)
  | clb (b : BitNo) (p : BitPlace) | seb (b : BitNo) (p : BitPlace)
  -- spec/44_flag_stack_nop.md
  | clc | sec | cld | sed | cli | sei | clt | set | clv
  | pha | php | pla | plp | nop
  -- spec/45_control_transfer.md
  | jmp (t : JmpTarget) | jsr (t : JsrTarget) | rts | rti
  | bra (rr : Byte) | bcc (rr : Byte) | bcs (rr : Byte) | beq (rr : Byte) | bne (rr : Byte)
  | bmi (rr : Byte) | bpl (rr : Byte) | bvc (rr : Byte) | bvs (rr : Byte)
  | bbc (b : BitNo) (p : BitPlace) (rr : Byte) | bbs (b : BitNo) (p : BitPlace) (rr : Byte)
  | brk
  -- spec/46_clock_control.md
  | slw | fst | wit | stp
  deriving DecidableEq, Repr

end Sys2Proof
end

