-- ==== Sys2Proof/WellFormed.lean ====
section
/-! DEFINITION. Which instructions a chip has (spec/30_encoding.md R96), and which parameter choices are a chip at all
(spec/00_scope.md R4).  Every operand value is legal in every format (R97), so the options are all there is to check
of an instruction. -/

namespace Sys2Proof

/-- The instruction exists on the chip `c` (R96).  MUL, DIV, SLW, FST, WIT and STP depend on the chip; every other
instruction is on every chip. -/
def Instr.wf (c : Config) : Instr → Bool
  | .mul _ => c.mulDiv
  | .div _ => c.mulDiv && !c.slwFst
  | .slw => c.slwFst
  | .fst => c.slwFst
  | .wit => !c.slwFst
  | .stp => c.stp
  | .lda _ | .ldx _ | .ldy _ | .ldm _ _ | .sta _ | .stx _ | .sty _ => true
  | .tax | .tay | .txa | .tya | .tsx | .txs => true
  | .adc _ | .sbc _ | .and _ | .ora _ | .eor _ | .cmp _ | .cpx _ | .cpy _ | .bit _ | .tst _ | .com _ => true
  | .inc _ | .dec _ | .inx | .iny | .dex | .dey => true
  | .asl _ | .lsr _ | .rol _ | .ror _ | .rrf _ | .clb _ _ | .seb _ _ => true
  | .clc | .sec | .cld | .sed | .cli | .sei | .clt | .set | .clv => true
  | .pha | .php | .pla | .plp | .nop => true
  | .jmp _ | .jsr _ | .rts | .rti => true
  | .bra _ | .bcc _ | .bcs _ | .beq _ | .bne _ | .bmi _ | .bpl _ | .bvc _ | .bvs _ => true
  | .bbc _ _ _ | .bbs _ _ _ | .brk => true

/-- The source of lowest priority (R322: "Exactly one record is the lowest-priority one"). -/
def lowestPriority : List IrqSource → Option IrqSource
  | [] => none
  | k :: ks =>
    match lowestPriority ks with
    | none => some k
    | some j => if k.rank < j.rank then some j else some k

/-- A configuration is a chip: MULDIV and SLW_FST are not both true (R4), a fixed stack page is page 0 or page 1 (R5), the
sources' priority ranks differ (R328), and where BRK has no vector of its own it uses that of the lowest-priority source (R334). -/
def Config.legal (c : Config) : Bool :=
  !(c.mulDiv && c.slwFst)
    && (match c.stackPage with
        | .fixed page => page == 0x00 || page == 0x01
        | .selectable _ _ _ => true)
    && decide ((c.irqSources.map (·.rank)).Nodup)
    && (c.indepBrkVector ||
        match lowestPriority c.irqSources with
        | none => true
        | some k => c.vecBrk == k.vector)

end Sys2Proof
end

