-- ==== Sys2Proof/Decode.lean ====
section
/-! DEFINITION. Decoding (spec/30_encoding.md R90 to R98, R103) and the encoder, both written from the opcode map of R94.
The opcode byte alone selects the instruction, its format and its length (R90, R91); `lookup` answers with a `Shape`, the
instruction still waiting for its operand bytes. -/

namespace Sys2Proof

/-- `hi : lo`, a 16-bit quantity from its two bytes (R98, R63). -/
def joinAddr (hi lo : Byte) : Addr := hi ++ lo

/-- The high byte of a 16-bit quantity. -/
def hiByte (a : Addr) : Byte := a.extractLsb' 8 8

/-- The low byte of a 16-bit quantity. -/
def loByte (a : Addr) : Byte := a.extractLsb' 0 8

/-- What an opcode byte selects: an instruction of one byte, or one that takes OPERAND I, or OPERAND I and II (R90). -/
inductive Shape where
  | one (i : Instr)
  | two (f : Byte → Instr)
  | three (f : Byte → Byte → Instr)

/-- Bytes of the whole instruction (R91). -/
def Shape.length : Shape → Nat
  | .one _ => 1
  | .two _ => 2
  | .three _ => 3

/-- A format whose operand is a 16-bit address: low byte first (R63, R98). -/
def address (f : Addr → Instr) : Shape := .three fun lo hi => f (joinAddr hi lo)

/-- The bit instructions: opcode[4:0] selects, opcode[7:5] is the bit number (R93).  In the three-byte forms byte 1 is zz
and byte 2 is rr (R91). -/
def bitShape (op : Byte) : Option Shape :=
  let b : BitNo := op.extractLsb' 5 3
  match op.toNat % 32 with
  | 0x03 => some (.two fun rr => .bbs b .acc rr)
  | 0x13 => some (.two fun rr => .bbc b .acc rr)
  | 0x07 => some (.three fun zz rr => .bbs b (.zp zz) rr)
  | 0x17 => some (.three fun zz rr => .bbc b (.zp zz) rr)
  | 0x0B => some (.one (.seb b .acc))
  | 0x1B => some (.one (.clb b .acc))
  | 0x0F => some (.two fun zz => .seb b (.zp zz))
  | 0x1F => some (.two fun zz => .clb b (.zp zz))
  | _ => none

/-! The sixteen rows of the map of R94, by low nibble, without the bit columns 3, 7, B, F; a nibble not listed is
unassigned (R97). -/

/-- Row 0 of R94. -/
def row0 : Nat → Option Shape
  | 0x0 => some (.one .brk)
  | 0x1 => some (.two fun zz => .ora (.indX zz))
  | 0x2 => some (.two fun zz => .jsr (.zpInd zz))
  | 0x5 => some (.two fun zz => .ora (.zp zz))
  | 0x6 => some (.two fun zz => .asl (.zp zz))
  | 0x8 => some (.one .php)
  | 0x9 => some (.two fun nn => .ora (.imm nn))
  | 0xA => some (.one (.asl .acc))
  | 0xD => some (address fun a => .ora (.abs a))
  | 0xE => some (address fun a => .asl (.abs a))
  | _ => none

/-- Row 1 of R94. -/
def row1 : Nat → Option Shape
  | 0x0 => some (.two .bpl)
  | 0x1 => some (.two fun zz => .ora (.indY zz))
  | 0x2 => some (.one .clt)
  | 0x5 => some (.two fun zz => .ora (.zpX zz))
  | 0x6 => some (.two fun zz => .asl (.zpX zz))
  | 0x8 => some (.one .clc)
  | 0x9 => some (address fun a => .ora (.absY a))
  | 0xA => some (.one (.dec .acc))
  | 0xD => some (address fun a => .ora (.absX a))
  | 0xE => some (address fun a => .asl (.absX a))
  | _ => none

/-- Row 2 of R94. -/
def row2 : Nat → Option Shape
  | 0x0 => some (address fun a => .jsr (.abs a))
  | 0x1 => some (.two fun zz => .and (.indX zz))
  | 0x2 => some (.two fun ll => .jsr (.sp ll))
  | 0x4 => some (.two fun zz => .bit (.zp zz))
  | 0x5 => some (.two fun zz => .and (.zp zz))
  | 0x6 => some (.two fun zz => .rol (.zp zz))
  | 0x8 => some (.one .plp)
  | 0x9 => some (.two fun nn => .and (.imm nn))
  | 0xA => some (.one (.rol .acc))
  | 0xC => some (address fun a => .bit (.abs a))
  | 0xD => some (address fun a => .and (.abs a))
  | 0xE => some (address fun a => .rol (.abs a))
  | _ => none

/-- Row 3 of R94; LDM's operands are nn, then zz (R103). -/
def row3 : Nat → Option Shape
  | 0x0 => some (.two .bmi)
  | 0x1 => some (.two fun zz => .and (.indY zz))
  | 0x2 => some (.one .set)
  | 0x5 => some (.two fun zz => .and (.zpX zz))
  | 0x6 => some (.two fun zz => .rol (.zpX zz))
  | 0x8 => some (.one .sec)
  | 0x9 => some (address fun a => .and (.absY a))
  | 0xA => some (.one (.inc .acc))
  | 0xC => some (.three fun nn zz => .ldm nn zz)
  | 0xD => some (address fun a => .and (.absX a))
  | 0xE => some (address fun a => .rol (.absX a))
  | _ => none

/-- Row 4 of R94; 0x42 is STP where the chip has it (R96). -/
def row4 (c : Config) : Nat → Option Shape
  | 0x0 => some (.one .rti)
  | 0x1 => some (.two fun zz => .eor (.indX zz))
  | 0x2 => if c.stp then some (.one .stp) else none
  | 0x4 => some (.two .com)
  | 0x5 => some (.two fun zz => .eor (.zp zz))
  | 0x6 => some (.two fun zz => .lsr (.zp zz))
  | 0x8 => some (.one .pha)
  | 0x9 => some (.two fun nn => .eor (.imm nn))
  | 0xA => some (.one (.lsr .acc))
  | 0xC => some (address fun a => .jmp (.abs a))
  | 0xD => some (address fun a => .eor (.abs a))
  | 0xE => some (address fun a => .lsr (.abs a))
  | _ => none

/-- Row 5 of R94. -/
def row5 : Nat → Option Shape
  | 0x0 => some (.two .bvc)
  | 0x1 => some (.two fun zz => .eor (.indY zz))
  | 0x5 => some (.two fun zz => .eor (.zpX zz))
  | 0x6 => some (.two fun zz => .lsr (.zpX zz))
  | 0x8 => some (.one .cli)
  | 0x9 => some (address fun a => .eor (.absY a))
  | 0xD => some (address fun a => .eor (.absX a))
  | 0xE => some (address fun a => .lsr (.absX a))
  | _ => none

/-- Row 6 of R94; 0x62 is MUL where the chip has it (R96). -/
def row6 (c : Config) : Nat → Option Shape
  | 0x0 => some (.one .rts)
  | 0x1 => some (.two fun zz => .adc (.indX zz))
  | 0x2 => if c.mulDiv then some (.two .mul) else none
  | 0x4 => some (.two .tst)
  | 0x5 => some (.two fun zz => .adc (.zp zz))
  | 0x6 => some (.two fun zz => .ror (.zp zz))
  | 0x8 => some (.one .pla)
  | 0x9 => some (.two fun nn => .adc (.imm nn))
  | 0xA => some (.one (.ror .acc))
  | 0xC => some (address fun a => .jmp (.ind a))
  | 0xD => some (address fun a => .adc (.abs a))
  | 0xE => some (address fun a => .ror (.abs a))
  | _ => none

/-- Row 7 of R94. -/
def row7 : Nat → Option Shape
  | 0x0 => some (.two .bvs)
  | 0x1 => some (.two fun zz => .adc (.indY zz))
  | 0x5 => some (.two fun zz => .adc (.zpX zz))
  | 0x6 => some (.two fun zz => .ror (.zpX zz))
  | 0x8 => some (.one .sei)
  | 0x9 => some (address fun a => .adc (.absY a))
  | 0xD => some (address fun a => .adc (.absX a))
  | 0xE => some (address fun a => .ror (.absX a))
  | _ => none

/-- Row 8 of R94. -/
def row8 : Nat → Option Shape
  | 0x0 => some (.two .bra)
  | 0x1 => some (.two fun zz => .sta (.indX zz))
  | 0x2 => some (.two .rrf)
  | 0x4 => some (.two fun zz => .sty (.zp zz))
  | 0x5 => some (.two fun zz => .sta (.zp zz))
  | 0x6 => some (.two fun zz => .stx (.zp zz))
  | 0x8 => some (.one .dey)
  | 0xA => some (.one .txa)
  | 0xC => some (address fun a => .sty (.abs a))
  | 0xD => some (address fun a => .sta (.abs a))
  | 0xE => some (address fun a => .stx (.abs a))
  | _ => none

/-- Row 9 of R94. -/
def row9 : Nat → Option Shape
  | 0x0 => some (.two .bcc)
  | 0x1 => some (.two fun zz => .sta (.indY zz))
  | 0x4 => some (.two fun zz => .sty (.zpX zz))
  | 0x5 => some (.two fun zz => .sta (.zpX zz))
  | 0x6 => some (.two fun zz => .stx (.zpY zz))
  | 0x8 => some (.one .tya)
  | 0x9 => some (address fun a => .sta (.absY a))
  | 0xA => some (.one .txs)
  | 0xD => some (address fun a => .sta (.absX a))
  | _ => none

/-- Row A of R94. -/
def rowA : Nat → Option Shape
  | 0x0 => some (.two fun nn => .ldy (.imm nn))
  | 0x1 => some (.two fun zz => .lda (.indX zz))
  | 0x2 => some (.two fun nn => .ldx (.imm nn))
  | 0x4 => some (.two fun zz => .ldy (.zp zz))
  | 0x5 => some (.two fun zz => .lda (.zp zz))
  | 0x6 => some (.two fun zz => .ldx (.zp zz))
  | 0x8 => some (.one .tay)
  | 0x9 => some (.two fun nn => .lda (.imm nn))
  | 0xA => some (.one .tax)
  | 0xC => some (address fun a => .ldy (.abs a))
  | 0xD => some (address fun a => .lda (.abs a))
  | 0xE => some (address fun a => .ldx (.abs a))
  | _ => none

/-- Row B of R94. -/
def rowB : Nat → Option Shape
  | 0x0 => some (.two .bcs)
  | 0x1 => some (.two fun zz => .lda (.indY zz))
  | 0x2 => some (.two fun zz => .jmp (.zpInd zz))
  | 0x4 => some (.two fun zz => .ldy (.zpX zz))
  | 0x5 => some (.two fun zz => .lda (.zpX zz))
  | 0x6 => some (.two fun zz => .ldx (.zpY zz))
  | 0x8 => some (.one .clv)
  | 0x9 => some (address fun a => .lda (.absY a))
  | 0xA => some (.one .tsx)
  | 0xC => some (address fun a => .ldy (.absX a))
  | 0xD => some (address fun a => .lda (.absX a))
  | 0xE => some (address fun a => .ldx (.absY a))
  | _ => none

/-- Row C of R94; 0xC2 is SLW or WIT (R96). -/
def rowC (c : Config) : Nat → Option Shape
  | 0x0 => some (.two fun nn => .cpy (.imm nn))
  | 0x1 => some (.two fun zz => .cmp (.indX zz))
  | 0x2 => if c.slwFst then some (.one .slw) else some (.one .wit)
  | 0x4 => some (.two fun zz => .cpy (.zp zz))
  | 0x5 => some (.two fun zz => .cmp (.zp zz))
  | 0x6 => some (.two fun zz => .dec (.zp zz))
  | 0x8 => some (.one .iny)
  | 0x9 => some (.two fun nn => .cmp (.imm nn))
  | 0xA => some (.one .dex)
  | 0xC => some (address fun a => .cpy (.abs a))
  | 0xD => some (address fun a => .cmp (.abs a))
  | 0xE => some (address fun a => .dec (.abs a))
  | _ => none

/-- Row D of R94. -/
def rowD : Nat → Option Shape
  | 0x0 => some (.two .bne)
  | 0x1 => some (.two fun zz => .cmp (.indY zz))
  | 0x5 => some (.two fun zz => .cmp (.zpX zz))
  | 0x6 => some (.two fun zz => .dec (.zpX zz))
  | 0x8 => some (.one .cld)
  | 0x9 => some (address fun a => .cmp (.absY a))
  | 0xD => some (address fun a => .cmp (.absX a))
  | 0xE => some (address fun a => .dec (.absX a))
  | _ => none

/-- Row E of R94; 0xE2 is FST, DIV or unassigned (R96). -/
def rowE (c : Config) : Nat → Option Shape
  | 0x0 => some (.two fun nn => .cpx (.imm nn))
  | 0x1 => some (.two fun zz => .sbc (.indX zz))
  | 0x2 => if c.slwFst then some (.one .fst) else if c.mulDiv then some (.two .div) else none
  | 0x4 => some (.two fun zz => .cpx (.zp zz))
  | 0x5 => some (.two fun zz => .sbc (.zp zz))
  | 0x6 => some (.two fun zz => .inc (.zp zz))
  | 0x8 => some (.one .inx)
  | 0x9 => some (.two fun nn => .sbc (.imm nn))
  | 0xA => some (.one .nop)
  | 0xC => some (address fun a => .cpx (.abs a))
  | 0xD => some (address fun a => .sbc (.abs a))
  | 0xE => some (address fun a => .inc (.abs a))
  | _ => none

/-- Row F of R94. -/
def rowF : Nat → Option Shape
  | 0x0 => some (.two .beq)
  | 0x1 => some (.two fun zz => .sbc (.indY zz))
  | 0x5 => some (.two fun zz => .sbc (.zpX zz))
  | 0x6 => some (.two fun zz => .inc (.zpX zz))
  | 0x8 => some (.one .sed)
  | 0x9 => some (address fun a => .sbc (.absY a))
  | 0xD => some (address fun a => .sbc (.absX a))
  | 0xE => some (address fun a => .inc (.absX a))
  | _ => none

/-- The row of the high nibble `hi`, at low nibble `lo`. -/
def mapCell (c : Config) (hi lo : Nat) : Option Shape :=
  match hi with
  | 0x0 => row0 lo
  | 0x1 => row1 lo
  | 0x2 => row2 lo
  | 0x3 => row3 lo
  | 0x4 => row4 c lo
  | 0x5 => row5 lo
  | 0x6 => row6 c lo
  | 0x7 => row7 lo
  | 0x8 => row8 lo
  | 0x9 => row9 lo
  | 0xA => rowA lo
  | 0xB => rowB lo
  | 0xC => rowC c lo
  | 0xD => rowD lo
  | 0xE => rowE c lo
  | 0xF => rowF lo
  | _ => none

/-- The opcode map of R94 on the chip `c`; `none` is an unassigned code (R97).  It depends on no register and no flag
(R92). -/
def lookup (c : Config) (op : Byte) : Option Shape :=
  match bitShape op with
  | some sh => some sh
  | none => mapCell c (op.toNat / 16) (op.toNat % 16)

/-- Why bytes are no instruction. -/
inductive DecodeError where
  /-- The first byte is one of the 25 codes of R97, or the code of an option the chip lacks (R96). -/
  | unassigned (op : Byte)
  /-- The bytes end before the instruction does. -/
  | truncated
  deriving DecidableEq, Repr

/-- The instruction of a shape, and what follows its operand bytes. -/
def Shape.apply : Shape → List Byte → Except DecodeError (Instr × List Byte)
  | .one i, rest => .ok (i, rest)
  | .two f, b1 :: rest => .ok (f b1, rest)
  | .three f, b1 :: b2 :: rest => .ok (f b1 b2, rest)
  | .two _, [] => .error .truncated
  | .three _, [] => .error .truncated
  | .three _, [_] => .error .truncated

/-- Decoding (R92): the instruction at the head of `bytes` and the bytes that follow it. -/
def decode (c : Config) (bytes : List Byte) : Except DecodeError (Instr × List Byte) :=
  match bytes with
  | [] => .error .truncated
  | op :: rest =>
    match lookup c op with
    | none => .error (.unassigned op)
    | some sh => sh.apply rest

/-! ### The encoder -/

/-- An opcode and a 16-bit operand, low byte first (R63). -/
def withAddress (op : Byte) (a : Addr) : List Byte := [op, loByte a, hiByte a]

/-- The opcode of a bit instruction: base + 0x20 times the bit number (R93). -/
def bitOpcode (b : BitNo) (low5 : BitVec 5) : Byte := b ++ low5

/-- ADC, AND, CMP, EOR, LDA, ORA, SBC: the eight opcodes of one mnemonic, by format. -/
def encodeAlu (imm zp zpX abs absX absY indX indY : Byte) : AluSrc → List Byte
  | .imm nn => [imm, nn]
  | .zp zz => [zp, zz]
  | .zpX zz => [zpX, zz]
  | .abs a => withAddress abs a
  | .absX a => withAddress absX a
  | .absY a => withAddress absY a
  | .indX zz => [indX, zz]
  | .indY zz => [indY, zz]

/-- ASL, LSR, ROL, ROR, INC, DEC: the five opcodes of one mnemonic, by format. -/
def encodeRmw (acc zp zpX abs absX : Byte) : RmwPlace → List Byte
  | .acc => [acc]
  | .zp zz => [zp, zz]
  | .zpX zz => [zpX, zz]
  | .abs a => withAddress abs a
  | .absX a => withAddress absX a

/-- CPX, CPY: the three opcodes of one mnemonic, by format. -/
def encodeCp (imm zp abs : Byte) : CpSrc → List Byte
  | .imm nn => [imm, nn]
  | .zp zz => [zp, zz]
  | .abs a => withAddress abs a

/-- The bytes of an instruction, from the Encoding lines of its rule (files 41 to 46) and R91, R93, R103. -/
def encode : Instr → List Byte
  | .lda m => encodeAlu 0xA9 0xA5 0xB5 0xAD 0xBD 0xB9 0xA1 0xB1 m
  | .ldx m =>
    match m with
    | .imm nn => [0xA2, nn]
    | .zp zz => [0xA6, zz]
    | .zpY zz => [0xB6, zz]
    | .abs a => withAddress 0xAE a
    | .absY a => withAddress 0xBE a
  | .ldy m =>
    match m with
    | .imm nn => [0xA0, nn]
    | .zp zz => [0xA4, zz]
    | .zpX zz => [0xB4, zz]
    | .abs a => withAddress 0xAC a
    | .absX a => withAddress 0xBC a
  | .ldm nn zz => [0x3C, nn, zz]
  | .sta d =>
    match d with
    | .zp zz => [0x85, zz]
    | .zpX zz => [0x95, zz]
    | .abs a => withAddress 0x8D a
    | .absX a => withAddress 0x9D a
    | .absY a => withAddress 0x99 a
    | .indX zz => [0x81, zz]
    | .indY zz => [0x91, zz]
  | .stx d =>
    match d with
    | .zp zz => [0x86, zz]
    | .zpY zz => [0x96, zz]
    | .abs a => withAddress 0x8E a
  | .sty d =>
    match d with
    | .zp zz => [0x84, zz]
    | .zpX zz => [0x94, zz]
    | .abs a => withAddress 0x8C a
  | .tax => [0xAA]
  | .tay => [0xA8]
  | .txa => [0x8A]
  | .tya => [0x98]
  | .tsx => [0xBA]
  | .txs => [0x9A]
  | .adc m => encodeAlu 0x69 0x65 0x75 0x6D 0x7D 0x79 0x61 0x71 m
  | .sbc m => encodeAlu 0xE9 0xE5 0xF5 0xED 0xFD 0xF9 0xE1 0xF1 m
  | .and m => encodeAlu 0x29 0x25 0x35 0x2D 0x3D 0x39 0x21 0x31 m
  | .ora m => encodeAlu 0x09 0x05 0x15 0x0D 0x1D 0x19 0x01 0x11 m
  | .eor m => encodeAlu 0x49 0x45 0x55 0x4D 0x5D 0x59 0x41 0x51 m
  | .cmp m => encodeAlu 0xC9 0xC5 0xD5 0xCD 0xDD 0xD9 0xC1 0xD1 m
  | .cpx m => encodeCp 0xE0 0xE4 0xEC m
  | .cpy m => encodeCp 0xC0 0xC4 0xCC m
  | .bit m =>
    match m with
    | .zp zz => [0x24, zz]
    | .abs a => withAddress 0x2C a
  | .tst zz => [0x64, zz]
  | .com zz => [0x44, zz]
  | .inc p => encodeRmw 0x3A 0xE6 0xF6 0xEE 0xFE p
  | .dec p => encodeRmw 0x1A 0xC6 0xD6 0xCE 0xDE p
  | .inx => [0xE8]
  | .iny => [0xC8]
  | .dex => [0xCA]
  | .dey => [0x88]
  | .mul zz => [0x62, zz]
  | .div zz => [0xE2, zz]
  | .asl p => encodeRmw 0x0A 0x06 0x16 0x0E 0x1E p
  | .lsr p => encodeRmw 0x4A 0x46 0x56 0x4E 0x5E p
  | .rol p => encodeRmw 0x2A 0x26 0x36 0x2E 0x3E p
  | .ror p => encodeRmw 0x6A 0x66 0x76 0x6E 0x7E p
  | .rrf zz => [0x82, zz]
  | .clb b p =>
    match p with
    | .acc => [bitOpcode b 0x1B]
    | .zp zz => [bitOpcode b 0x1F, zz]
  | .seb b p =>
    match p with
    | .acc => [bitOpcode b 0x0B]
    | .zp zz => [bitOpcode b 0x0F, zz]
  | .clc => [0x18]
  | .sec => [0x38]
  | .cld => [0xD8]
  | .sed => [0xF8]
  | .cli => [0x58]
  | .sei => [0x78]
  | .clt => [0x12]
  | .set => [0x32]
  | .clv => [0xB8]
  | .pha => [0x48]
  | .php => [0x08]
  | .pla => [0x68]
  | .plp => [0x28]
  | .nop => [0xEA]
  | .jmp t =>
    match t with
    | .abs a => withAddress 0x4C a
    | .ind a => withAddress 0x6C a
    | .zpInd zz => [0xB2, zz]
  | .jsr t =>
    match t with
    | .abs a => withAddress 0x20 a
    | .sp ll => [0x22, ll]
    | .zpInd zz => [0x02, zz]
  | .rts => [0x60]
  | .rti => [0x40]
  | .bra rr => [0x80, rr]
  | .bcc rr => [0x90, rr]
  | .bcs rr => [0xB0, rr]
  | .beq rr => [0xF0, rr]
  | .bne rr => [0xD0, rr]
  | .bmi rr => [0x30, rr]
  | .bpl rr => [0x10, rr]
  | .bvc rr => [0x50, rr]
  | .bvs rr => [0x70, rr]
  | .bbc b p rr =>
    match p with
    | .acc => [bitOpcode b 0x13, rr]
    | .zp zz => [bitOpcode b 0x17, zz, rr]
  | .bbs b p rr =>
    match p with
    | .acc => [bitOpcode b 0x03, rr]
    | .zp zz => [bitOpcode b 0x07, zz, rr]
  | .brk => [0x00]
  | .slw => [0xC2]
  | .fst => [0xE2]
  | .wit => [0xC2]
  | .stp => [0x42]

/-! ### The host's words -/

/-- The bytes of an instruction given as a number of `nbits` bits, first byte least significant; bits above `nbits` are 0,
up to the longest instruction. -/
def tableBytes (nbits w : Nat) : List Byte :=
  let v := w % 2 ^ nbits
  [BitVec.ofNat 8 v, BitVec.ofNat 8 (v / 0x100), BitVec.ofNat 8 (v / 0x10000)]

/-- The instruction the decoder reads from such a number, on the chip of `State.reset`. -/
def decodeTableWord (nbits w : Nat) : Option Instr :=
  match decode Config.base (tableBytes nbits w) with
  | .ok (i, _) => some i
  | .error _ => none

end Sys2Proof
end

