-- ==== Sys2Proof/Machine/Memory.lean ====
section
/-! DEFINITION. Memory: the one address space of 0x10000 bytes (spec/20_memory.md R60, spec/10_state.md R40) as a list of
(address, byte) cells in one canonical form: addresses strictly rising and below 0x10000, and no cell equal to what an
unlisted address reads as. -/

namespace Sys2Proof.Machine

/-- The cells of memory that differ from `unlistedByte`. -/
abbrev Memory := List Host.Cell

/-- DESIGN CHOICE (log 2), unsafe: what an address reads as that no cell lists.  The spec gives RAM no contents before it is
written (R43); its vectors take 0x00 (spec/95_test_vectors.md section 0). -/
def unlistedByte : Byte := 0x00

/-- The byte at `a`. -/
def Memory.read : Memory → Nat → Byte
  | [], _ => unlistedByte
  | (k, v) :: rest, a => if k = a then v else Memory.read rest a

/-- The cells that hold `v` at `a` and nothing else: one cell, or none where `a` reads as `v` unlisted. -/
def cellOf (a : Nat) (v : Byte) : Memory :=
  if v = unlistedByte then [] else [(a, v)]

/-- Memory with `v` at `a`, in canonical form if `m` is. -/
def Memory.write : Memory → Nat → Byte → Memory
  | [], a, v => cellOf a v
  | (k, w) :: rest, a, v =>
    if a < k then cellOf a v ++ (k, w) :: rest
    else if a = k then cellOf a v ++ rest
    else (k, w) :: Memory.write rest a v

/-- Canonical from the address `lo` on. -/
def Memory.wfFrom : Nat → Memory → Bool
  | _, [] => true
  | lo, (k, v) :: rest => decide (lo ≤ k) && decide (k < 0x10000) && (v != unlistedByte) && Memory.wfFrom (k + 1) rest

/-- The canonical form: addresses strictly rising and below 0x10000, no cell holding `unlistedByte`. -/
def Memory.wf (m : Memory) : Bool := Memory.wfFrom 0 m

/-- The memory whose byte at `lo + i` is `f (lo + i)`, for `n` addresses from `lo` on. -/
def Memory.tabulate (f : Nat → Byte) : Nat → Nat → Memory
  | _, 0 => []
  | lo, n + 1 => cellOf lo (f lo) ++ Memory.tabulate f (lo + 1) n

end Sys2Proof.Machine
end

