-- ==== Sys2Proof/Machine/State.lean ====
section
/-! DEFINITION. The state of the machine (spec/10_state.md), the reasons a step can stop, and the state after reset.  All of
it is plain data.  Each field has one named update here; Sys2Proof/Laws/State.lean says what each update leaves. -/

namespace Sys2Proof.Machine

/-- The processor status register PS (R26): seven stored flags.  B (bit 4) is no storage bit: it reads as 0 always and is
1 only in the byte BRK pushes (R31); `PS.b`, `PS.toByte` and `PS.ofByte` in Machine/Flags.lean say so. -/
structure PS where
  /-- Negative, bit 7 (R34) -/
  n : Bool
  /-- Overflow, bit 6 (R33) -/
  v : Bool
  /-- Index X mode, bit 5 (R32) -/
  t : Bool
  /-- Decimal mode, bit 3 (R30) -/
  d : Bool
  /-- Interrupt disable, bit 2 (R29) -/
  i : Bool
  /-- Zero, bit 1 (R28) -/
  z : Bool
  /-- Carry, bit 0 (R27) -/
  c : Bool
  deriving DecidableEq, Repr

/-- The clock state `clk` (R39). -/
inductive Clock where
  | run
  | wait
  | stop
  deriving DecidableEq, Repr

/-- What kind of instruction ran last, as far as a latency shows it (R41). -/
inductive LastKind where
  /-- none of the kinds below -/
  | none
  /-- PLP; `oldI` is I before it, which an acceptance test directly after PLP may still see (R370, R326) -/
  | plp (oldI : Bool)
  /-- ADC or SBC with D = 1 (R372) -/
  | decimal
  deriving DecidableEq, Repr

/-- The field `last` of R41: what the instruction before left for the hazard rules of spec/70_reset_and_hazards.md. -/
structure Last where
  kind : LastKind
  /-- the request bits whose value the last instruction changed (R371) -/
  changed : List BitLoc
  /-- the addresses the last instruction, and then the one in progress, has stored to (R75, R379) -/
  written : List Addr
  /-- the sources whose request bit the last instruction cleared while it set their enable bit (R373, D25) -/
  forced : List IrqSource
  deriving DecidableEq, Repr

/-- `last = none` (R361): no latency is open. -/
def Last.none : Last := ⟨.none, [], [], []⟩

/-- One turn at a boundary between instructions (R12, R72, R325, R360): the CPU's, or an action of the environment. -/
inductive EnvEvent where
  /-- the environment does nothing; the CPU takes its step -/
  | cpu
  /-- the request bit of the source with this index of `irqSources` becomes 1 (R325) -/
  | request (source : Nat)
  /-- an SFR or I/O byte takes this value (R72) -/
  | device (a : Addr) (v : Byte)
  /-- reset (R360) -/
  | reset
  deriving DecidableEq, Repr

/-- The whole machine.  REQ[k], EN[k] and the Stack Page Selection Bit are bits of `mem` at the places `cfg` names (R37,
R38). -/
structure State where
  /-- accumulator A (R21) -/
  a : Byte
  /-- index register X (R22) -/
  x : Byte
  /-- index register Y (R22) -/
  y : Byte
  /-- stack pointer S (R23) -/
  s : Byte
  /-- program counter PC (R25); while an instruction runs, the address of the next one (R9) -/
  pc : Addr
  /-- processor status register PS (R26) -/
  ps : PS
  /-- the 0x10000 bytes of memory (R40) -/
  mem : Memory
  /-- RUN, WAIT or STOP (R39) -/
  clk : Clock
  /-- the oscillator output is connected to the XOUTF pin (R39) -/
  xoutf : Bool
  /-- what the last instruction left for the hazard rules (R41) -/
  last : Last
  /-- MODEL'S OWN: which draw of the free values of Config is next -/
  draws : Nat
  /-- MODEL'S OWN: the sources that were acceptable when the last instruction began and were passed over, each with the draw
  since which it has been acceptable without a break; they bound how long it can be passed over (R326: fairness) -/
  waiting : List (IrqSource × Nat)
  /-- MODEL'S OWN: what the environment does at the coming boundaries, the next one first; at the end of the list it does
  nothing more -/
  inputs : List EnvEvent
  /-- the chip (R4); no step changes it -/
  cfg : Config
  deriving DecidableEq, Repr

/-! ### One update per field -/

def State.setA (s : State) (v : Byte) : State := { s with a := v }
def State.setX (s : State) (v : Byte) : State := { s with x := v }
def State.setY (s : State) (v : Byte) : State := { s with y := v }
def State.setS (s : State) (v : Byte) : State := { s with s := v }
def State.setPc (s : State) (v : Addr) : State := { s with pc := v }
def State.setPs (s : State) (v : PS) : State := { s with ps := v }
def State.setMem (s : State) (v : Memory) : State := { s with mem := v }
def State.setClk (s : State) (v : Clock) : State := { s with clk := v }
def State.setXoutf (s : State) (v : Bool) : State := { s with xoutf := v }
def State.setLast (s : State) (v : Last) : State := { s with last := v }
def State.setDraws (s : State) (v : Nat) : State := { s with draws := v }
def State.setWaiting (s : State) (v : List (IrqSource × Nat)) : State := { s with waiting := v }
def State.setInputs (s : State) (v : List EnvEvent) : State := { s with inputs := v }

/-! ### Why a step stops -/

/-- The machine stops. -/
inductive Fault where
  /-- Raised by every read and write of an address the memory map marks absent (R71, D8: no step, and no value).  Safe:
  the machine stops where the spec gives no value. -/
  | absentAddress (a : Addr)
  /-- Raised by `step` when the clock is stopped, no interrupt can be accepted and the environment does nothing more: the
  state is final (R312, R313, U20: stuck).  Safe. -/
  | clockStopped
  deriving DecidableEq, Repr

/-- The program is outside the specified behaviour: the spec says to refuse it. -/
inductive Refusal where
  /-- Raised by an arm of `exec` whose instruction has no meaning yet.  Safe. -/
  | notModelled (mnemonic : String)
  /-- Raised by the fetch: the byte is no opcode of this chip (R97, R96, D13).  Safe. -/
  | unassignedOpcode (op : Byte)
  /-- Raised by a store to ROM on a chip whose map refuses it (R71, D8).  Safe. -/
  | romWrite (a : Addr)
  /-- Raised by a store that sets a request bit which is 0 (R324, D20), a push of an interrupt entry included, of which the
  spec does not speak (DESIGN CHOICE, log 15).  Safe. -/
  | requestBitSetBySoftware (a : Addr)
  /-- Raised by JMP (hhFF) (R374, R270).  Safe. -/
  | jmpIndirectPageEnd (a : Addr)
  /-- Raised by BRK with I = 1 and an enabled request pending, on a part that is not of series 38000 (R335, R375, D19).
  Safe. -/
  | brkWithPendingRequest
  /-- Raised by `step`: the instruction after PLP is not NOP, on a part that is not of series 38000 (R370).  Safe. -/
  | plpNotFollowedByNop
  /-- Raised by `step`: SEC, CLC or CLD directly after a decimal ADC or SBC (R372).  Safe. -/
  | flagInstructionAfterDecimal
  /-- Raised by the fetch: the instruction before stored to a byte of this one (R379, R75, D12).  Safe. -/
  | overwroteNextInstruction (a : Addr)
  deriving DecidableEq, Repr

/-- What a computation of the machine answers: a value, or the reason it stops. -/
abbrev Res (α : Type) := Host.Outcome α Fault Refusal

/-! ### Reset -/

/-- PS after reset: I is 1 (R43); the other flags are undefined there and 0 here (DESIGN CHOICE, log 3). -/
def PS.afterReset : PS := ⟨false, false, false, false, true, false, false⟩

/-- The machine right after reset (R361, R43), on the chip `Config.base` with nothing in its memory: I = 1, B = 0 (it is
no storage bit), clk = RUN, `last` = none, PC read from the reset vector.  A, X, Y, S, the other flags and XOUTF have no
value in the spec and are 0 here (DESIGN CHOICE, log 3).  Machine/Reset.lean has the same for every chip. -/
def State.reset : State where
  a := 0x00
  x := 0x00
  y := 0x00
  s := 0x00
  pc := Memory.read [] (Config.base.vecReset.toNat + 1) ++ Memory.read [] Config.base.vecReset.toNat
  ps := PS.afterReset
  mem := []
  clk := .run
  xoutf := false
  last := Last.none
  draws := 0
  waiting := []
  inputs := []
  cfg := Config.base

end Sys2Proof.Machine
end

