-- ==== Sys2Proof/Machine/Flags.lean ====
section
/-! DEFINITION. Every flag computation and every 8-bit operation of the spec, as functions of bytes and of PS: PS as a byte
(R26, R31), SetNZ (R8), the arithmetic of R180 to R182, the shifts and rotates of R220 to R224, the bits of R225, R226,
the products of R198, R199. -/

namespace Sys2Proof.Machine

/-! ### PS as a byte -/

/-- The B flag of the register: always 0 (R31). -/
def PS.b (_ : PS) : Bool := false

/-- PS as a byte, N : V : T : b : D : I : Z : C, with `b` in bit 4 (R26).  BRK pushes b = 1; PHP and an interrupt push
b = `PS.b` = 0 (R31). -/
def PS.toByte (p : PS) (b : Bool) : Byte :=
  BitVec.ofBool p.n ++ BitVec.ofBool p.v ++ BitVec.ofBool p.t ++ BitVec.ofBool b ++
  BitVec.ofBool p.d ++ BitVec.ofBool p.i ++ BitVec.ofBool p.z ++ BitVec.ofBool p.c

/-- PS pulled from the stack; bit 4 is discarded (R252, R273, R31). -/
def PS.ofByte (b : Byte) : PS :=
  ⟨b.getLsbD 7, b.getLsbD 6, b.getLsbD 5, b.getLsbD 3, b.getLsbD 2, b.getLsbD 1, b.getLsbD 0⟩

/-- `SetNZ(v)` (R8): N is bit 7, Z is 1 iff the byte is 0. -/
def PS.setNZ (p : PS) (v : Byte) : PS := { p with n := v.getLsbD 7, z := v == 0 }

/-- `SetNZ(v)` and C. -/
def PS.setNZC (p : PS) (v : Byte) (c : Bool) : PS := { p.setNZ v with c := c }

/-! ### Addition and subtraction -/

/-- A flag as the number it counts for. -/
def carryNat (c : Bool) : Nat := if c then 1 else 0

/-- The byte of the binary sum a + m + C (R180). -/
def binarySum (a m : Byte) (c : Bool) : Byte := BitVec.ofNat 8 (a.toNat + m.toNat + carryNat c)

/-- C of the binary sum: bit 8 of a + m + C (R180). -/
def binarySumCarry (a m : Byte) (c : Bool) : Bool := decide (0x100 ≤ a.toNat + m.toNat + carryNat c)

/-- The byte of the binary difference a - m - (1 - C) (R181). -/
def binaryDiff (a m : Byte) (c : Bool) : Byte := BitVec.ofInt 8 ((a.toNat : Int) - m.toNat - carryNat (!c))

/-- C of the binary difference: 1 iff a - m - (1 - C) is not negative (R181). -/
def binaryDiffCarry (a m : Byte) (c : Bool) : Bool := decide (m.toNat + carryNat (!c) ≤ a.toNat)

/-- V of an addition: the operands have one sign and the result the other (R180). -/
def sumOverflow (a m r : Byte) : Bool := (a.getLsbD 7 == m.getLsbD 7) && (r.getLsbD 7 != a.getLsbD 7)

/-- V of a subtraction: the operands differ in sign and the result has not the sign of `a` (R181). -/
def diffOverflow (a m r : Byte) : Bool := (a.getLsbD 7 != m.getLsbD 7) && (r.getLsbD 7 != a.getLsbD 7)

/-- Both nibbles are decimal digits (R182). -/
def validBcd (b : Byte) : Bool := decide (b.toNat / 16 ≤ 9) && decide (b.toNat % 16 ≤ 9)

/-- `dec(b)` of R182: 10 times the high nibble plus the low one. -/
def decOf (b : Byte) : Nat := 10 * (b.toNat / 16) + b.toNat % 16

/-- `bcd(n)` of R182: tens in the high nibble, units in the low one. -/
def bcdOf (n : Nat) : Byte := BitVec.ofNat 8 (16 * (n / 10) + n % 10)

/-- The decimal sum of valid operands: the result byte and C (R182). -/
def decimalSum (a m : Byte) (c : Bool) : Byte × Bool :=
  let t := decOf a + decOf m + carryNat c
  (bcdOf (t % 100), decide (99 < t))

/-- The decimal difference of valid operands: the result byte and C (R182). -/
def decimalDiff (a m : Byte) (c : Bool) : Byte × Bool :=
  let t : Int := (decOf a : Int) - decOf m - carryNat (!c)
  (bcdOf (t % 100).toNat, decide (0 ≤ t))

/-- The result and C of a decimal operation: `r` for valid operands, free values for any other (R182, D14). -/
def decimalResult (draw : Nat) (a m : Byte) (r : Byte × Bool) : Byte × Bool :=
  if validBcd a && validBcd m then r
  else (Config.freeDecimalResult draw, Config.freeDecimalCarry draw)

/-- PS after a decimal ADC or SBC: C from the operation; N, V and Z are any value (R182, U2). -/
def PS.afterDecimal (p : PS) (draw : Nat) (c : Bool) : PS :=
  { p with n := Config.freeDecimalN draw, v := Config.freeDecimalV draw, z := Config.freeDecimalZ draw, c := c }

/-- ADC of the first operand `a` and M: the result and PS (R180, R182). -/
def addWithCarry (draw : Nat) (p : PS) (a m : Byte) : Byte × PS :=
  if p.d then
    let r := decimalResult draw a m (decimalSum a m p.c)
    (r.1, p.afterDecimal draw r.2)
  else
    let r := binarySum a m p.c
    (r, { p.setNZC r (binarySumCarry a m p.c) with v := sumOverflow a m r })

/-- SBC of the first operand `a` and M: the result and PS (R181, R182). -/
def subWithCarry (draw : Nat) (p : PS) (a m : Byte) : Byte × PS :=
  if p.d then
    let r := decimalResult draw a m (decimalDiff a m p.c)
    (r.1, p.afterDecimal draw r.2)
  else
    let r := binaryDiff a m p.c
    (r, { p.setNZC r (binaryDiffCarry a m p.c) with v := diffOverflow a m r })

/-- PS after a comparison of `r` with `m`: C iff r ≥ m unsigned, N and Z of the difference (R186 to R188). -/
def PS.compare (p : PS) (r m : Byte) : PS := p.setNZC (r - m) (decide (m.toNat ≤ r.toNat))

/-! ### Logic, increments, shifts: the result and PS from the operand and PS -/

/-- AND (R183). -/
def andOp (p : PS) (a m : Byte) : Byte × PS := (a &&& m, p.setNZ (a &&& m))

/-- ORA (R184). -/
def oraOp (p : PS) (a m : Byte) : Byte × PS := (a ||| m, p.setNZ (a ||| m))

/-- EOR (R185). -/
def eorOp (p : PS) (a m : Byte) : Byte × PS := (a ^^^ m, p.setNZ (a ^^^ m))

/-- PS after BIT: N and V are bits 7 and 6 of M, Z is 1 iff A and M is 0 (R189). -/
def PS.bitTest (p : PS) (a m : Byte) : PS := { p with n := m.getLsbD 7, v := m.getLsbD 6, z := (a &&& m) == 0 }

/-- COM (R191). -/
def comOp (p : PS) (v : Byte) : Byte × PS := (v ^^^ 0xFF, p.setNZ (v ^^^ 0xFF))

/-- INC (R192). -/
def incOp (p : PS) (v : Byte) : Byte × PS := (v + 1, p.setNZ (v + 1))

/-- DEC (R193). -/
def decOp (p : PS) (v : Byte) : Byte × PS := (v - 1, p.setNZ (v - 1))

/-- ASL: bit 7 goes to C, 0 comes in (R220). -/
def aslOp (p : PS) (v : Byte) : Byte × PS :=
  let r := v <<< 1
  (r, p.setNZC r (v.getLsbD 7))

/-- LSR: bit 0 goes to C, 0 comes in, N becomes 0 (R221). -/
def lsrOp (p : PS) (v : Byte) : Byte × PS :=
  let r := v >>> 1
  (r, { p.setNZC r (v.getLsbD 0) with n := false })

/-- ROL: bit 7 goes to C, the old C comes in (R222). -/
def rolOp (p : PS) (v : Byte) : Byte × PS :=
  let r := (v <<< 1) ||| BitVec.ofNat 8 (carryNat p.c)
  (r, p.setNZC r (v.getLsbD 7))

/-- ROR: bit 0 goes to C, the old C comes in at bit 7 (R223). -/
def rorOp (p : PS) (v : Byte) : Byte × PS :=
  let r := (v >>> 1) ||| (BitVec.ofNat 8 (carryNat p.c) <<< 7)
  (r, p.setNZC r (v.getLsbD 0))

/-- RRF: the nibbles change places, no flag (R224). -/
def rrfOp (p : PS) (v : Byte) : Byte × PS := ((v <<< 4) ||| (v >>> 4), p)

/-- `1 << b`. -/
def bitMask (b : BitNo) : Byte := 1#8 <<< b.toNat

/-- The byte with bit `b` cleared (R225). -/
def clearBit (b : BitNo) (v : Byte) : Byte := v &&& (0xFF ^^^ bitMask b)

/-- The byte with bit `b` set (R226). -/
def setBit (b : BitNo) (v : Byte) : Byte := v ||| bitMask b

/-- The byte with bit `b` made `x`. -/
def putBit (b : BitNo) (x : Bool) (v : Byte) : Byte := if x then setBit b v else clearBit b v

/-- Bit `b` of a byte. -/
def testBit (b : BitNo) (v : Byte) : Bool := v.getLsbD b.toNat

/-- CLB: no flag (R225). -/
def clbOp (b : BitNo) (p : PS) (v : Byte) : Byte × PS := (clearBit b v, p)

/-- SEB: no flag (R226). -/
def sebOp (b : BitNo) (p : PS) (v : Byte) : Byte × PS := (setBit b v, p)

/-! ### Multiply and divide -/

/-- A × M, unsigned (R198). -/
def product (a m : Byte) : Addr := BitVec.ofNat 16 (a.toNat * m.toNat)

/-- The quotient of R199 exists: the divisor is not 0 and the quotient fits 8 bits. -/
def divisible (n : Addr) (d : Byte) : Bool := (d != 0) && decide (n.toNat / d.toNat ≤ 0xFF)

/-- What DIV leaves in A: the quotient, or any value where it is not defined (R199, D15). -/
def quotientByte (draw : Nat) (n : Addr) (d : Byte) : Byte :=
  if divisible n d then BitVec.ofNat 8 (n.toNat / d.toNat) else Config.freeQuotient draw

/-- What DIV pushes: the one's complement of the remainder, or any value where it is not defined (R199, D15). -/
def remainderByte (draw : Nat) (n : Addr) (d : Byte) : Byte :=
  if divisible n d then BitVec.ofNat 8 (n.toNat % d.toNat) ^^^ 0xFF else Config.freePushedRemainder draw

end Sys2Proof.Machine
end

