-- ==== Sys2Proof/Machine/Ops.lean ====
section
/-! DEFINITION. The named operations over memory, registers and the stack (spec/00_scope.md R8, spec/20_memory.md), and
taking an exception and returning from one (spec/60_exceptions.md R329, R333, R336). -/

namespace Sys2Proof.Machine

/-- One computation after another; the first stop is the answer. -/
def andThen {α β : Type} (r : Res α) (f : α → Res β) : Res β :=
  match r with
  | .next a => f a
  | .fault e => .fault e
  | .refused e => .refused e

/-! ### Memory -/

/-- The region covers the address. -/
def covers (a : Addr) (r : Region) : Bool := decide (r.first ≤ a.toNat) && decide (a.toNat ≤ r.last)

/-- What populates an address (`P_MEMORY_MAP`, R4): the first region that covers it, else nothing. -/
def kindAt (c : Config) (a : Addr) : MemKind :=
  match c.memoryMap.find? (covers a) with
  | some r => r.kind
  | none => .absent

/-- The byte memory holds at `a`. -/
def State.byteAt (s : State) (a : Addr) : Byte := s.mem.read a.toNat

/-- The bit memory holds at `l`. -/
def State.bitAt (s : State) (l : BitLoc) : Bool := testBit l.bit (s.byteAt l.addr)

/-- What a read of `a` sees: the byte memory holds, but for the request bits in it that the instruction before changed,
each of which reads as its old or its new value (R371). -/
def State.peek (s : State) (a : Addr) : Byte :=
  s.last.changed.foldl
    (fun v l => if l.addr = a then putBit l.bit (Config.freeRequestRead s.draws l) v else v) (s.byteAt a)

/-- An access to `a` finds something there (R71). -/
def State.present (s : State) (a : Addr) : Bool := kindAt s.cfg a != .absent

/-- `MemRead(a, 1)` (R8, R64): a read of an absent address stops (R71). -/
def load (s : State) (a : Addr) : Res Byte :=
  if s.present a then .next (s.peek a) else .fault (.absentAddress a)

/-- `v` at `a` would make a request bit 1 that is 0 (R324, D20). -/
def State.setsRequest (s : State) (a : Addr) (v : Byte) : Bool :=
  s.cfg.irqSources.any fun k =>
    k.request.addr == a && !(testBit k.request.bit (s.byteAt a)) && testBit k.request.bit v

/-- The map holds memory at `a` that a store changes (R71). -/
def State.writable (s : State) (a : Addr) : Bool :=
  kindAt s.cfg a == .ram || kindAt s.cfg a == .sfr

/-- The state after a store of `v` at `a` that goes through, the store recorded for R379.  A write to ROM of the kind that
ignores writes leaves everything as it is (R71, D8). -/
def State.put (s : State) (a : Addr) (v : Byte) : State :=
  if s.writable a then
    (s.setMem (s.mem.write a.toNat v)).setLast { s.last with written := a :: s.last.written }
  else s

/-- A store of `v` at `a` goes through: something is there, it is not ROM that refuses writes (R71), and the store makes no
request bit 1 (R324). -/
def State.storable (s : State) (a : Addr) (v : Byte) : Bool :=
  match kindAt s.cfg a with
  | .absent | .rom => false
  | .romIgnoringWrites => true
  | .ram | .sfr => !(s.setsRequest a v)

/-- `MemWrite(a, 1, v)` (R8): a store to an absent address stops, one to ROM is refused or does nothing as the map says
(R71, D8), and one that makes a request bit 1 is refused (R324, D20). -/
def store (s : State) (a : Addr) (v : Byte) : Res State :=
  match kindAt s.cfg a with
  | .absent => .fault (.absentAddress a)
  | .rom => .refused (.romWrite a)
  | .romIgnoringWrites => .next (s.put a v)
  | .ram | .sfr => if s.setsRequest a v then .refused (.requestBitSetBySoftware a) else .next (s.put a v)

/-- `zext_16(z)`: a zero-page address (R8, R61). -/
def zeroPage (z : Byte) : Addr := joinAddr 0x00 z

/-- `Read16(a)`: the low byte at `a`, the high byte at a + 1 (R8, R63, R66). -/
def read16 (s : State) (a : Addr) : Res Addr :=
  andThen (load s a) fun lo => andThen (load s (a + 1)) fun hi => .next (joinAddr hi lo)

/-- `ReadZP16(z)`: as `Read16`, both bytes in the zero page (R8, R67). -/
def readZp16 (s : State) (z : Byte) : Res Addr :=
  andThen (load s (zeroPage z)) fun lo => andThen (load s (zeroPage (z + 1))) fun hi => .next (joinAddr hi lo)

/-- A bit of memory that the hardware itself changes, where there is RAM or an SFR to hold it. -/
def State.hardwareBit (s : State) (l : BitLoc) (x : Bool) : State :=
  if s.writable l.addr then s.setMem (s.mem.write l.addr.toNat (putBit l.bit x (s.byteAt l.addr))) else s

/-! ### The stack -/

/-- `StackPage()` (R24). -/
def State.stackPage (s : State) : Byte :=
  match s.cfg.stackPage with
  | .fixed p => p
  | .selectable zp bit _ => if s.bitAt ⟨zeroPage zp, bit⟩ then 0x01 else 0x00

/-- `StackAddr()` (R8, R24). -/
def State.stackAddr (s : State) : Addr := joinAddr s.stackPage s.s

/-- The state after a push of `v` that goes through (R23). -/
def State.pushed (s : State) (v : Byte) : State := (s.put s.stackAddr v).setS (s.s - 1)

/-- `Push8(v)` (R8): store at the stack address, then S - 1, which wraps (R23). -/
def push8 (s : State) (v : Byte) : Res State :=
  andThen (store s s.stackAddr v) fun s' => .next (s'.setS (s'.s - 1))

/-- `Pull8()` (R8): S + 1, which wraps (R23), then read at the stack address. -/
def pull8 (s : State) : Res (Byte × State) :=
  let s' := s.setS (s.s + 1)
  andThen (load s' s'.stackAddr) fun v => .next (v, s')

/-- A 16-bit address onto the stack, its high byte first (R63, R287). -/
def pushAddr (s : State) (a : Addr) : Res State :=
  andThen (push8 s (hiByte a)) fun s' => push8 s' (loByte a)

/-- A 16-bit address from the stack, its low byte first (R287). -/
def pullAddr (s : State) : Res (Addr × State) :=
  andThen (pull8 s) fun lo => andThen (pull8 lo.2) fun hi => .next (joinAddr hi.1 lo.1, hi.2)

/-! ### Exceptions -/

/-- The hardware clears the request bit of an accepted source (R327); BRK has none (R333). -/
def State.acknowledge (s : State) : Option BitLoc → State
  | none => s
  | some l => s.hardwareBit l false

/-- The entry sequence of an interrupt and of BRK (R329, R331, R333): PCH, PCL and PS of `s` go onto the stack, PS with
`b` in bit 4; then I becomes 1, the request is acknowledged, and PC comes from the vector, low byte first (R62, R330).
Nothing else changes: T and D keep their values.
DESIGN CHOICE (log 15): R324 and D20 refuse a program's store that makes a request bit 1 that is 0 and do not speak of the
hardware's pushes at an entry; a push of an entry that would do so is refused like any other store. -/
def takeException (s : State) (ret : Addr) (b : Bool) (request : Option BitLoc) (vector : Addr) : Res State :=
  andThen (pushAddr s ret) fun s1 =>
  andThen (push8 s1 (s.ps.toByte b)) fun s2 =>
  let s3 := (s2.setPs { s.ps with i := true }).acknowledge request
  andThen (read16 s3 vector) fun target => .next (s3.setPc target)

/-- The return (R273, R336): PS, then PCL, then PCH come from the stack; bit 4 of the pulled PS is discarded and nothing is
added to the address. -/
def returnFromException (s : State) : Res State :=
  andThen (pull8 s) fun p =>
  andThen (pullAddr (p.2.setPs (PS.ofByte p.1))) fun ret => .next (ret.2.setPc ret.1)

end Sys2Proof.Machine
end

