-- ==== Sys2Proof/Machine/Operands.lean ====
section
/-! DEFINITION. Addressing modes and effective addresses (spec/40_addressing.md), and the ways an instruction uses its
operand: read it, store to it, change it in place, or work on the first operand that T selects (R141). -/

namespace Sys2Proof.Machine

/-- The memory addressing modes of data (R123 to R128, R131, R132). -/
inductive MemMode where
  | zp (zz : Byte) | zpX (zz : Byte) | zpY (zz : Byte)
  | abs (a : Addr) | absX (a : Addr) | absY (a : Addr) | indX (zz : Byte) | indY (zz : Byte)
  deriving DecidableEq, Repr

/-- A read operand: the immediate (R121) or a byte of memory. -/
inductive Source where
  | imm (nn : Byte)
  | mem (m : MemMode)
  deriving DecidableEq, Repr

/-- An operand changed in place: A (R122, R137) or a byte of memory. -/
inductive Place where
  | acc
  | mem (m : MemMode)
  deriving DecidableEq, Repr

/-- The operand of each format of ADC, AND, CMP, EOR, LDA, ORA, SBC. -/
def sourceOfAlu : AluSrc → Source
  | .imm nn => .imm nn
  | .zp zz => .mem (.zp zz)
  | .zpX zz => .mem (.zpX zz)
  | .abs a => .mem (.abs a)
  | .absX a => .mem (.absX a)
  | .absY a => .mem (.absY a)
  | .indX zz => .mem (.indX zz)
  | .indY zz => .mem (.indY zz)

/-- The operand of each format of LDX. -/
def sourceOfLdx : LdxSrc → Source
  | .imm nn => .imm nn
  | .zp zz => .mem (.zp zz)
  | .zpY zz => .mem (.zpY zz)
  | .abs a => .mem (.abs a)
  | .absY a => .mem (.absY a)

/-- The operand of each format of LDY. -/
def sourceOfLdy : LdySrc → Source
  | .imm nn => .imm nn
  | .zp zz => .mem (.zp zz)
  | .zpX zz => .mem (.zpX zz)
  | .abs a => .mem (.abs a)
  | .absX a => .mem (.absX a)

/-- The operand of each format of CPX and CPY. -/
def sourceOfCp : CpSrc → Source
  | .imm nn => .imm nn
  | .zp zz => .mem (.zp zz)
  | .abs a => .mem (.abs a)

/-- The operand of each format of BIT. -/
def sourceOfBit : BitSrc → Source
  | .zp zz => .mem (.zp zz)
  | .abs a => .mem (.abs a)

/-- The destination of each format of STA. -/
def modeOfSta : StaDst → MemMode
  | .zp zz => .zp zz
  | .zpX zz => .zpX zz
  | .abs a => .abs a
  | .absX a => .absX a
  | .absY a => .absY a
  | .indX zz => .indX zz
  | .indY zz => .indY zz

/-- The destination of each format of STX. -/
def modeOfStx : StxDst → MemMode
  | .zp zz => .zp zz
  | .zpY zz => .zpY zz
  | .abs a => .abs a

/-- The destination of each format of STY. -/
def modeOfSty : StyDst → MemMode
  | .zp zz => .zp zz
  | .zpX zz => .zpX zz
  | .abs a => .abs a

/-- The operand of each format of ASL, LSR, ROL, ROR, INC, DEC. -/
def placeOfRmw : RmwPlace → Place
  | .acc => .acc
  | .zp zz => .mem (.zp zz)
  | .zpX zz => .mem (.zpX zz)
  | .abs a => .mem (.abs a)
  | .absX a => .mem (.absX a)

/-- The byte whose bit CLB, SEB, BBC and BBS name (R135 to R138). -/
def placeOfBit : BitPlace → Place
  | .acc => .acc
  | .zp zz => .mem (.zp zz)

/-- An index register as a 16-bit offset. -/
def index16 (r : Byte) : Addr := joinAddr 0x00 r

/-- The effective address (R140).  The zero-page sums drop their carry (R124, R125, R67), the 16-bit sums wrap (R66). -/
def effectiveAddr (s : State) : MemMode → Res Addr
  | .zp zz => .next (zeroPage zz)
  | .zpX zz => .next (zeroPage (zz + s.x))
  | .zpY zz => .next (zeroPage (zz + s.y))
  | .abs a => .next a
  | .absX a => .next (a + index16 s.x)
  | .absY a => .next (a + index16 s.y)
  | .indX zz => readZp16 s (zz + s.x)
  | .indY zz => andThen (readZp16 s zz) fun p => .next (p + index16 s.y)

/-- `M`: the operand the addressing mode delivers (R121, R141). -/
def readSource (s : State) : Source → Res Byte
  | .imm nn => .next nn
  | .mem m => andThen (effectiveAddr s m) fun a => load s a

/-- `MemWrite(EA, 1, v)`. -/
def storeTo (s : State) (m : MemMode) (v : Byte) : Res State :=
  andThen (effectiveAddr s m) fun a => store s a v

/-- Read, change, write back to the same place; `f` gives the result and PS. -/
def modifyPlace (s : State) (p : Place) (f : PS → Byte → Byte × PS) : Res State :=
  match p with
  | .acc =>
    let r := f s.ps s.a
    .next ((s.setA r.1).setPs r.2)
  | .mem m =>
    andThen (effectiveAddr s m) fun a =>
    andThen (load s a) fun v =>
    let r := f s.ps v
    andThen (store s a r.1) fun s' => .next (s'.setPs r.2)

/-- The byte at a place. -/
def readPlace (s : State) : Place → Res Byte
  | .acc => .next s.a
  | .mem m => andThen (effectiveAddr s m) fun a => load s a

/-- `Op1()` (R8, R141): A when T = 0, M(X) when T = 1. -/
def op1 (s : State) : Res Byte := if s.ps.t then load s (zeroPage s.x) else .next s.a

/-- `SetOp1(v)` (R8, R141). -/
def setOp1 (s : State) (v : Byte) : Res State := if s.ps.t then store s (zeroPage s.x) v else .next (s.setA v)

/-- The two-operand instructions that T affects: M, then the first operand, then the result and PS (R70, R141). -/
def aluOp (s : State) (m : AluSrc) (f : PS → Byte → Byte → Byte × PS) : Res State :=
  andThen (readSource s (sourceOfAlu m)) fun v =>
  andThen (op1 s) fun a =>
  let r := f s.ps a v
  andThen (setOp1 s r.1) fun s' => .next (s'.setPs r.2)

/-- `sext_16(rr)` (R8). -/
def offset16 (rr : Byte) : Addr := rr.signExtend 16

/-- The target of a relative branch, from the address of the next instruction (R130, R136, R138). -/
def State.relative (s : State) (rr : Byte) : Addr := s.pc + offset16 rr

/-- A branch taken when `cond` holds (R285). -/
def branchIf (s : State) (cond : Bool) (rr : Byte) : Res State :=
  .next (if cond then s.setPc (s.relative rr) else s)

end Sys2Proof.Machine
end

