-- ==== Sys2Proof/Machine/Arithmetic.lean ====
section
/-! DEFINITION. The meanings of spec/42_arithmetic_logic.md. -/

namespace Sys2Proof.Machine

/-- ADC (R180, R182). -/
def execAdc (m : AluSrc) (s : State) : Res State := aluOp s m (addWithCarry s.draws)

/-- SBC (R181, R182). -/
def execSbc (m : AluSrc) (s : State) : Res State := aluOp s m (subWithCarry s.draws)

/-- AND (R183). -/
def execAnd (m : AluSrc) (s : State) : Res State := aluOp s m andOp

/-- ORA (R184). -/
def execOra (m : AluSrc) (s : State) : Res State := aluOp s m oraOp

/-- EOR (R185). -/
def execEor (m : AluSrc) (s : State) : Res State := aluOp s m eorOp

/-- CMP (R186): of A, or of M(X) when T = 1; nothing but N, Z and C is written. -/
def execCmp (m : AluSrc) (s : State) : Res State :=
  andThen (readSource s (sourceOfAlu m)) fun v =>
  andThen (op1 s) fun a => .next (s.setPs (s.ps.compare a v))

/-- CPX (R187). -/
def execCpx (m : CpSrc) (s : State) : Res State :=
  andThen (readSource s (sourceOfCp m)) fun v => .next (s.setPs (s.ps.compare s.x v))

/-- CPY (R188). -/
def execCpy (m : CpSrc) (s : State) : Res State :=
  andThen (readSource s (sourceOfCp m)) fun v => .next (s.setPs (s.ps.compare s.y v))

/-- BIT (R189): always of A. -/
def execBit (m : BitSrc) (s : State) : Res State :=
  andThen (readSource s (sourceOfBit m)) fun v => .next (s.setPs (s.ps.bitTest s.a v))

/-- TST (R190). -/
def execTst (zz : Byte) (s : State) : Res State :=
  andThen (readSource s (.mem (.zp zz))) fun v => .next (s.setPs (s.ps.setNZ v))

/-- COM (R191). -/
def execCom (zz : Byte) (s : State) : Res State := modifyPlace s (.mem (.zp zz)) comOp

/-- INC (R192). -/
def execInc (p : RmwPlace) (s : State) : Res State := modifyPlace s (placeOfRmw p) incOp

/-- DEC (R193). -/
def execDec (p : RmwPlace) (s : State) : Res State := modifyPlace s (placeOfRmw p) decOp

/-- INX (R194). -/
def execInx (s : State) : Res State := .next ((s.setX (s.x + 1)).setPs (s.ps.setNZ (s.x + 1)))

/-- INY (R195). -/
def execIny (s : State) : Res State := .next ((s.setY (s.y + 1)).setPs (s.ps.setNZ (s.y + 1)))

/-- DEX (R196). -/
def execDex (s : State) : Res State := .next ((s.setX (s.x - 1)).setPs (s.ps.setNZ (s.x - 1)))

/-- DEY (R197). -/
def execDey (s : State) : Res State := .next ((s.setY (s.y - 1)).setPs (s.ps.setNZ (s.y - 1)))

/-- MUL (R198): the operand is read, then the high byte is pushed, then A takes the low byte; no flag. -/
def execMul (zz : Byte) (s : State) : Res State :=
  andThen (readSource s (.mem (.zpX zz))) fun v =>
  andThen (push8 s (hiByte (product s.a v))) fun s' => .next (s'.setA (loByte (product s.a v)))

/-- DIV (R199): the dividend is the 16-bit quantity at the ZP,X address, its high byte in the zero page too (R67); A takes
the quotient and the one's complement of the remainder is pushed; no flag. -/
def execDiv (zz : Byte) (s : State) : Res State :=
  andThen (readZp16 s (zz + s.x)) fun n =>
  andThen (push8 s (remainderByte s.draws n s.a)) fun s' => .next (s'.setA (quotientByte s.draws n s.a))

end Sys2Proof.Machine
end

