-- ==== Sys2Proof/Machine/ClockControl.lean ====
section
/-! DEFINITION. The meanings of spec/46_clock_control.md. -/

namespace Sys2Proof.Machine

/-- SLW (R310): the oscillator output leaves the XOUTF pin. -/
def execSlw (s : State) : Res State := .next (s.setXoutf false)

/-- FST (R311): the oscillator output is connected to the XOUTF pin. -/
def execFst (s : State) : Res State := .next (s.setXoutf true)

/-- WIT (R312): the internal clock stops. -/
def execWit (s : State) : Res State := .next (s.setClk .wait)

/-- STP (R313): the oscillator stops. -/
def execStp (s : State) : Res State := .next (s.setClk .stop)

end Sys2Proof.Machine
end

