-- ==== Sys2Proof/Machine/Control.lean ====
section
/-! DEFINITION. The meanings of spec/45_control_transfer.md.  PC is the address of the next instruction (R9). -/

namespace Sys2Proof.Machine

/-- JMP (R270).  A pointer in the last byte of a page is refused in the IND format (R374). -/
def execJmp (t : JmpTarget) (s : State) : Res State :=
  match t with
  | .abs a => .next (s.setPc a)
  | .ind a =>
    if loByte a = 0xFF then .refused (.jmpIndirectPageEnd a)
    else andThen (read16 s a) fun target => .next (s.setPc target)
  | .zpInd zz => andThen (readZp16 s zz) fun target => .next (s.setPc target)

/-- JSR (R271): the address one before the next instruction is pushed; a pointer is read after the pushes. -/
def execJsr (t : JsrTarget) (s : State) : Res State :=
  andThen (pushAddr s (s.pc - 1)) fun s' =>
  match t with
  | .abs a => .next (s'.setPc a)
  | .sp ll => .next (s'.setPc (joinAddr s.cfg.specialPage ll))
  | .zpInd zz => andThen (readZp16 s' zz) fun target => .next (s'.setPc target)

/-- RTS (R272): one more than the pulled address. -/
def execRts (s : State) : Res State :=
  andThen (pullAddr s) fun p => .next (p.2.setPc (p.1 + 1))

/-- RTI (R273). -/
def execRti (s : State) : Res State := returnFromException s

/-- BRA (R274). -/
def execBra (rr : Byte) (s : State) : Res State := branchIf s true rr

/-- BCC (R275). -/
def execBcc (rr : Byte) (s : State) : Res State := branchIf s (!s.ps.c) rr

/-- BCS (R276). -/
def execBcs (rr : Byte) (s : State) : Res State := branchIf s s.ps.c rr

/-- BEQ (R277). -/
def execBeq (rr : Byte) (s : State) : Res State := branchIf s s.ps.z rr

/-- BNE (R278). -/
def execBne (rr : Byte) (s : State) : Res State := branchIf s (!s.ps.z) rr

/-- BMI (R279). -/
def execBmi (rr : Byte) (s : State) : Res State := branchIf s s.ps.n rr

/-- BPL (R280). -/
def execBpl (rr : Byte) (s : State) : Res State := branchIf s (!s.ps.n) rr

/-- BVC (R281). -/
def execBvc (rr : Byte) (s : State) : Res State := branchIf s (!s.ps.v) rr

/-- BVS (R282). -/
def execBvs (rr : Byte) (s : State) : Res State := branchIf s s.ps.v rr

/-- BBC (R283). -/
def execBbc (b : BitNo) (p : BitPlace) (rr : Byte) (s : State) : Res State :=
  andThen (readPlace s (placeOfBit p)) fun v => branchIf s (!(testBit b v)) rr

/-- BBS (R284). -/
def execBbs (b : BitNo) (p : BitPlace) (rr : Byte) (s : State) : Res State :=
  andThen (readPlace s (placeOfBit p)) fun v => branchIf s (testBit b v) rr

/-- What BRK adds to its own address (`P_BRK_PUSH_OFFSET`), less the one byte the fetch has added already (R286). -/
def brkExtra : BrkOffset → Addr
  | .one => 0
  | .two => 1

/-- Some source is requested and enabled (R335). -/
def State.requestPending (s : State) : Bool := s.cfg.irqSources.any fun k => s.bitAt k.request && s.bitAt k.enable

/-- BRK (R286, R333).  In the situation of the BRK bug the spec gives it no effect (R335, D19). -/
def execBrk (s : State) : Res State :=
  if !s.cfg.series38000 && s.ps.i && s.requestPending then .refused .brkWithPendingRequest
  else takeException s (s.pc + brkExtra s.cfg.brkOffset) true none s.cfg.vecBrk

end Sys2Proof.Machine
end

