-- ==== Sys2Proof/Machine/FlagStack.lean ====
section
/-! DEFINITION. The meanings of spec/44_flag_stack_nop.md. -/

namespace Sys2Proof.Machine

/-- CLC (R240). -/
def execClc (s : State) : Res State := .next (s.setPs { s.ps with c := false })

/-- SEC (R241). -/
def execSec (s : State) : Res State := .next (s.setPs { s.ps with c := true })

/-- CLD (R242). -/
def execCld (s : State) : Res State := .next (s.setPs { s.ps with d := false })

/-- SED (R243). -/
def execSed (s : State) : Res State := .next (s.setPs { s.ps with d := true })

/-- CLI (R244). -/
def execCli (s : State) : Res State := .next (s.setPs { s.ps with i := false })

/-- SEI (R245). -/
def execSei (s : State) : Res State := .next (s.setPs { s.ps with i := true })

/-- CLT (R246). -/
def execClt (s : State) : Res State := .next (s.setPs { s.ps with t := false })

/-- SET (R247). -/
def execSet (s : State) : Res State := .next (s.setPs { s.ps with t := true })

/-- CLV (R248). -/
def execClv (s : State) : Res State := .next (s.setPs { s.ps with v := false })

/-- PHA (R249). -/
def execPha (s : State) : Res State := push8 s s.a

/-- PHP (R250): bit 4 of the pushed byte is 0. -/
def execPhp (s : State) : Res State := push8 s (s.ps.toByte s.ps.b)

/-- PLA (R251): to A whatever T is. -/
def execPla (s : State) : Res State :=
  andThen (pull8 s) fun p => .next ((p.2.setA p.1).setPs (s.ps.setNZ p.1))

/-- PLP (R252): bit 4 of the pulled byte is discarded. -/
def execPlp (s : State) : Res State :=
  andThen (pull8 s) fun p => .next (p.2.setPs (PS.ofByte p.1))

/-- NOP (R253): nothing beyond the fetch. -/
def execNop (s : State) : Res State := .next s

end Sys2Proof.Machine
end

