-- ==== Sys2Proof/Machine/LoadStore.lean ====
section
/-! DEFINITION. The meanings of spec/41_load_store_transfer.md. -/

namespace Sys2Proof.Machine

/-- LDA (R150): M to A, or to M(X) when T = 1; N and Z. -/
def execLda (m : AluSrc) (s : State) : Res State :=
  andThen (readSource s (sourceOfAlu m)) fun v =>
  andThen (setOp1 s v) fun s' => .next (s'.setPs (s.ps.setNZ v))

/-- LDX (R151). -/
def execLdx (m : LdxSrc) (s : State) : Res State :=
  andThen (readSource s (sourceOfLdx m)) fun v => .next ((s.setX v).setPs (s.ps.setNZ v))

/-- LDY (R152). -/
def execLdy (m : LdySrc) (s : State) : Res State :=
  andThen (readSource s (sourceOfLdy m)) fun v => .next ((s.setY v).setPs (s.ps.setNZ v))

/-- LDM (R153, R103). -/
def execLdm (nn zz : Byte) (s : State) : Res State := storeTo s (.zp zz) nn

/-- STA (R154): A whatever T is. -/
def execSta (d : StaDst) (s : State) : Res State := storeTo s (modeOfSta d) s.a

/-- STX (R155). -/
def execStx (d : StxDst) (s : State) : Res State := storeTo s (modeOfStx d) s.x

/-- STY (R156). -/
def execSty (d : StyDst) (s : State) : Res State := storeTo s (modeOfSty d) s.y

/-- TAX (R157). -/
def execTax (s : State) : Res State := .next ((s.setX s.a).setPs (s.ps.setNZ s.a))

/-- TAY (R158). -/
def execTay (s : State) : Res State := .next ((s.setY s.a).setPs (s.ps.setNZ s.a))

/-- TXA (R159): to A whatever T is. -/
def execTxa (s : State) : Res State := .next ((s.setA s.x).setPs (s.ps.setNZ s.x))

/-- TYA (R160). -/
def execTya (s : State) : Res State := .next ((s.setA s.y).setPs (s.ps.setNZ s.y))

/-- TSX (R161). -/
def execTsx (s : State) : Res State := .next ((s.setX s.s).setPs (s.ps.setNZ s.s))

/-- TXS (R162): no flag. -/
def execTxs (s : State) : Res State := .next (s.setS s.x)

end Sys2Proof.Machine
end

