-- ==== Sys2Proof/Machine/ShiftBit.lean ====
section
/-! DEFINITION. The meanings of spec/43_shift_rotate_bit.md. -/

namespace Sys2Proof.Machine

/-- ASL (R220). -/
def execAsl (p : RmwPlace) (s : State) : Res State := modifyPlace s (placeOfRmw p) aslOp

/-- LSR (R221). -/
def execLsr (p : RmwPlace) (s : State) : Res State := modifyPlace s (placeOfRmw p) lsrOp

/-- ROL (R222). -/
def execRol (p : RmwPlace) (s : State) : Res State := modifyPlace s (placeOfRmw p) rolOp

/-- ROR (R223). -/
def execRor (p : RmwPlace) (s : State) : Res State := modifyPlace s (placeOfRmw p) rorOp

/-- RRF (R224). -/
def execRrf (zz : Byte) (s : State) : Res State := modifyPlace s (.mem (.zp zz)) rrfOp

/-- CLB (R225). -/
def execClb (b : BitNo) (p : BitPlace) (s : State) : Res State := modifyPlace s (placeOfBit p) (clbOp b)

/-- SEB (R226). -/
def execSeb (b : BitNo) (p : BitPlace) (s : State) : Res State := modifyPlace s (placeOfBit p) (sebOp b)

end Sys2Proof.Machine
end

