-- ==== Sys2Proof/Machine/Dispatch.lean ====
section
/-! DEFINITION. One arm per instruction: the call of its meaning. -/

namespace Sys2Proof.Machine

/-- The effect of an instruction, in the state in which PC is past its bytes (spec/00_scope.md R9). -/
def exec (i : Instr) (s : State) : Host.Outcome State Fault Refusal :=
  match i with
  -- spec/41_load_store_transfer.md
  | .lda m => Sys2Proof.Machine.execLda m s
  | .ldx m => Sys2Proof.Machine.execLdx m s
  | .ldy m => Sys2Proof.Machine.execLdy m s
  | .ldm nn zz => Sys2Proof.Machine.execLdm nn zz s
  | .sta d => Sys2Proof.Machine.execSta d s
  | .stx d => Sys2Proof.Machine.execStx d s
  | .sty d => Sys2Proof.Machine.execSty d s
  | .tax => Sys2Proof.Machine.execTax s
  | .tay => Sys2Proof.Machine.execTay s
  | .txa => Sys2Proof.Machine.execTxa s
  | .tya => Sys2Proof.Machine.execTya s
  | .tsx => Sys2Proof.Machine.execTsx s
  | .txs => Sys2Proof.Machine.execTxs s
  -- spec/42_arithmetic_logic.md
  | .adc m => Sys2Proof.Machine.execAdc m s
  | .sbc m => Sys2Proof.Machine.execSbc m s
  | .and m => Sys2Proof.Machine.execAnd m s
  | .ora m => Sys2Proof.Machine.execOra m s
  | .eor m => Sys2Proof.Machine.execEor m s
  | .cmp m => Sys2Proof.Machine.execCmp m s
  | .cpx m => Sys2Proof.Machine.execCpx m s
  | .cpy m => Sys2Proof.Machine.execCpy m s
  | .bit m => Sys2Proof.Machine.execBit m s
  | .tst zz => Sys2Proof.Machine.execTst zz s
  | .com zz => Sys2Proof.Machine.execCom zz s
  | .inc p => Sys2Proof.Machine.execInc p s
  | .dec p => Sys2Proof.Machine.execDec p s
  | .inx => Sys2Proof.Machine.execInx s
  | .iny => Sys2Proof.Machine.execIny s
  | .dex => Sys2Proof.Machine.execDex s
  | .dey => Sys2Proof.Machine.execDey s
  | .mul zz => Sys2Proof.Machine.execMul zz s
  | .div zz => Sys2Proof.Machine.execDiv zz s
  -- spec/43_shift_rotate_bit.md
  | .asl p => Sys2Proof.Machine.execAsl p s
  | .lsr p => Sys2Proof.Machine.execLsr p s
  | .rol p => Sys2Proof.Machine.execRol p s
  | .ror p => Sys2Proof.Machine.execRor p s
  | .rrf zz => Sys2Proof.Machine.execRrf zz s
  | .clb b p => Sys2Proof.Machine.execClb b p s
  | .seb b p => Sys2Proof.Machine.execSeb b p s
  -- spec/44_flag_stack_nop.md
  | .clc => Sys2Proof.Machine.execClc s
  | .sec => Sys2Proof.Machine.execSec s
  | .cld => Sys2Proof.Machine.execCld s
  | .sed => Sys2Proof.Machine.execSed s
  | .cli => Sys2Proof.Machine.execCli s
  | .sei => Sys2Proof.Machine.execSei s
  | .clt => Sys2Proof.Machine.execClt s
  | .set => Sys2Proof.Machine.execSet s
  | .clv => Sys2Proof.Machine.execClv s
  | .pha => Sys2Proof.Machine.execPha s
  | .php => Sys2Proof.Machine.execPhp s
  | .pla => Sys2Proof.Machine.execPla s
  | .plp => Sys2Proof.Machine.execPlp s
  | .nop => Sys2Proof.Machine.execNop s
  -- spec/45_control_transfer.md
  | .jmp t => Sys2Proof.Machine.execJmp t s
  | .jsr t => Sys2Proof.Machine.execJsr t s
  | .rts => Sys2Proof.Machine.execRts s
  | .rti => Sys2Proof.Machine.execRti s
  | .bra rr => Sys2Proof.Machine.execBra rr s
  | .bcc rr => Sys2Proof.Machine.execBcc rr s
  | .bcs rr => Sys2Proof.Machine.execBcs rr s
  | .beq rr => Sys2Proof.Machine.execBeq rr s
  | .bne rr => Sys2Proof.Machine.execBne rr s
  | .bmi rr => Sys2Proof.Machine.execBmi rr s
  | .bpl rr => Sys2Proof.Machine.execBpl rr s
  | .bvc rr => Sys2Proof.Machine.execBvc rr s
  | .bvs rr => Sys2Proof.Machine.execBvs rr s
  | .bbc b p rr => Sys2Proof.Machine.execBbc b p rr s
  | .bbs b p rr => Sys2Proof.Machine.execBbs b p rr s
  | .brk => Sys2Proof.Machine.execBrk s
  -- spec/46_clock_control.md
  | .slw => Sys2Proof.Machine.execSlw s
  | .fst => Sys2Proof.Machine.execFst s
  | .wit => Sys2Proof.Machine.execWit s
  | .stp => Sys2Proof.Machine.execStp s

end Sys2Proof.Machine
end

