-- ==== Sys2Proof/Machine/Reset.lean ====
section
/-! DEFINITION. Reset of a machine of any chip (spec/70_reset_and_hazards.md R360, R361; spec/10_state.md R43). -/

namespace Sys2Proof.Machine

/-- Values for all that R43 leaves undefined or unspecified. -/
structure ResetDraw where
  a : Byte
  x : Byte
  y : Byte
  s : Byte
  /-- N, V, T, D, Z and C, as bits of a PS byte -/
  flags : Byte
  xoutf : Bool
  /-- the Stack Page Selection Bit where `P_SPS_RESET` is unspecified -/
  sps : Bool
  deriving DecidableEq, Repr

/-- The values of `State.reset` (DESIGN CHOICE, log 3). -/
def ResetDraw.zero : ResetDraw := ⟨0, 0, 0, 0, 0, false, false⟩

/-- Free values (log 11). -/
def ResetDraw.free (draw : Nat) : ResetDraw :=
  ⟨Config.freeResetA draw, Config.freeResetX draw, Config.freeResetY draw, Config.freeResetS draw,
   Config.freeResetFlags draw, Config.freeResetXoutf draw, Config.freeResetSps draw⟩

/-- The Stack Page Selection Bit takes `P_SPS_RESET` (R43). -/
def State.resetStackPage (s : State) (u : ResetDraw) : State :=
  match s.cfg.stackPage with
  | .fixed _ => s
  | .selectable zp bit r => s.hardwareBit ⟨zeroPage zp, bit⟩ (r.getD u.sps)

/-- REQ[k] and EN[k] of every source take their reset values (R43, D11). -/
def State.resetSources (s : State) : State :=
  s.cfg.irqSources.foldl
    (fun s k => (s.hardwareBit k.request k.requestReset).hardwareBit k.enable k.enableReset) s

/-- PS after reset: I = 1, the other flags as `flags` has them (R43). -/
def PS.resetWith (flags : Byte) : PS := { PS.ofByte flags with i := true }

/-- The state after reset of the chip `c` whose memory is otherwise `m` (R361); PC is still to be read. -/
def State.resetBeforeVector (c : Config) (u : ResetDraw) (m : Memory) : State :=
  (({ a := u.a, x := u.x, y := u.y, s := u.s, pc := 0, ps := PS.resetWith u.flags, mem := m, clk := .run,
      xoutf := u.xoutf, last := Last.none, draws := 0, waiting := [], inputs := [], cfg := c } :
      State).resetStackPage u).resetSources

/-- Reset (R361): PC = Read16(`P_VEC_RESET`) (D10). -/
def resetWith (c : Config) (u : ResetDraw) (m : Memory) : Res State :=
  let s := State.resetBeforeVector c u m
  andThen (read16 s c.vecReset) fun target => .next (s.setPc target)

/-- Memory after a reset of a running machine: ROM keeps its contents; whether anything else does is not in the spec, and it
holds any value (R361). -/
def State.memoryAfterReset (s : State) : Memory :=
  Memory.tabulate
    (fun a =>
      match kindAt s.cfg (BitVec.ofNat 16 a) with
      | .rom | .romIgnoringWrites => s.mem.read a
      | .ram | .sfr => Config.freeResetMemory s.draws a
      | .absent => unlistedByte)
    0 0x10000

/-- Reset of a running machine, in any state of its clock (R360): nothing is saved and nothing unspecified is kept. -/
def resetEvent (s : State) : Res State :=
  andThen (resetWith s.cfg (ResetDraw.free s.draws) s.memoryAfterReset) fun t =>
  .next ((t.setDraws (s.draws + 1)).setInputs s.inputs)

end Sys2Proof.Machine
end

