-- ==== Sys2Proof/Machine/Environment.lean ====
section
/-! DEFINITION. What the environment does between two instructions (spec/00_scope.md R12, spec/20_memory.md R72,
spec/60_exceptions.md R325). -/

namespace Sys2Proof.Machine

/-- The effect of one action of the environment.  It sets a request bit (R325), gives an SFR or I/O byte a value (R72), or
resets the machine (R360); `cpu` is no action.
DESIGN CHOICE (log 23): a device event gives the whole byte, so where request or enable bits lie in an SFR byte the
environment may also clear a pending REQ[k] or change EN[k], though R325 names only acceptance and software as what ends a
pending request; this is the wide reading of R72 and D5. -/
def environmentActs (s : State) (e : EnvEvent) : Res State :=
  match e with
  | .cpu => .next s
  | .request n =>
    match s.cfg.irqSources[n]? with
    | some k => .next (s.hardwareBit k.request true)
    | none => .next s
  | .device a v => if kindAt s.cfg a = .sfr then .next (s.setMem (s.mem.write a.toNat v)) else .next s
  | .reset => resetEvent s

end Sys2Proof.Machine
end

