-- ==== Sys2Proof/Machine/Fetch.lean ====
section
/-! DEFINITION. Fetching the instruction at PC (spec/00_scope.md R9, spec/30_encoding.md R92, spec/20_memory.md R75). -/

namespace Sys2Proof.Machine

/-- One instruction byte, by the same `MemRead` as data; refused if the instruction before stored to it (R75, R379). -/
def fetchByte (s : State) (a : Addr) : Res Byte :=
  if a ∈ s.last.written then .refused (.overwroteNextInstruction a) else load s a

/-- `n` instruction bytes from `a` on; addresses wrap (R25, R92). -/
def fetchBytes (s : State) : Addr → Nat → Res (List Byte)
  | _, 0 => .next []
  | a, n + 1 =>
    andThen (fetchByte s a) fun b =>
    andThen (fetchBytes s (a + 1) n) fun bs => .next (b :: bs)

/-- The instruction at PC and its length (R92): the opcode byte, then the operand bytes its format calls for and no more. An
unassigned opcode is refused (R97). -/
def fetch (s : State) : Res (Instr × Nat) :=
  andThen (fetchByte s s.pc) fun op =>
  match lookup s.cfg op with
  | none => .refused (.unassignedOpcode op)
  | some sh =>
    andThen (fetchBytes s (s.pc + 1) (sh.length - 1)) fun operands =>
    match decode s.cfg (op :: operands) with
    | .ok (i, _) => .next (i, sh.length)
    | .error _ => .refused (.unassignedOpcode op)

end Sys2Proof.Machine
end

