-- ==== Sys2Proof/Machine/Interrupt.lean ====
section
/-! DEFINITION. Maskable interrupts: when one is acceptable, which is taken, and its entry (spec/60_exceptions.md R322 to
R332). -/

namespace Sys2Proof.Machine

/-- What the acceptance test sees of REQ[k]: its value, or either of its values if the instruction before changed it (R326,
R371). -/
def State.requestSeen (s : State) (k : IrqSource) : Bool :=
  if k.request ∈ s.last.changed then Config.freeRequestSeen s.draws k.request else s.bitAt k.request

/-- What the acceptance test sees of I: its value, but directly after a PLP, on a part that is not of series 38000, its
old or its new value (R326, R370). -/
def State.maskSeen (s : State) : Bool :=
  match s.last.kind with
  | .plp oldI => if !s.cfg.series38000 && Config.freeOldI s.draws then oldI else s.ps.i
  | .none | .decimal => s.ps.i

/-- Source k can be accepted: REQ[k] = 1, EN[k] = 1, I = 0 (R326).
DEDUCED (log 37): EN[k] is seen as memory holds it, so a write of it counts at the very next boundary; whether an enable-bit
write takes effect at once is not in the source. -/
def State.acceptable (s : State) (k : IrqSource) : Bool := s.requestSeen k && s.bitAt k.enable && !s.maskSeen

/-- The source of highest priority, the one of smallest rank (R328). -/
def highestPriority : List IrqSource → Option IrqSource
  | [] => none
  | k :: ks =>
    match highestPriority ks with
    | none => some k
    | some j => if j.rank < k.rank then some j else some k

/-- The acceptable source of highest priority (R328). -/
def State.candidate (s : State) : Option IrqSource := highestPriority (s.cfg.irqSources.filter s.acceptable)

/-- The source whose entry is the next step because one instruction cleared its request bit and set its enable bit, I being
0 (R373, D25). -/
def State.forcedSource (s : State) : Option IrqSource := if s.ps.i then none else highestPriority s.last.forced

/-- The draw since which source k has been acceptable without a break. -/
def State.acceptableSince (s : State) (k : IrqSource) : Nat := (s.waiting.lookup k).getD s.draws

/-- Source k can be passed over no longer: the free, finite number of boundaries it may wait is used up (R326, log 8). -/
def State.overdue (s : State) (k : IrqSource) : Bool :=
  decide (s.acceptableSince k + Config.freePatience (s.acceptableSince k) k ≤ s.draws)

/-- The acceptable sources, each with the draw since which it is: what `waiting` becomes when they are passed over. -/
def State.passedOver (s : State) : List (IrqSource × Nat) :=
  (s.cfg.irqSources.filter s.acceptable).map fun k => (k, s.acceptableSince k)

/-- The interrupt the CPU enters at this boundary, if any.  While the clock runs an acceptable source may be accepted or
passed over: a free choice (R326, D16, D18), but none that stays acceptable is passed over for ever, which is the fairness
of R326; while the clock is stopped it is accepted (R312, R313). -/
def State.interruptTaken (s : State) : Option IrqSource :=
  match s.forcedSource with
  | some k => some k
  | none =>
    match s.candidate with
    | none => none
    | some k => if s.clk != .run || s.cfg.irqSources.any (fun j => s.acceptable j && s.overdue j) then some k else none

/-- The entry sequence of source k (R329): the address of the next instruction and PS with B = 0 are pushed, I becomes 1,
the request is cleared if the source's `auto_clear` says so (R327), PC comes from the vector, the clock runs, `last` is
cleared (D24) and no source is waiting any more, I being 1. -/
def enterInterrupt (s : State) (k : IrqSource) : Res State :=
  andThen (takeException s s.pc s.ps.b (if k.autoClear then some k.request else none) k.vector) fun t =>
  .next ((((t.setClk .run).setLast Last.none).setDraws (s.draws + 1)).setWaiting [])

end Sys2Proof.Machine
end

