-- ==== Sys2Proof/Machine/Hazard.lean ====
section
/-! DEFINITION. The "execute one more instruction" rules of spec/70_reset_and_hazards.md section 3: what an instruction
leaves in `last`, and what the next one may not be. -/

namespace Sys2Proof.Machine

/-- NOP. -/
def isNop (i : Instr) : Bool := i == .nop

/-- SEC, CLC or CLD (R372). -/
def isSecClcCld (i : Instr) : Bool := i == .sec || i == .clc || i == .cld

/-- Why `i` may not run after the instruction that left `s.last`, if so (R370, R372). -/
def hazard (s : State) (i : Instr) : Option Refusal :=
  match s.last.kind with
  | .none => none
  | .plp _ => if !s.cfg.series38000 && !(isNop i) then some .plpNotFollowedByNop else none
  | .decimal => if isSecClcCld i then some .flagInstructionAfterDecimal else none

/-- ADC or SBC (R372). -/
def isAdcSbc (i : Instr) : Bool :=
  match i with
  | .adc _ | .sbc _ => true
  | _ => false

/-- The kind of `i`, run in the state `pre` (R370, R372). -/
def kindAfter (pre : State) (i : Instr) : LastKind :=
  if i = .plp then .plp pre.ps.i
  else if isAdcSbc i && pre.ps.d then .decimal
  else .none

/-- The request bits that differ between two states (R371). -/
def changedRequests (pre post : State) : List BitLoc :=
  (pre.cfg.irqSources.map (·.request)).filter fun l => pre.bitAt l != post.bitAt l

/-- The sources whose request bit went from 1 to 0 while their enable bit went from 0 to 1 (R373). -/
def clearedWhileEnabled (pre post : State) : List IrqSource :=
  pre.cfg.irqSources.filter fun k =>
    pre.bitAt k.request && !(post.bitAt k.request) && !(pre.bitAt k.enable) && post.bitAt k.enable

/-- What the CPU does after the effect of `i`, which took `pre` to `post`: `last` records what the hazard rules need (R41),
the next draw of free values begins, and `waiting` records the interrupts that were passed over (R326). -/
def settle (pre : State) (i : Instr) (post : State) : State :=
  ((post.setLast
    { kind := kindAfter pre i
      changed := changedRequests pre post
      written := post.last.written
      forced := clearedWhileEnabled pre post }).setDraws (pre.draws + 1)).setWaiting pre.passedOver

/-- The state in which `exec` runs an instruction of `n` bytes: PC is past it (R9), and no store of it is recorded yet. -/
def State.fetched (s : State) (n : Nat) : State :=
  (s.setPc (s.pc + BitVec.ofNat 16 n)).setLast { s.last with written := [] }

end Sys2Proof.Machine
end

