-- ==== Sys2Proof/Machine/Step.lean ====
section
/-! DEFINITION. One step of the machine (spec/00_scope.md R9, R12): the environment's turn, or an interrupt entry, or one
instruction. -/

namespace Sys2Proof.Machine

/-- One instruction (R9): fetch, the hazard rules, its effect, and what it leaves for the next boundary. -/
def instructionStep (s : State) : Res State :=
  andThen (fetch s) fun f =>
  match hazard s f.1 with
  | some r => .refused r
  | none => andThen (exec f.1 (s.fetched f.2)) fun t => .next (settle s f.1 t)

/-- One step of the CPU (R9): the entry of an interrupt if one is taken, else one instruction.  While the clock is stopped
only an interrupt is possible (R326): the CPU waits as long as the environment has something left to do, and the state
is final when it has not (U20). -/
def cpuStep (s : State) : Res State :=
  match s.interruptTaken with
  | some k => enterInterrupt s k
  | none =>
    match s.clk with
    | .run => instructionStep s
    | .wait | .stop => if s.inputs.isEmpty then .fault .clockStopped else .next s

/-- One step: the first entry of `inputs` says whose turn it is; with none left it is the CPU's. -/
def step (s : State) : Host.Outcome State Fault Refusal :=
  match s.inputs with
  | [] => cpuStep s
  | .cpu :: rest => cpuStep (s.setInputs rest)
  | e :: rest => environmentActs (s.setInputs rest) e

/-- `s` with the bytes of an instruction at PC, up to the longest instruction (wrapping as the fetch does), at a boundary
where the CPU's next step is to run it: the clock runs, it is the CPU's turn, and no latency is open. -/
def State.withFetchWord (s : State) (nbits w : Nat) : State :=
  let place := fun (m : Memory × Addr) (b : Byte) => (m.1.write m.2.toNat b, m.2 + 1)
  let m := ((tableBytes nbits w).foldl place (s.mem, s.pc)).1
  (((s.setMem m).setClk .run).setInputs []).setLast Last.none

end Sys2Proof.Machine
end

