-- ==== Sys2Proof/Machine/Timing.lean ====
section
/-! DEFINITION. Cycle counts (spec/70_reset_and_hazards.md R377, R378).  They are timing only: no step depends on them and
no state counts them (R341). -/

namespace Sys2Proof.Machine

/-- n of ADC, AND, CMP, EOR, LDA, ORA, SBC by format (R377). -/
def aluCycles : AluSrc → Nat
  | .imm _ => 2
  | .zp _ => 3
  | .zpX _ | .abs _ => 4
  | .absX _ | .absY _ => 5
  | .indX _ | .indY _ => 6

/-- n of ASL, LSR, ROL, ROR, INC, DEC by format (R377). -/
def rmwCycles : RmwPlace → Nat
  | .acc => 2
  | .zp _ => 5
  | .zpX _ | .abs _ => 6
  | .absX _ => 7

/-- n of CPX and CPY by format (R377). -/
def cpCycles : CpSrc → Nat
  | .imm _ => 2
  | .zp _ => 3
  | .abs _ => 4

/-- n of CLB and SEB by format (R377). -/
def bitPlaceCycles : BitPlace → Nat
  | .acc => 2
  | .zp _ => 5

/-- n of BBC and BBS by format (R377). -/
def bitTestCycles : BitPlace → Nat
  | .acc => 4
  | .zp _ => 5

/-- "n: Number of cycles" of the instruction (R377). -/
def cycles : Instr → Nat
  | .lda m | .adc m | .sbc m | .and m | .ora m | .eor m | .cmp m => aluCycles m
  | .ldx (.imm _) | .ldy (.imm _) => 2
  | .ldx (.zp _) | .ldy (.zp _) => 3
  | .ldx (.zpY _) | .ldx (.abs _) | .ldy (.zpX _) | .ldy (.abs _) => 4
  | .ldx (.absY _) | .ldy (.absX _) => 5
  | .ldm _ _ => 4
  | .sta (.zp _) | .stx (.zp _) | .sty (.zp _) => 4
  | .sta (.zpX _) | .sta (.abs _) | .stx (.zpY _) | .stx (.abs _) | .sty (.zpX _) | .sty (.abs _) => 5
  | .sta (.absX _) | .sta (.absY _) => 6
  | .sta (.indX _) | .sta (.indY _) => 7
  | .tax | .tay | .txa | .tya | .tsx | .txs => 2
  | .cpx m | .cpy m => cpCycles m
  | .bit (.zp _) => 3
  | .bit (.abs _) => 4
  | .tst _ => 3
  | .com _ => 5
  | .inc p | .dec p | .asl p | .lsr p | .rol p | .ror p => rmwCycles p
  | .inx | .iny | .dex | .dey => 2
  | .mul _ => 15
  | .div _ => 16
  | .rrf _ => 8
  | .clb _ p | .seb _ p => bitPlaceCycles p
  | .clc | .sec | .cld | .sed | .cli | .sei | .clt | .set | .clv => 2
  | .pha | .php => 3
  | .pla | .plp => 4
  | .nop => 2
  | .jmp (.abs _) => 3
  | .jmp (.ind _) => 5
  | .jmp (.zpInd _) => 4
  | .jsr (.abs _) => 6
  | .jsr (.sp _) => 5
  | .jsr (.zpInd _) => 7
  | .rts | .rti => 6
  | .bra _ => 4
  | .bcc _ | .bcs _ | .beq _ | .bne _ | .bmi _ | .bpl _ | .bvc _ | .bvs _ => 2
  | .bbc _ p _ | .bbs _ p _ => bitTestCycles p
  | .brk => 7
  | .slw | .fst | .wit | .stp => 2

/-- The byte whose bit BBC or BBS tests. -/
def bitPlaceByte (s : State) : BitPlace → Byte
  | .acc => s.a
  | .zp zz => s.peek (zeroPage zz)

/-- The conditional branch `i` branches in the state `s` (R285, R283, R284). -/
def branches (s : State) : Instr → Bool
  | .bcc _ => !s.ps.c
  | .bcs _ => s.ps.c
  | .bne _ => !s.ps.z
  | .beq _ => s.ps.z
  | .bpl _ => !s.ps.n
  | .bmi _ => s.ps.n
  | .bvc _ => !s.ps.v
  | .bvs _ => s.ps.v
  | .bbc b p _ => !(testBit b (bitPlaceByte s p))
  | .bbs b p _ => testBit b (bitPlaceByte s p)
  | _ => false

/-- What Notes 1 to 4 add to n: 3, 2 or 1 for T = 1, 2 for a branch that occurs (R378). -/
def extraCycles (s : State) (i : Instr) : Nat :=
  match i with
  | .adc _ | .sbc _ | .and _ | .ora _ | .eor _ => if s.ps.t then 3 else 0
  | .lda _ => if s.ps.t then 2 else 0
  | .cmp _ => if s.ps.t then 1 else 0
  | _ => if branches s i then 2 else 0

end Sys2Proof.Machine
end

