-- ==== Sys2Proof/Safety.lean ====
section
/-! DEFINITION. The terms claims are stated in: a run that stops nowhere, a boundary at which the next step is an
instruction, the bytes of an instruction in memory, the stack frame of an event, and which instructions the spec names as
writers of a register, a flag or memory. -/

namespace Sys2Proof.Machine

/-- The run of `n` steps from `s` meets no fault and no refusal. -/
def SafeFor (n : Nat) (s : State) : Prop := ∃ t, core.run n s = .next t

/-- The run from `s` never stops. -/
def Safe (s : State) : Prop := ∀ n, SafeFor n s

/-- It is the CPU's turn: the environment does nothing at this boundary, or nothing more at all. -/
def State.CpuTurn (s : State) : Prop := s.inputs = [] ∨ ∃ rest, s.inputs = .cpu :: rest

/-- The state the CPU acts on when it is its turn: the turn is taken off the list. -/
def State.turn (s : State) : State := s.setInputs s.inputs.tail

/-- The next step is an instruction: it is the CPU's turn, the clock runs, and no interrupt is taken at this boundary
(R9). -/
def State.Ready (s : State) : Prop := s.CpuTurn ∧ s.clk = .run ∧ s.interruptTaken = none

/-- The bytes stand in memory from `a` on, where a fetch may read them (R75). -/
def State.Holds (s : State) : Addr → List Byte → Prop
  | _, [] => True
  | a, b :: bs => a ∉ s.last.written ∧ s.present a = true ∧ s.peek a = b ∧ s.Holds (a + 1) bs

/-- SetNZ (R8): N is bit 7 of the byte, Z is 1 exactly when the byte is 0; every other flag is kept. -/
def PS.withNZ (p : PS) (v : Byte) : PS := { p with n := v.getLsbD 7, z := decide (v = 0) }

/-- The stack address `n` bytes below the one a push uses now (R23, R24). -/
def State.below (s : State) (n : Nat) : Addr := joinAddr s.stackPage (s.s - BitVec.ofNat 8 n)

/-- None of the `n` bytes the coming pushes store to holds the Stack Page Selection Bit. -/
def State.PageKept (s : State) (n : Nat) : Prop :=
  ∀ zp bit r, s.cfg.stackPage = .selectable zp bit r → ∀ m < n, s.below m ≠ zeroPage zp

/-- The coming `n` pushes find memory that takes any byte: it is there, it is not ROM, and it holds no request bit. -/
def State.StackFree (s : State) (n : Nat) : Prop :=
  ∀ m < n, s.writable (s.below m) = true ∧ ∀ k ∈ s.cfg.irqSources, k.request.addr ≠ s.below m

/-- `u` still has the `n` bytes of stack that `t` has above its stack pointer, and nothing delays a read of them. -/
def SameStackTop (t u : State) (n : Nat) : Prop :=
  u.s = t.s ∧ u.cfg = t.cfg ∧ u.stackPage = t.stackPage ∧ u.last.changed = [] ∧
    ∀ m < n, u.byteAt (joinAddr t.stackPage (t.s + BitVec.ofNat 8 (m + 1))) =
      t.byteAt (joinAddr t.stackPage (t.s + BitVec.ofNat 8 (m + 1)))

/-! ### Who writes what, from the spec's lists -/

/-- The seven instructions whose destination T selects (R32); CMP has none. -/
def usesT : Instr → Bool
  | .adc _ | .sbc _ | .and _ | .ora _ | .eor _ | .lda _ => true
  | _ => false

/-- The writers of A (R21). -/
def mayWriteA (s : State) : Instr → Bool
  | .adc _ | .sbc _ | .and _ | .ora _ | .eor _ | .lda _ => !s.ps.t
  | .txa | .tya | .pla | .mul _ | .div _ => true
  | .asl .acc | .lsr .acc | .rol .acc | .ror .acc | .inc .acc | .dec .acc => true
  | .clb _ .acc | .seb _ .acc => true
  | _ => false

/-- The writers of X (R22). -/
def mayWriteX : Instr → Bool
  | .ldx _ | .tax | .tsx | .inx | .dex => true
  | _ => false

/-- The writers of Y (R22). -/
def mayWriteY : Instr → Bool
  | .ldy _ | .tay | .iny | .dey => true
  | _ => false

/-- The writers of S (R23). -/
def mayWriteS : Instr → Bool
  | .txs | .pha | .php | .pla | .plp | .jsr _ | .rts | .rti | .brk | .mul _ | .div _ => true
  | _ => false

/-- The instructions that load PC (R25). -/
def mayWritePc : Instr → Bool
  | .bra _ | .bcc _ | .bcs _ | .beq _ | .bne _ | .bmi _ | .bpl _ | .bvc _ | .bvs _ => true
  | .bbc _ _ _ | .bbs _ _ _ | .jmp _ | .jsr _ | .rts | .rti | .brk => true
  | _ => false

/-- The writers of C (R27). -/
def mayWriteC : Instr → Bool
  | .adc _ | .sbc _ | .cmp _ | .cpx _ | .cpy _ | .asl _ | .lsr _ | .rol _ | .ror _ | .sec | .clc | .plp | .rti => true
  | _ => false

/-- The writers of V (R33). -/
def mayWriteV : Instr → Bool
  | .adc _ | .sbc _ | .bit _ | .clv | .plp | .rti => true
  | _ => false

/-- The writers of T (R32). -/
def mayWriteT : Instr → Bool
  | .set | .clt | .plp | .rti => true
  | _ => false

/-- The writers of D (R30). -/
def mayWriteD : Instr → Bool
  | .sed | .cld | .plp | .rti => true
  | _ => false

/-- The writers of I (R29). -/
def mayWriteI : Instr → Bool
  | .sei | .cli | .plp | .rti | .brk => true
  | _ => false

/-- The writers of N and Z (R36). -/
def mayWriteNZ : Instr → Bool
  | .adc _ | .sbc _ | .and _ | .eor _ | .ora _ | .asl _ | .lsr _ | .rol _ | .ror _ | .bit _ => true
  | .cmp _ | .cpx _ | .cpy _ | .inc _ | .dec _ | .inx | .iny | .dex | .dey | .com _ | .tst _ => true
  | .lda _ | .ldx _ | .ldy _ | .pla | .tax | .tay | .tsx | .txa | .tya | .plp | .rti => true
  | _ => false

/-- The forms that store nothing: with T = 1 the six instructions of `usesT` store to M(X); a form on A stores nothing. -/
def storesNothing (s : State) : Instr → Bool
  | .adc _ | .sbc _ | .and _ | .ora _ | .eor _ | .lda _ => !s.ps.t
  | .asl .acc | .lsr .acc | .rol .acc | .ror .acc | .inc .acc | .dec .acc | .clb _ .acc | .seb _ .acc => true
  | .ldx _ | .ldy _ | .tax | .tay | .txa | .tya | .tsx | .txs => true
  | .cmp _ | .cpx _ | .cpy _ | .bit _ | .tst _ | .inx | .iny | .dex | .dey => true
  | .clc | .sec | .cld | .sed | .cli | .sei | .clt | .set | .clv | .pla | .plp | .nop => true
  | .jmp _ | .rts | .rti | .bra _ | .bcc _ | .bcs _ | .beq _ | .bne _ | .bmi _ | .bpl _ | .bvc _ | .bvs _ => true
  | .bbc _ _ _ | .bbs _ _ _ | .slw | .fst | .wit | .stp => true
  | _ => false

/-- Where a form stores its one byte. -/
inductive StoreDest where
  /-- the effective address of the mode -/
  | at (m : MemMode)
  /-- M(X) (R32) -/
  | firstOperand
  /-- the stack address (R24) -/
  | stack
  deriving DecidableEq, Repr

/-- A form on A stores nothing, a form on memory stores to its effective address. -/
def destOfPlace : Place → Option StoreDest
  | .acc => none
  | .mem m => some (.at m)

/-- Where an instruction stores, if it stores exactly one byte. -/
def storeDest (s : State) : Instr → Option StoreDest
  | .sta d => some (.at (modeOfSta d))
  | .stx d => some (.at (modeOfStx d))
  | .sty d => some (.at (modeOfSty d))
  | .ldm _ zz | .com zz | .rrf zz => some (.at (.zp zz))
  | .clb _ p | .seb _ p => destOfPlace (placeOfBit p)
  | .inc p | .dec p | .asl p | .lsr p | .rol p | .ror p => destOfPlace (placeOfRmw p)
  | .adc _ | .sbc _ | .and _ | .ora _ | .eor _ | .lda _ => if s.ps.t then some .firstOperand else none
  | .pha | .php | .mul _ | .div _ => some .stack
  | _ => none

/-- The address of a destination, computed as the meanings compute it. -/
def destAddr (s : State) : StoreDest → Res Addr
  | .at m => effectiveAddr s m
  | .firstOperand => .next (zeroPage s.x)
  | .stack => .next s.stackAddr

end Sys2Proof.Machine
end

