-- ==== Sys2Proof/Certificates/Slice0/Obligations.lean ====
section
/-! DEFINITION. The statements for the provers.  Each docstring names the rules it formalises; where a clause rests on a
choice of the model or on a decision, deduction or general knowledge that the spec marks as its own, it says so and the
statement's basis is "derived". -/

open Sys2Proof Sys2Proof.Machine

/-! ### Encoding -/

/-- Every instruction a chip has decodes from its encoding, with every operand at every value, whatever follows it (R90 to
R98, R103). -/
def Obligations.DecodeOfEncode : Prop :=
  ∀ (c : Config) (i : Instr) (rest : List Byte), i.wf c = true → decode c (encode i ++ rest) = .ok (i, rest)

/-- Bytes that decode are the encoding of the instruction read from them, which the chip has: no bit of the bytes is
dropped and no two byte sequences give one instruction (R90 to R98, R103). -/
def Obligations.EncodeOfDecode : Prop :=
  ∀ (c : Config) (bytes : List Byte) (i : Instr) (rest : List Byte), decode c bytes = .ok (i, rest) →
    i.wf c = true ∧ encode i ++ rest = bytes

/-- The opcodes that decode to nothing are exactly the 25 of R97 and the options the chip lacks (R96); after any other
opcode every value of every operand byte is legal (R97).  A step at one of them is refused (decision D13: log 13). -/
def Obligations.UnassignedOpcodesAreThoseOfTheMap : Prop :=
  (∀ (c : Config) (op : Byte), lookup c op = none ↔
    op ∈ ([0x04, 0x0C, 0x14, 0x1C, 0x34, 0x52, 0x54, 0x5A, 0x5C, 0x72, 0x74, 0x7A, 0x7C, 0x89, 0x92, 0x9C, 0x9E, 0xD2, 0xD4,
      0xDA, 0xDC, 0xF2, 0xF4, 0xFA, 0xFC] : List Byte) ∨
    (op = 0x42 ∧ c.stp = false) ∨ (op = 0x62 ∧ c.mulDiv = false) ∨
    (op = 0xE2 ∧ c.slwFst = false ∧ c.mulDiv = false)) ∧
  (∀ (c : Config) (op : Byte) (sh : Shape) (b1 b2 : Byte), lookup c op = some sh →
    ∃ i rest, decode c [op, b1, b2] = .ok (i, rest)) ∧
  (∀ (s : State), s.Ready → s.pc ∉ s.last.written → s.present s.pc = true → lookup s.cfg (s.peek s.pc) = none →
    step s = .refused (.unassignedOpcode (s.peek s.pc)))

/-- The source's worked examples of machine code, read from their bytes (R91). -/
def Obligations.WorkedExamplesDecode : Prop :=
  ∀ c : Config,
    decode c [0x18] = .ok (.clc, []) ∧
    decode c [0x2A] = .ok (.rol .acc, []) ∧
    decode c [0xBB] = .ok (.clb 5 .acc, []) ∧
    decode c [0x69, 0xA5] = .ok (.adc (.imm 0xA5), []) ∧
    decode c [0x75, 0x1E] = .ok (.adc (.zpX 0x1E), []) ∧
    decode c [0xB6, 0x02] = .ok (.ldx (.zpY 0x02), []) ∧
    decode c [0x71, 0x1E] = .ok (.adc (.indY 0x1E), []) ∧
    decode c [0x6D, 0x12, 0xAD] = .ok (.adc (.abs 0xAD12), []) ∧
    decode c [0x6C, 0x00, 0x14] = .ok (.jmp (.ind 0x1400), []) ∧
    decode c [0x22, 0xE0] = .ok (.jsr (.sp 0xE0), []) ∧
    decode c [0x90, 0xF2] = .ok (.bcc 0xF2, []) ∧
    decode c [0xB7, 0x04, 0xF1] = .ok (.bbc 5 (.zp 0x04) 0xF1, [])

/-! ### The step -/

/-- When the bytes at PC are those of an instruction the chip has, and no hazard rule speaks against it, the step is `exec` of
it in the state whose PC is past its bytes; then `last`, the draw of free values and the record of interrupts passed over
are brought up to date and nothing else changes (R9, R92; PC's wrap is decision D1, log 16).  `s.turn` is `s` with the CPU's
turn taken off the inputs. -/
def Obligations.StepRunsTheDecodedInstruction : Prop :=
  ∀ (s : State) (i : Instr), s.Ready → i.wf s.cfg = true → s.Holds s.pc (encode i) → hazard s i = none →
    step s = andThen (exec i (s.turn.fetched (encode i).length)) (fun t => .next (settle s.turn i t)) ∧
    (s.turn.fetched (encode i).length).pc = s.pc + BitVec.ofNat 16 (encode i).length ∧
    s.turn = s.setInputs s.inputs.tail ∧
    (∀ t : State, settle s.turn i t =
      ((t.setLast (settle s.turn i t).last).setDraws (s.draws + 1)).setWaiting s.passedOver)

/-! ### Invariants that every step keeps -/

/-- The memory keeps its canonical form under every step: instructions, interrupt entries, and what the environment does, a
reset included. -/
def Obligations.StepKeepsMemoryCanonical : Prop :=
  ∀ s t : State, s.mem.wf = true → step s = .next t → t.mem.wf = true

/-- The memory of the reset state is canonical. -/
def Obligations.ResetMemoryIsCanonical : Prop := State.reset.mem.wf = true

/-- No step of any kind changes a byte of ROM, of either kind of ROM (R71, R361). -/
def Obligations.StepNeverChangesRom : Prop :=
  ∀ (s t : State) (a : Addr), step s = .next t →
    (kindAt s.cfg a = .rom ∨ kindAt s.cfg a = .romIgnoringWrites) → t.byteAt a = s.byteAt a

/-- No step changes the parameters of the chip (R4, R42); no step takes more than the first entry of what the environment will
do; and the request bits recorded as just changed stay request bits of the chip, the forced sources sources of it (R371,
R373; the two records are the model's form of `last`, log 9). -/
def Obligations.StepKeepsTheChip : Prop :=
  ∀ s t : State, step s = .next t →
    t.cfg = s.cfg ∧ (t.inputs = s.inputs ∨ ∃ e, s.inputs = e :: t.inputs) ∧
    ((∀ l ∈ s.last.changed, ∃ k ∈ s.cfg.irqSources, k.request = l) →
      ∀ l ∈ t.last.changed, ∃ k ∈ t.cfg.irqSources, k.request = l) ∧
    ((∀ k ∈ s.last.forced, k ∈ s.cfg.irqSources) → ∀ k ∈ t.last.forced, k ∈ t.cfg.irqSources)

/-! ### Reset -/

/-- What the spec gives the state after reset: I = 1, B = 0 in the byte PHP would push, clk = RUN, no open latency, PC from the
reset vector of the chip (R43, R361; the vector fetch is decision D10, log 12). -/
def Obligations.ResetStateAsSpecified : Prop :=
  State.reset.ps.i = true ∧ testBit 4 (State.reset.ps.toByte State.reset.ps.b) = false ∧ State.reset.clk = .run ∧
  State.reset.last = Last.none ∧
  read16 State.reset State.reset.cfg.vecReset = .next State.reset.pc

/-- A reset of a running machine, in any state: I = 1, the clock runs, no latency is open, the chip and every byte of ROM are
as they were, PC is the 16-bit quantity at the reset vector, the Stack Page Selection Bit has its reset value where one is
specified, and REQ[k] and EN[k] of every source have theirs, each where memory can hold it and no other of these bits stands
at its place with another value (R360, R361, R43; the vector fetch is decision D10, log 12, the reset values of the sources'
bits decision D11, log 31).  Nothing is said of what reset leaves unspecified (log 11). -/
def Obligations.ResetEventGivesTheResetState : Prop :=
  ∀ (s t : State) (rest : List EnvEvent), s.inputs = .reset :: rest → step s = .next t →
    t.ps.i = true ∧ t.clk = .run ∧ t.last = Last.none ∧ t.cfg = s.cfg ∧ t.inputs = rest ∧
    t.pc = joinAddr (t.byteAt (s.cfg.vecReset + 1)) (t.byteAt s.cfg.vecReset) ∧
    (∀ a : Addr, (kindAt s.cfg a = .rom ∨ kindAt s.cfg a = .romIgnoringWrites) → t.byteAt a = s.byteAt a) ∧
    (∀ zp bit r, s.cfg.stackPage = .selectable zp bit (some r) → s.writable (zeroPage zp) = true →
      (∀ k ∈ s.cfg.irqSources, k.request ≠ ⟨zeroPage zp, bit⟩ ∧ k.enable ≠ ⟨zeroPage zp, bit⟩) →
      t.bitAt ⟨zeroPage zp, bit⟩ = r) ∧
    (∀ (l : BitLoc) (x : Bool), s.writable l.addr = true →
      (∃ k ∈ s.cfg.irqSources, (k.request = l ∧ k.requestReset = x) ∨ (k.enable = l ∧ k.enableReset = x)) →
      (∀ k ∈ s.cfg.irqSources, (k.request = l → k.requestReset = x) ∧ (k.enable = l → k.enableReset = x)) →
      t.bitAt l = x)

/-! ### Memory -/

/-- A store that goes through is read back, and changes no other byte (R72). -/
def Obligations.LoadAfterStore : Prop :=
  ∀ (s : State) (a : Addr) (v : Byte), s.mem.wf = true → s.writable a = true → s.storable a v = true →
    store s a v = .next (s.put a v) ∧ (s.put a v).byteAt a = v ∧ ∀ b, b ≠ a → (s.put a v).byteAt b = s.byteAt b

/-- Where accesses stop: an absent address is neither read nor written, ROM of the refusing kind is not written, ROM of the
ignoring kind stays as it is, and no store sets a request bit that is 0 (R71, R324; decisions D8 and D20, logs 14 and
15). -/
def Obligations.AccessesTheMapForbids : Prop :=
  ∀ (s : State) (a : Addr) (v : Byte),
    (kindAt s.cfg a = .absent → load s a = .fault (.absentAddress a) ∧ store s a v = .fault (.absentAddress a)) ∧
    (kindAt s.cfg a = .rom → store s a v = .refused (.romWrite a)) ∧
    (kindAt s.cfg a = .romIgnoringWrites → store s a v = .next s) ∧
    (∀ k ∈ s.cfg.irqSources, k.request.addr = a → s.bitAt k.request = false → testBit k.request.bit v = true →
      (kindAt s.cfg a = .ram ∨ kindAt s.cfg a = .sfr) → store s a v = .refused (.requestBitSetBySoftware a))

/-! ### Addressing -/

/-- The effective address of every memory addressing mode (R123 to R128, R131, R132; the wrap of the 16-bit sums and of the
pointer's second byte are decisions D2 and D4, log 16).  Zero-page sums are taken modulo 0x100 and stay in the zero
page. -/
def Obligations.EffectiveAddresses : Prop :=
  ∀ (s : State) (zz : Byte) (a : Addr),
    effectiveAddr s (.zp zz) = .next (BitVec.ofNat 16 zz.toNat) ∧
    effectiveAddr s (.zpX zz) = .next (BitVec.ofNat 16 ((zz.toNat + s.x.toNat) % 0x100)) ∧
    effectiveAddr s (.zpY zz) = .next (BitVec.ofNat 16 ((zz.toNat + s.y.toNat) % 0x100)) ∧
    effectiveAddr s (.abs a) = .next a ∧
    effectiveAddr s (.absX a) = .next (BitVec.ofNat 16 (a.toNat + s.x.toNat)) ∧
    effectiveAddr s (.absY a) = .next (BitVec.ofNat 16 (a.toNat + s.y.toNat)) ∧
    (∀ lo hi : Byte,
      load s (BitVec.ofNat 16 ((zz.toNat + s.x.toNat) % 0x100)) = .next lo →
      load s (BitVec.ofNat 16 ((zz.toNat + s.x.toNat + 1) % 0x100)) = .next hi →
      effectiveAddr s (.indX zz) = .next (BitVec.ofNat 16 (hi.toNat * 0x100 + lo.toNat))) ∧
    (∀ lo hi : Byte,
      load s (BitVec.ofNat 16 zz.toNat) = .next lo → load s (BitVec.ofNat 16 ((zz.toNat + 1) % 0x100)) = .next hi →
      effectiveAddr s (.indY zz) = .next (BitVec.ofNat 16 (hi.toNat * 0x100 + lo.toNat + s.y.toNat)))

/-! ### Load, store, transfer (spec/41_load_store_transfer.md) -/

/-- LDA in every format: to A when T = 0, to M(X) with A unchanged when T = 1; N and Z from the byte; opcodes and
cycle counts as the rule lists them (R150). -/
def Obligations.LdaLoads : Prop :=
  (∀ m, encode (.lda m) = encodeAlu 0xA9 0xA5 0xB5 0xAD 0xBD 0xB9 0xA1 0xB1 m) ∧
  (∀ m s, cycles (.lda m) + extraCycles s (.lda m) = aluCycles m + (if s.ps.t then 2 else 0)) ∧
  ∀ (m : AluSrc) (s : State) (v : Byte), readSource s (sourceOfAlu m) = .next v →
    (s.ps.t = false → exec (.lda m) s = .next ((s.setA v).setPs (s.ps.withNZ v))) ∧
    (s.ps.t = true → s.storable (zeroPage s.x) v = true →
      exec (.lda m) s = .next ((s.put (zeroPage s.x) v).setPs (s.ps.withNZ v)))

/-- LDX and LDY in every format: the register and N and Z from the byte, whatever T is; opcodes and cycle
counts as the rules list them (R151, R152). -/
def Obligations.LdxLdyLoad : Prop :=
  (∀ nn zz a, encode (.ldx (.imm nn)) = [0xA2, nn] ∧ encode (.ldx (.zp zz)) = [0xA6, zz] ∧
    encode (.ldx (.zpY zz)) = [0xB6, zz] ∧ encode (.ldx (.abs a)) = [0xAE, loByte a, hiByte a] ∧
    encode (.ldx (.absY a)) = [0xBE, loByte a, hiByte a] ∧
    encode (.ldy (.imm nn)) = [0xA0, nn] ∧ encode (.ldy (.zp zz)) = [0xA4, zz] ∧
    encode (.ldy (.zpX zz)) = [0xB4, zz] ∧ encode (.ldy (.abs a)) = [0xAC, loByte a, hiByte a] ∧
    encode (.ldy (.absX a)) = [0xBC, loByte a, hiByte a] ∧
    [cycles (.ldx (.imm nn)), cycles (.ldx (.zp zz)), cycles (.ldx (.zpY zz)), cycles (.ldx (.abs a)),
      cycles (.ldx (.absY a))] = [2, 3, 4, 4, 5] ∧
    [cycles (.ldy (.imm nn)), cycles (.ldy (.zp zz)), cycles (.ldy (.zpX zz)), cycles (.ldy (.abs a)),
      cycles (.ldy (.absX a))] = [2, 3, 4, 4, 5]) ∧
  (∀ (m : LdxSrc) (s : State) (v : Byte), readSource s (sourceOfLdx m) = .next v →
    exec (.ldx m) s = .next ((s.setX v).setPs (s.ps.withNZ v))) ∧
  (∀ (m : LdySrc) (s : State) (v : Byte), readSource s (sourceOfLdy m) = .next v →
    exec (.ldy m) s = .next ((s.setY v).setPs (s.ps.withNZ v)))

/-- STA, STX and STY in every format: the register at the effective address and nothing else, no flag and whatever T is;
opcodes and cycle counts as the rules list them (R154 to R156). -/
def Obligations.StoresStore : Prop :=
  (∀ zz a, encode (.sta (.zp zz)) = [0x85, zz] ∧ encode (.sta (.zpX zz)) = [0x95, zz] ∧
    encode (.sta (.abs a)) = [0x8D, loByte a, hiByte a] ∧ encode (.sta (.absX a)) = [0x9D, loByte a, hiByte a] ∧
    encode (.sta (.absY a)) = [0x99, loByte a, hiByte a] ∧ encode (.sta (.indX zz)) = [0x81, zz] ∧
    encode (.sta (.indY zz)) = [0x91, zz] ∧
    encode (.stx (.zp zz)) = [0x86, zz] ∧ encode (.stx (.zpY zz)) = [0x96, zz] ∧
    encode (.stx (.abs a)) = [0x8E, loByte a, hiByte a] ∧
    encode (.sty (.zp zz)) = [0x84, zz] ∧ encode (.sty (.zpX zz)) = [0x94, zz] ∧
    encode (.sty (.abs a)) = [0x8C, loByte a, hiByte a] ∧
    [cycles (.sta (.zp zz)), cycles (.sta (.zpX zz)), cycles (.sta (.abs a)), cycles (.sta (.absX a)),
      cycles (.sta (.absY a)), cycles (.sta (.indX zz)), cycles (.sta (.indY zz))] = [4, 5, 5, 6, 6, 7, 7] ∧
    [cycles (.stx (.zp zz)), cycles (.stx (.zpY zz)), cycles (.stx (.abs a)), cycles (.sty (.zp zz)),
      cycles (.sty (.zpX zz)), cycles (.sty (.abs a))] = [4, 5, 5, 4, 5, 5]) ∧
  (∀ (d : StaDst) (s : State) (a : Addr), effectiveAddr s (modeOfSta d) = .next a → s.storable a s.a = true →
    exec (.sta d) s = .next (s.put a s.a)) ∧
  (∀ (d : StxDst) (s : State) (a : Addr), effectiveAddr s (modeOfStx d) = .next a → s.storable a s.x = true →
    exec (.stx d) s = .next (s.put a s.x)) ∧
  (∀ (d : StyDst) (s : State) (a : Addr), effectiveAddr s (modeOfSty d) = .next a → s.storable a s.y = true →
    exec (.sty d) s = .next (s.put a s.y))

/-- LDM: the immediate at the zero-page address, no register and no flag (R153; the operand order is the spec's general
knowledge K3, log 17). -/
def Obligations.LdmStoresTheImmediate : Prop :=
  ∀ (nn zz : Byte) (s : State), encode (.ldm nn zz) = [0x3C, nn, zz] ∧
    (s.storable (zeroPage zz) nn = true → exec (.ldm nn zz) s = .next (s.put (zeroPage zz) nn))

/-- The six transfers, from every state: the destination takes the source's byte; N and Z follow it, but TXS writes no flag
(R157 to R162; the flag rows are the spec's general knowledge K2, log 17). -/
def Obligations.TransfersCopy : Prop :=
  ∀ s : State,
    exec .tax s = .next ((s.setX s.a).setPs (s.ps.withNZ s.a)) ∧
    exec .tay s = .next ((s.setY s.a).setPs (s.ps.withNZ s.a)) ∧
    exec .txa s = .next ((s.setA s.x).setPs (s.ps.withNZ s.x)) ∧
    exec .tya s = .next ((s.setA s.y).setPs (s.ps.withNZ s.y)) ∧
    exec .tsx s = .next ((s.setX s.s).setPs (s.ps.withNZ s.s)) ∧
    exec .txs s = .next (s.setS s.x)

/-! ### Arithmetic and logic (spec/42_arithmetic_logic.md) -/

/-- ADC in binary mode, in every format and for both settings of T: the result is a + M + C modulo 0x100, C is the carry out
of the unsigned sum, V is 1 exactly when the signed sum leaves -128 to +127, N and Z follow the result; A is neither read
nor written when T = 1; opcodes and cycle counts as the rule lists them (R180). -/
def Obligations.AdcBinaryAddsWithCarry : Prop :=
  (∀ m, encode (.adc m) = encodeAlu 0x69 0x65 0x75 0x6D 0x7D 0x79 0x61 0x71 m) ∧
  (∀ m s, cycles (.adc m) + extraCycles s (.adc m) = aluCycles m + (if s.ps.t then 3 else 0)) ∧
  ∀ (m : AluSrc) (s : State) (a v : Byte), s.ps.d = false → readSource s (sourceOfAlu m) = .next v → op1 s = .next a →
    let c : Nat := if s.ps.c then 1 else 0
    let r : Byte := BitVec.ofNat 8 ((a.toNat + v.toNat + c) % 0x100)
    let p : PS := { s.ps.withNZ r with
      c := decide (0x100 ≤ a.toNat + v.toNat + c)
      v := decide (a.toInt + v.toInt + (c : Int) < -128 ∨ 127 < a.toInt + v.toInt + (c : Int)) }
    (s.ps.t = false → a = s.a ∧ exec (.adc m) s = .next ((s.setA r).setPs p)) ∧
    (s.ps.t = true → s.storable (zeroPage s.x) r = true →
      exec (.adc m) s = .next ((s.put (zeroPage s.x) r).setPs p))

/-- SBC in binary mode, in every format and for both settings of T: the result is a - M - (1 - C) modulo 0x100, C is 1
exactly when there is no borrow, V is 1 exactly when the signed difference leaves -128 to +127, N and Z follow the result
(R181; the flag row is the spec's derivation and some opcodes its general knowledge K1, log 17). -/
def Obligations.SbcBinarySubtractsWithBorrow : Prop :=
  ∀ (m : AluSrc) (s : State) (a v : Byte), s.ps.d = false → readSource s (sourceOfAlu m) = .next v → op1 s = .next a →
    let b : Nat := if s.ps.c then 0 else 1
    let r : Byte := BitVec.ofNat 8 ((a.toNat + 0x200 - v.toNat - b) % 0x100)
    let p : PS := { s.ps.withNZ r with
      c := decide (v.toNat + b ≤ a.toNat)
      v := decide (a.toInt - v.toInt - (b : Int) < -128 ∨ 127 < a.toInt - v.toInt - (b : Int)) }
    (s.ps.t = false → a = s.a ∧ exec (.sbc m) s = .next ((s.setA r).setPs p)) ∧
    (s.ps.t = true → s.storable (zeroPage s.x) r = true →
      exec (.sbc m) s = .next ((s.put (zeroPage s.x) r).setPs p))

/-- ADC and SBC in decimal mode on valid BCD operands, in every format and for both settings of T: the result is valid BCD
and, read as two digits with C as the hundreds, is the exact decimal sum or difference; it goes to A, or to M(X) when T = 1;
N, V and Z may be anything (log 5), every other flag is kept (R182; the digit format is the spec's general knowledge K4, log
17). -/
def Obligations.DecimalModeAddsAndSubtracts : Prop :=
  ∀ (m : AluSrc) (s : State) (a v : Byte), s.ps.d = true → readSource s (sourceOfAlu m) = .next v → op1 s = .next a →
    validBcd a = true → validBcd v = true →
    (∃ (r : Byte) (p : PS), p = { s.ps with c := p.c, n := p.n, v := p.v, z := p.z } ∧ validBcd r = true ∧
      decOf r + 100 * (if p.c then 1 else 0) = decOf a + decOf v + (if s.ps.c then 1 else 0) ∧
      (s.ps.t = false → a = s.a ∧ exec (.adc m) s = .next ((s.setA r).setPs p)) ∧
      (s.ps.t = true → s.storable (zeroPage s.x) r = true →
        exec (.adc m) s = .next ((s.put (zeroPage s.x) r).setPs p))) ∧
    (∃ (r : Byte) (p : PS), p = { s.ps with c := p.c, n := p.n, v := p.v, z := p.z } ∧ validBcd r = true ∧
      decOf r + decOf v + (if s.ps.c then 0 else 1) = decOf a + 100 * (if p.c then 0 else 1) ∧
      (s.ps.t = false → a = s.a ∧ exec (.sbc m) s = .next ((s.setA r).setPs p)) ∧
      (s.ps.t = true → s.storable (zeroPage s.x) r = true →
        exec (.sbc m) s = .next ((s.put (zeroPage s.x) r).setPs p)))

/-- AND and ORA in every format and for both settings of T: the bitwise result to A or to M(X), N and Z from it, C and V
kept; opcodes and cycle counts as the rules list them (R183, R184). -/
def Obligations.AndOraCombine : Prop :=
  (∀ m, encode (.and m) = encodeAlu 0x29 0x25 0x35 0x2D 0x3D 0x39 0x21 0x31 m ∧
    encode (.ora m) = encodeAlu 0x09 0x05 0x15 0x0D 0x1D 0x19 0x01 0x11 m ∧
    ∀ s, cycles (.and m) + extraCycles s (.and m) = aluCycles m + (if s.ps.t then 3 else 0) ∧
      cycles (.ora m) + extraCycles s (.ora m) = aluCycles m + (if s.ps.t then 3 else 0)) ∧
  ∀ (m : AluSrc) (s : State) (a v : Byte), readSource s (sourceOfAlu m) = .next v → op1 s = .next a →
    (s.ps.t = false → a = s.a ∧
      exec (.and m) s = .next ((s.setA (a &&& v)).setPs (s.ps.withNZ (a &&& v))) ∧
      exec (.ora m) s = .next ((s.setA (a ||| v)).setPs (s.ps.withNZ (a ||| v)))) ∧
    (s.ps.t = true → s.storable (zeroPage s.x) (a &&& v) = true →
      exec (.and m) s = .next ((s.put (zeroPage s.x) (a &&& v)).setPs (s.ps.withNZ (a &&& v)))) ∧
    (s.ps.t = true → s.storable (zeroPage s.x) (a ||| v) = true →
      exec (.ora m) s = .next ((s.put (zeroPage s.x) (a ||| v)).setPs (s.ps.withNZ (a ||| v))))

/-- EOR in every format and for both settings of T (R185; the opcode of EOR IMM is the spec's general knowledge K1, log
17). -/
def Obligations.EorCombines : Prop :=
  ∀ (m : AluSrc) (s : State) (a v : Byte), readSource s (sourceOfAlu m) = .next v → op1 s = .next a →
    (s.ps.t = false → a = s.a ∧ exec (.eor m) s = .next ((s.setA (a ^^^ v)).setPs (s.ps.withNZ (a ^^^ v)))) ∧
    (s.ps.t = true → s.storable (zeroPage s.x) (a ^^^ v) = true →
      exec (.eor m) s = .next ((s.put (zeroPage s.x) (a ^^^ v)).setPs (s.ps.withNZ (a ^^^ v))))

/-- CMP, CPX and CPY in every format: C is 1 exactly when the register (M(X) for CMP with T = 1) is at least M, Z exactly when
they are equal, N is bit 7 of the difference, V and everything else are kept; opcodes and cycle counts as the rules list
them (R186 to R188; that C is 1 when no borrow occurs is the spec's derivation from R27, log 36). -/
def Obligations.ComparesSetFlags : Prop :=
  (∀ m, encode (.cmp m) = encodeAlu 0xC9 0xC5 0xD5 0xCD 0xDD 0xD9 0xC1 0xD1 m ∧
    ∀ s, cycles (.cmp m) + extraCycles s (.cmp m) = aluCycles m + (if s.ps.t then 1 else 0)) ∧
  (∀ nn zz a, encode (.cpx (.imm nn)) = [0xE0, nn] ∧ encode (.cpx (.zp zz)) = [0xE4, zz] ∧
    encode (.cpx (.abs a)) = [0xEC, loByte a, hiByte a] ∧
    encode (.cpy (.imm nn)) = [0xC0, nn] ∧ encode (.cpy (.zp zz)) = [0xC4, zz] ∧
    encode (.cpy (.abs a)) = [0xCC, loByte a, hiByte a] ∧
    [cycles (.cpx (.imm nn)), cycles (.cpx (.zp zz)), cycles (.cpx (.abs a))] = [2, 3, 4] ∧
    [cycles (.cpy (.imm nn)), cycles (.cpy (.zp zz)), cycles (.cpy (.abs a))] = [2, 3, 4]) ∧
  (∀ (m : AluSrc) (s : State) (a v : Byte), readSource s (sourceOfAlu m) = .next v → op1 s = .next a →
    (s.ps.t = false → a = s.a) ∧
    exec (.cmp m) s = .next (s.setPs { s.ps with
      c := decide (v.toNat ≤ a.toNat), z := decide (a = v)
      n := decide (0x80 ≤ (a.toNat + 0x100 - v.toNat) % 0x100) })) ∧
  (∀ (m : CpSrc) (s : State) (v : Byte), readSource s (sourceOfCp m) = .next v →
    exec (.cpx m) s = .next (s.setPs { s.ps with
      c := decide (v.toNat ≤ s.x.toNat), z := decide (s.x = v)
      n := decide (0x80 ≤ (s.x.toNat + 0x100 - v.toNat) % 0x100) }) ∧
    exec (.cpy m) s = .next (s.setPs { s.ps with
      c := decide (v.toNat ≤ s.y.toNat), z := decide (s.y = v)
      n := decide (0x80 ≤ (s.y.toNat + 0x100 - v.toNat) % 0x100) }))

/-- BIT in both formats: N and V are bits 7 and 6 of the byte, Z is 1 exactly when A and the byte share no bit; nothing
else changes, whatever T is; opcodes and cycle counts as the rule lists them (R189). -/
def Obligations.BitTestsAgainstA : Prop :=
  (∀ zz a, encode (.bit (.zp zz)) = [0x24, zz] ∧ encode (.bit (.abs a)) = [0x2C, loByte a, hiByte a] ∧
    cycles (.bit (.zp zz)) = 3 ∧ cycles (.bit (.abs a)) = 4) ∧
  ∀ (m : BitSrc) (s : State) (v : Byte), readSource s (sourceOfBit m) = .next v →
    exec (.bit m) s = .next (s.setPs { s.ps with n := v.getLsbD 7, v := v.getLsbD 6, z := decide (s.a &&& v = 0) })

/-- TST, COM and RRF on a zero-page byte: TST sets N and Z from it; COM stores its complement (which adds up to 0xFF with it)
and sets N and Z; RRF stores it rotated by four bits, changes no flag, and done twice restores it (R190, R191, R224; flag
rows are general knowledge K2, log 17). -/
def Obligations.TstComRrf : Prop :=
  ∀ (zz : Byte) (s : State), s.present (zeroPage zz) = true →
    let v := s.peek (zeroPage zz)
    exec (.tst zz) s = .next (s.setPs (s.ps.withNZ v)) ∧
    (∀ r : Byte, r.toNat + v.toNat = 0xFF → s.storable (zeroPage zz) r = true →
      exec (.com zz) s = .next ((s.put (zeroPage zz) r).setPs (s.ps.withNZ r))) ∧
    (s.storable (zeroPage zz) (v.rotateRight 4) = true →
      exec (.rrf zz) s = .next (s.put (zeroPage zz) (v.rotateRight 4))) ∧
    (v.rotateRight 4).rotateRight 4 = v

/-- INC and DEC on A and on memory, in every format, and INX, INY, DEX and DEY: one more or one less modulo 0x100, N and Z from
the result, C and V kept (R192 to R197; INC A's opcode and the flag rows of the index registers are general knowledge K1 and
K2, log 17). -/
def Obligations.IncrementsAndDecrementsCount : Prop :=
  (∀ s : State,
    exec (.inc .acc) s = .next ((s.setA (s.a + 1)).setPs (s.ps.withNZ (s.a + 1))) ∧
    exec (.dec .acc) s = .next ((s.setA (s.a - 1)).setPs (s.ps.withNZ (s.a - 1))) ∧
    exec .inx s = .next ((s.setX (s.x + 1)).setPs (s.ps.withNZ (s.x + 1))) ∧
    exec .iny s = .next ((s.setY (s.y + 1)).setPs (s.ps.withNZ (s.y + 1))) ∧
    exec .dex s = .next ((s.setX (s.x - 1)).setPs (s.ps.withNZ (s.x - 1))) ∧
    exec .dey s = .next ((s.setY (s.y - 1)).setPs (s.ps.withNZ (s.y - 1)))) ∧
  (∀ (p : RmwPlace) (m : MemMode) (s : State) (a : Addr), placeOfRmw p = .mem m → effectiveAddr s m = .next a →
    s.present a = true →
    (s.storable a (s.peek a + 1) = true →
      exec (.inc p) s = .next ((s.put a (s.peek a + 1)).setPs (s.ps.withNZ (s.peek a + 1)))) ∧
    (s.storable a (s.peek a - 1) = true →
      exec (.dec p) s = .next ((s.put a (s.peek a - 1)).setPs (s.ps.withNZ (s.peek a - 1)))))

/-- MUL: the pushed byte and the new A are the high and low byte of the exact unsigned product of A and M(zz+X); no flag
changes (R198; unsigned operands are general knowledge K5, log 17, S's wrap is decision D3, log 16). -/
def Obligations.MulPushesHighKeepsLow : Prop :=
  ∀ (zz : Byte) (s : State) (v : Byte), readSource s (.mem (.zpX zz)) = .next v →
    ∃ hi lo : Byte, hi.toNat * 0x100 + lo.toNat = s.a.toNat * v.toNat ∧
      (s.storable s.stackAddr hi = true → exec (.mul zz) s = .next ((s.pushed hi).setA lo))

/-- DIV where it is defined: with the divisor d = A and the dividend n in the zero page, A becomes q and the complement of r is
pushed, where n = q d + r and r < d; no flag changes (R199; unsigned operands and flags are general knowledge K5 and K2,
log 17; that the dividend's high byte comes from the next address modulo 0x100, and S's wrap, are decisions D4 and D3, log
16). -/
def Obligations.DivGivesQuotientAndRemainder : Prop :=
  ∀ (zz : Byte) (s : State) (n : Addr) (q r : Byte), readZp16 s (zz + s.x) = .next n →
    n.toNat = q.toNat * s.a.toNat + r.toNat → r.toNat < s.a.toNat →
    s.storable s.stackAddr (r ^^^ 0xFF) = true →
    exec (.div zz) s = .next ((s.pushed (r ^^^ 0xFF)).setA q)

/-- Undefined results do not stop the machine.  A decimal ADC or SBC on operands that are not valid BCD stores some byte and
writes C, N, V and Z with some values, and keeps every other flag; DIV by zero, or with a quotient above 0xFF, pushes some
byte, leaves some byte in A, takes S down by one and changes no flag (R182, R199; decisions D14 and D15: logs 6 and
7; the wraps of DIV's pointer and of S are decisions D4 and D3, log 16). -/
def Obligations.UndefinedResultsStillRun : Prop :=
  (∀ (m : AluSrc) (s : State) (a v : Byte), s.ps.d = true → readSource s (sourceOfAlu m) = .next v → op1 s = .next a →
    ∃ (ra rs : Byte) (pa ps : PS),
      pa = { s.ps with c := pa.c, n := pa.n, v := pa.v, z := pa.z } ∧
      ps = { s.ps with c := ps.c, n := ps.n, v := ps.v, z := ps.z } ∧
      (s.ps.t = false → exec (.adc m) s = .next ((s.setA ra).setPs pa) ∧ exec (.sbc m) s = .next ((s.setA rs).setPs ps)) ∧
      (s.ps.t = true → s.storable (zeroPage s.x) ra = true →
        exec (.adc m) s = .next ((s.put (zeroPage s.x) ra).setPs pa)) ∧
      (s.ps.t = true → s.storable (zeroPage s.x) rs = true →
        exec (.sbc m) s = .next ((s.put (zeroPage s.x) rs).setPs ps))) ∧
  (∀ (zz : Byte) (s : State) (n : Addr), readZp16 s (zz + s.x) = .next n →
    (s.a = 0 ∨ 0xFF < n.toNat / s.a.toNat) →
    (∀ b : Byte, s.storable s.stackAddr b = true) →
    ∃ q b : Byte, exec (.div zz) s = .next ((s.pushed b).setA q))

/-! ### Shifts, rotates, bits (spec/43_shift_rotate_bit.md) -/

/-- ASL and LSR on A and on memory, in every format: ASL doubles modulo 0x100 with bit 7 to C; LSR halves with bit 0 to C and
N = 0; Z from the result, V kept; opcodes and cycle counts as the rules list them (R220, R221). -/
def Obligations.AslLsrShift : Prop :=
  (∀ p, encode (.asl p) = encodeRmw 0x0A 0x06 0x16 0x0E 0x1E p ∧ encode (.lsr p) = encodeRmw 0x4A 0x46 0x56 0x4E 0x5E p ∧
    cycles (.asl p) = rmwCycles p ∧ cycles (.lsr p) = rmwCycles p) ∧
  ∀ (v rl rr : Byte) (s : State), rl.toNat = 2 * v.toNat % 0x100 → rr.toNat = v.toNat / 2 →
    let pl : PS := { s.ps.withNZ rl with c := decide (0x80 ≤ v.toNat) }
    let pr : PS := { s.ps with n := false, z := decide (rr = 0), c := decide (v.toNat % 2 = 1) }
    (v = s.a → exec (.asl .acc) s = .next ((s.setA rl).setPs pl) ∧ exec (.lsr .acc) s = .next ((s.setA rr).setPs pr)) ∧
    (∀ (p : RmwPlace) (m : MemMode) (a : Addr), placeOfRmw p = .mem m → effectiveAddr s m = .next a →
      load s a = .next v →
      (s.storable a rl = true → exec (.asl p) s = .next ((s.put a rl).setPs pl)) ∧
      (s.storable a rr = true → exec (.lsr p) s = .next ((s.put a rr).setPs pr)))

/-- ROL and ROR on A and on memory, in every format: the nine bits C : v rotate by one; N and Z from the result (R222, R223;
flag rows and some opcodes are general knowledge K1 and K2, log 17). -/
def Obligations.RolRorRotateNineBits : Prop :=
  ∀ (v rl rr : Byte) (cl cr : Bool) (s : State),
    BitVec.ofBool cl ++ rl = (BitVec.ofBool s.ps.c ++ v).rotateLeft 1 →
    BitVec.ofBool cr ++ rr = (BitVec.ofBool s.ps.c ++ v).rotateRight 1 →
    let pl : PS := { s.ps.withNZ rl with c := cl }
    let pr : PS := { s.ps.withNZ rr with c := cr }
    (v = s.a → exec (.rol .acc) s = .next ((s.setA rl).setPs pl) ∧ exec (.ror .acc) s = .next ((s.setA rr).setPs pr)) ∧
    (∀ (p : RmwPlace) (m : MemMode) (a : Addr), placeOfRmw p = .mem m → effectiveAddr s m = .next a →
      load s a = .next v →
      (s.storable a rl = true → exec (.rol p) s = .next ((s.put a rl).setPs pl)) ∧
      (s.storable a rr = true → exec (.ror p) s = .next ((s.put a rr).setPs pr)))

/-- CLB and SEB on A and on a zero-page byte: the named bit becomes 0 or 1, every other bit is as it was, and no flag changes
(R225, R226; flag rows are general knowledge K2, log 17). -/
def Obligations.ClbSebChangeOneBit : Prop :=
  ∀ (b : BitNo) (v rc rs : Byte) (s : State),
    (∀ j : Nat, j < 8 → rc.getLsbD j = (v.getLsbD j && decide (j ≠ b.toNat))) →
    (∀ j : Nat, j < 8 → rs.getLsbD j = (v.getLsbD j || decide (j = b.toNat))) →
    (v = s.a → exec (.clb b .acc) s = .next (s.setA rc) ∧ exec (.seb b .acc) s = .next (s.setA rs)) ∧
    (∀ zz : Byte, load s (zeroPage zz) = .next v →
      (s.storable (zeroPage zz) rc = true → exec (.clb b (.zp zz)) s = .next (s.put (zeroPage zz) rc)) ∧
      (s.storable (zeroPage zz) rs = true → exec (.seb b (.zp zz)) s = .next (s.put (zeroPage zz) rs)))

/-! ### Flags, stack, NOP (spec/44_flag_stack_nop.md) -/

/-- The nine flag instructions write their one flag, and NOP nothing, from every state (R240 to R248, R253; NOP's flag row is
general knowledge K2, log 17). -/
def Obligations.FlagInstructionsWriteOneFlag : Prop :=
  ∀ s : State,
    exec .clc s = .next (s.setPs { s.ps with c := false }) ∧ exec .sec s = .next (s.setPs { s.ps with c := true }) ∧
    exec .cld s = .next (s.setPs { s.ps with d := false }) ∧ exec .sed s = .next (s.setPs { s.ps with d := true }) ∧
    exec .cli s = .next (s.setPs { s.ps with i := false }) ∧ exec .sei s = .next (s.setPs { s.ps with i := true }) ∧
    exec .clt s = .next (s.setPs { s.ps with t := false }) ∧ exec .set s = .next (s.setPs { s.ps with t := true }) ∧
    exec .clv s = .next (s.setPs { s.ps with v := false }) ∧ exec .nop s = .next s

/-- PHA pushes A and PHP the flags N V T 0 D I Z C as a byte, then S decreases by one modulo 0x100 in its page, and no flag
changes.  PLA and PLP increase S by one modulo 0x100, then the byte there goes to A, with N and Z from it, or to the seven
stored flags, its bit 4 discarded.  On a legal chip the stack address lies in page 0 or page 1 (R249 to R252, R23, R24, R5;
flag rows are general knowledge K2, S's wrap is decision D3 and bit 4 the spec's derivation U14, logs 16 to 18). -/
def Obligations.StackInstructionsPushAndPull : Prop :=
  (∀ (s : State) (f : Byte),
    (∀ j : Nat, j < 8 → f.getLsbD j =
      [s.ps.c, s.ps.z, s.ps.i, s.ps.d, false, s.ps.t, s.ps.v, s.ps.n].getD j false) →
    (s.storable (joinAddr s.stackPage s.s) s.a = true →
      exec .pha s = .next ((s.put (joinAddr s.stackPage s.s) s.a).setS (s.s - 1))) ∧
    (s.storable (joinAddr s.stackPage s.s) f = true →
      exec .php s = .next ((s.put (joinAddr s.stackPage s.s) f).setS (s.s - 1)))) ∧
  (∀ s : State, s.present (joinAddr s.stackPage (s.s + 1)) = true →
    let v := s.peek (joinAddr s.stackPage (s.s + 1))
    exec .pla s = .next (((s.setS (s.s + 1)).setA v).setPs (s.ps.withNZ v)) ∧
    exec .plp s = .next ((s.setS (s.s + 1)).setPs
      { n := v.getLsbD 7, v := v.getLsbD 6, t := v.getLsbD 5, d := v.getLsbD 3, i := v.getLsbD 2, z := v.getLsbD 1,
        c := v.getLsbD 0 })) ∧
  (∀ s : State, s.cfg.legal = true → s.stackAddr.toNat < 0x200)

/-- PHP and then, at any later state with the stack as PHP left it, PLP restores all seven flags and S (R26, R250, R252;
S's wrap is decision D3, log 16). -/
def Obligations.PlpUndoesPhp : Prop :=
  ∀ s t u : State, s.mem.wf = true → s.StackFree 1 → s.PageKept 1 → exec .php s = .next t → SameStackTop t u 1 →
    exec .plp u = .next ((u.setS s.s).setPs s.ps)

/-! ### Control transfer (spec/45_control_transfer.md) -/

/-- JMP: ABS to the operand; IND to the 16-bit quantity at the operand, low byte first, when its low byte is not 0xFF, and
refused when it is; ZP,IND to the 16-bit quantity in the zero page, whose high byte comes from the next address modulo
0x100.  Nothing but PC changes (R270, R133, R134, R374; the wrap is decision D4, log 16). -/
def Obligations.JmpLoadsPc : Prop :=
  ∀ (s : State) (a : Addr) (zz lo hi : Byte),
    exec (.jmp (.abs a)) s = .next (s.setPc a) ∧
    (loByte a ≠ 0xFF → load s a = .next lo → load s (a + 1) = .next hi →
      exec (.jmp (.ind a)) s = .next (s.setPc (joinAddr hi lo))) ∧
    (loByte a = 0xFF → exec (.jmp (.ind a)) s = .refused (.jmpIndirectPageEnd a)) ∧
    (load s (zeroPage zz) = .next lo → load s (zeroPage (zz + 1)) = .next hi →
      exec (.jmp (.zpInd zz)) s = .next (s.setPc (joinAddr hi lo)))

/-- JSR in every format: the address one before the next instruction is pushed, high byte first, and then PC is loaded; a
ZP,IND pointer is read after the pushes, its high byte from the next address modulo 0x100 (R271, R139; that wrap, S's and PC's
are decisions D4, D3 and D1, log 16). -/
def Obligations.JsrPushesAndJumps : Prop :=
  ∀ (s : State) (a : Addr) (ll zz lo hi : Byte),
    let s1 := s.pushed (hiByte (s.pc - 1))
    let s2 := s1.pushed (loByte (s.pc - 1))
    s.storable s.stackAddr (hiByte (s.pc - 1)) = true → s1.storable s1.stackAddr (loByte (s.pc - 1)) = true →
    exec (.jsr (.abs a)) s = .next (s2.setPc a) ∧
    exec (.jsr (.sp ll)) s = .next (s2.setPc (joinAddr s.cfg.specialPage ll)) ∧
    (load s2 (zeroPage zz) = .next lo → load s2 (zeroPage (zz + 1)) = .next hi →
      exec (.jsr (.zpInd zz)) s = .next (s2.setPc (joinAddr hi lo)))

/-- RTS pulls PCL, then PCH, and goes on at one more than that address; RTI pulls PS (bit 4 discarded), PCL and PCH, and adds
nothing (R272, R273; RTS's flag row is general knowledge K2, log 17; its + 1 and the discarded bit 4 are the spec's
derivations, logs 36 and 18; the wraps of S and PC are decisions D3 and D1, log 16). -/
def Obligations.RtsRtiPull : Prop :=
  ∀ s : State,
    s.present (joinAddr s.stackPage (s.s + 1)) = true → s.present (joinAddr s.stackPage (s.s + 2)) = true →
    let b1 := s.peek (joinAddr s.stackPage (s.s + 1))
    let b2 := s.peek (joinAddr s.stackPage (s.s + 2))
    exec .rts s = .next ((s.setS (s.s + 2)).setPc (joinAddr b2 b1 + 1)) ∧
    (s.present (joinAddr s.stackPage (s.s + 3)) = true →
      exec .rti s = .next (((s.setS (s.s + 3)).setPs
        { n := b1.getLsbD 7, v := b1.getLsbD 6, t := b1.getLsbD 5, d := b1.getLsbD 3, i := b1.getLsbD 2,
          z := b1.getLsbD 1, c := b1.getLsbD 0 }).setPc
        (joinAddr (s.peek (joinAddr s.stackPage (s.s + 3))) b2)))

/-- JSR in any format, then RTS at any later state with the two bytes and S as JSR left them: execution goes on at the
instruction after the JSR, with S restored (R287; the wraps of S and PC are decisions D3 and D1, log 16). -/
def Obligations.RtsResumesAfterJsr : Prop :=
  ∀ (target : JsrTarget) (s t u : State), s.mem.wf = true → s.StackFree 2 → s.PageKept 2 →
    exec (.jsr target) s = .next t → SameStackTop t u 2 →
    exec .rts u = .next ((u.setS s.s).setPc s.pc)

/-- BRA and the eight conditional branches: to the address of the next instruction plus the signed offset, modulo 0x10000, when
the condition holds, else on to the next instruction; nothing but PC changes; a conditional branch takes two cycles more when it
branches (R285, R274 to R282; that the target is taken modulo 0x10000 is decision D1, log 16). -/
def Obligations.BranchesOnCondition : Prop :=
  (∀ rr, encode (.bpl rr) = [0x10, rr] ∧ encode (.bmi rr) = [0x30, rr] ∧ encode (.bvc rr) = [0x50, rr] ∧
    encode (.bvs rr) = [0x70, rr] ∧ encode (.bra rr) = [0x80, rr] ∧ encode (.bcc rr) = [0x90, rr] ∧
    encode (.bcs rr) = [0xB0, rr] ∧ encode (.bne rr) = [0xD0, rr] ∧ encode (.beq rr) = [0xF0, rr]) ∧
  ∀ (s : State) (rr : Byte),
    let target : Addr := BitVec.ofInt 16 ((s.pc.toNat : Int) + rr.toInt)
    exec (.bra rr) s = .next (s.setPc target) ∧
    exec (.bpl rr) s = .next (if s.ps.n = false then s.setPc target else s) ∧
    exec (.bmi rr) s = .next (if s.ps.n = true then s.setPc target else s) ∧
    exec (.bvc rr) s = .next (if s.ps.v = false then s.setPc target else s) ∧
    exec (.bvs rr) s = .next (if s.ps.v = true then s.setPc target else s) ∧
    exec (.bcc rr) s = .next (if s.ps.c = false then s.setPc target else s) ∧
    exec (.bcs rr) s = .next (if s.ps.c = true then s.setPc target else s) ∧
    exec (.bne rr) s = .next (if s.ps.z = false then s.setPc target else s) ∧
    exec (.beq rr) s = .next (if s.ps.z = true then s.setPc target else s) ∧
    cycles (.bra rr) = 4 ∧
    ∀ (i : Instr) (taken : Bool),
      (i, taken) ∈ [(.bpl rr, !s.ps.n), (.bmi rr, s.ps.n), (.bvc rr, !s.ps.v), (.bvs rr, s.ps.v), (.bcc rr, !s.ps.c),
        (.bcs rr, s.ps.c), (.bne rr, !s.ps.z), (.beq rr, s.ps.z)] →
      cycles i + extraCycles s i = if taken then 4 else 2

/-- BBC and BBS on A and on a zero-page byte: the branch is taken when the named bit is 0 or 1; nothing but PC changes (R283,
R284, R136, R138; flag rows are general knowledge K2, log 17; that the target is taken modulo 0x10000 is decision D1, log
16). -/
def Obligations.BitBranchesOnBit : Prop :=
  ∀ (b : BitNo) (rr zz : Byte) (s : State),
    let target : Addr := BitVec.ofInt 16 ((s.pc.toNat : Int) + rr.toInt)
    exec (.bbc b .acc rr) s = .next (if s.a.getLsbD b.toNat = false then s.setPc target else s) ∧
    exec (.bbs b .acc rr) s = .next (if s.a.getLsbD b.toNat = true then s.setPc target else s) ∧
    (∀ v : Byte, load s (zeroPage zz) = .next v →
      exec (.bbc b (.zp zz) rr) s = .next (if v.getLsbD b.toNat = false then s.setPc target else s) ∧
      exec (.bbs b (.zp zz) rr) s = .next (if v.getLsbD b.toNat = true then s.setPc target else s))

/-- BRK outside the situation of the BRK bug takes the software interrupt, whatever I is: PCH, PCL and the old PS with bit 4
set go onto the stack at S, S-1, S-2, S decreases by three, I becomes 1 and every other flag is kept, PC comes from the BRK
vector, low byte first; A, X, Y and every byte outside the frame are kept.  In that situation (I = 1 and some source
requested and enabled, on a part that is not of series 38000) it is refused (R286, R331, R333, R335, R375; the pushed address
is decision D9, the vector's byte order general knowledge K6, the refusal decision D19: logs 17, 19 and 20;
the wraps of S, PC and the vector's second byte are decisions D3, D1 and D2, log 16). -/
def Obligations.BrkTakesTheSoftwareInterrupt : Prop :=
  (∀ s : State, s.mem.wf = true → s.StackFree 3 → s.PageKept 3 → s.last.changed = [] →
    s.present s.cfg.vecBrk = true → s.present (s.cfg.vecBrk + 1) = true →
    (s.cfg.series38000 = true ∨ s.ps.i = false ∨
      ∀ k ∈ s.cfg.irqSources, s.bitAt k.request = false ∨ s.bitAt k.enable = false) →
    ∃ t : State, exec .brk s = .next t ∧
      (let ret : Addr := match s.cfg.brkOffset with
        | .one => s.pc
        | .two => s.pc + 1
      t.byteAt (s.below 0) = hiByte ret ∧ t.byteAt (s.below 1) = loByte ret ∧
      t.byteAt (s.below 2) = (s.ps.toByte false ||| 0x10)) ∧
      t.s = s.s - 3 ∧ t.ps = { s.ps with i := true } ∧ t.a = s.a ∧ t.x = s.x ∧ t.y = s.y ∧ t.clk = s.clk ∧
      t.xoutf = s.xoutf ∧ t.pc = joinAddr (t.byteAt (s.cfg.vecBrk + 1)) (t.byteAt s.cfg.vecBrk) ∧
      ∀ a, a ≠ s.below 0 → a ≠ s.below 1 → a ≠ s.below 2 → t.byteAt a = s.byteAt a) ∧
  (∀ (s : State) (k : IrqSource), s.cfg.series38000 = false → s.ps.i = true → k ∈ s.cfg.irqSources →
    s.bitAt k.request = true → s.bitAt k.enable = true → exec .brk s = .refused .brkWithPendingRequest)

/-! ### Clock control (spec/46_clock_control.md) -/

/-- SLW and FST change the XOUTF connection, WIT and STP the clock, and nothing else, from every state (R310 to R313; flag rows
are general knowledge K2, log 17). -/
def Obligations.ClockInstructions : Prop :=
  ∀ s : State,
    exec .slw s = .next (s.setXoutf false) ∧ exec .fst s = .next (s.setXoutf true) ∧
    exec .wit s = .next (s.setClk .wait) ∧ exec .stp s = .next (s.setClk .stop)

/-! ### Interrupts (spec/60_exceptions.md) -/

/-- Which interrupt is taken when no latency that the acceptance test looks at is open: one that is requested and enabled with
I = 0, and of highest priority among those; with I = 1, or none such, none is taken (R326, R328, R29; a smaller rank is a
higher priority by the model's choice, log 21; that the test sees a write of an enable bit at once is log 37). -/
def Obligations.InterruptTakenIsAcceptableAndHighest : Prop :=
  ∀ (s : State), s.last.kind = .none → s.last.changed = [] → s.last.forced = [] →
    (∀ k, s.interruptTaken = some k →
      k ∈ s.cfg.irqSources ∧ s.bitAt k.request = true ∧ s.bitAt k.enable = true ∧ s.ps.i = false ∧
      ∀ j ∈ s.cfg.irqSources, s.bitAt j.request = true → s.bitAt j.enable = true → k.rank ≤ j.rank) ∧
    (s.ps.i = true → s.interruptTaken = none) ∧
    ((∀ k ∈ s.cfg.irqSources, s.bitAt k.request = false ∨ s.bitAt k.enable = false) → s.interruptTaken = none)

/-- At a boundary where it is the CPU's turn and an interrupt is acceptable the step is its entry or the next instruction while
the clock runs, and its entry when the clock is stopped.  With the clock stopped and nothing acceptable no instruction runs:
the machine waits while the environment has something left to do, changing nothing, and is stuck when it has not (R326,
R312, R313, U20; decisions D17 and D18, logs 8 and 22). -/
def Obligations.InterruptBoundary : Prop :=
  (∀ (s : State) (k : IrqSource), s.CpuTurn → s.forcedSource = none → s.candidate = some k →
    (s.clk = .run → step s = enterInterrupt s.turn k ∨ step s = instructionStep s.turn) ∧
    (s.clk ≠ .run → step s = enterInterrupt s.turn k)) ∧
  (∀ s : State, s.CpuTurn → s.clk ≠ .run → s.forcedSource = none → s.candidate = none →
    (s.inputs.tail = [] → step s = .fault .clockStopped) ∧
    (s.inputs.tail ≠ [] → step s = .next s.turn))

/-- Fairness: from every state, whatever the environment does, there is a number of steps within which a source stops being
acceptable or an interrupt is taken, on every run that does not stop before: no source that stays acceptable is passed over
for ever (R326, decision D18; the model gives each source that becomes acceptable a free, finite number of boundaries to
wait, log 8). -/
def Obligations.AcceptableSourceIsNotPassedOverForEver : Prop :=
  ∀ (s : State) (k : IrqSource), k ∈ s.cfg.irqSources →
    ∃ N : Nat, ∀ t : State, core.run N s = .next t →
      ∃ (n : Nat) (u : State), n ≤ N ∧ core.run n s = .next u ∧
        (u.acceptable k = false ∨ (u.CpuTurn ∧ ∃ j, u.interruptTaken = some j ∧ step u = enterInterrupt u.turn j))

/-- The entry of an interrupt: the address of the next instruction and PS with B = 0 go onto the stack at S, S-1, S-2, S
decreases by three, I becomes 1 and every other flag is kept, T and D among them, the request bit is cleared if the source
says so and every other bit of its byte is kept, PC comes from the source's vector, low byte first, the clock runs, no
latency stays open; A, X, Y, the XOUTF connection, the chip and every byte outside the frame and the request bit's are kept,
and nothing is taken off the inputs but the CPU's turn (R329, R330, R331, R327, R328; bit 4 = 0 is the spec's derivation,
log 18, vector byte order K6 and clearing K7 are general knowledge, log 17, clearing `last` is decision D24, log 10,
the wraps of S and of the vector's second byte are decisions D3 and D2, log 16). -/
def Obligations.InterruptEntryFrame : Prop :=
  ∀ (s : State) (k : IrqSource), s.CpuTurn → s.interruptTaken = some k → s.mem.wf = true → s.StackFree 3 →
    s.PageKept 3 → s.last.changed = [] → k ∈ s.cfg.irqSources → s.present k.vector = true →
    s.present (k.vector + 1) = true →
    ∃ t : State, step s = .next t ∧
      t.byteAt (s.below 0) = hiByte s.pc ∧ t.byteAt (s.below 1) = loByte s.pc ∧
      t.byteAt (s.below 2) = s.ps.toByte false ∧
      t.s = s.s - 3 ∧ t.ps = { s.ps with i := true } ∧ t.a = s.a ∧ t.x = s.x ∧ t.y = s.y ∧ t.clk = .run ∧
      t.xoutf = s.xoutf ∧ t.cfg = s.cfg ∧ t.inputs = s.inputs.tail ∧
      t.last = Last.none ∧ t.pc = joinAddr (t.byteAt (k.vector + 1)) (t.byteAt k.vector) ∧
      (k.autoClear = true → s.writable k.request.addr = true → t.bitAt k.request = false) ∧
      (k.autoClear = false → t.bitAt k.request = s.bitAt k.request) ∧
      (∀ j : BitNo, j ≠ k.request.bit → t.bitAt ⟨k.request.addr, j⟩ = s.bitAt ⟨k.request.addr, j⟩) ∧
      ∀ a, a ≠ s.below 0 → a ≠ s.below 1 → a ≠ s.below 2 → a ≠ k.request.addr → t.byteAt a = s.byteAt a

/-- RTI, at any later state with the three bytes and S as the entry left them, resumes the interrupted program exactly: PC, all
flags and S are those before the entry, on every chip whose request bit is not the Stack Page Selection Bit itself (R332,
R336, R287; S's wrap is decision D3, log 16). -/
def Obligations.RtiResumesTheInterruptedProgram : Prop :=
  ∀ (s t u : State) (k : IrqSource), s.mem.wf = true → s.StackFree 3 → s.PageKept 3 →
    k ∈ s.cfg.irqSources → (∀ zp bit r, s.cfg.stackPage = .selectable zp bit r → k.request ≠ ⟨zeroPage zp, bit⟩) →
    enterInterrupt s k = .next t → SameStackTop t u 3 →
    exec .rti u = .next (((u.setS s.s).setPs s.ps).setPc s.pc)

/-- The environment sets the request bit of a source between two instructions, or gives an SFR byte a value; nothing else changes
but its own list (R325, R72; decision D5 and general knowledge K9, log 23). -/
def Obligations.EnvironmentActsBetweenInstructions : Prop :=
  (∀ (s : State) (n : Nat) (k : IrqSource) (rest : List EnvEvent), s.inputs = .request n :: rest →
    s.cfg.irqSources[n]? = some k → s.mem.wf = true → s.writable k.request.addr = true →
    ∃ m : Memory, step s = .next ((s.setInputs rest).setMem m) ∧
      testBit k.request.bit (m.read k.request.addr.toNat) = true ∧
      (∀ j : BitNo, j ≠ k.request.bit →
        testBit j (m.read k.request.addr.toNat) = testBit j (s.byteAt k.request.addr)) ∧
      ∀ a : Addr, a ≠ k.request.addr → m.read a.toNat = s.byteAt a) ∧
  (∀ (s : State) (a : Addr) (v : Byte) (rest : List EnvEvent), s.inputs = .device a v :: rest →
    kindAt s.cfg a = .sfr → s.mem.wf = true →
    ∃ m : Memory, step s = .next ((s.setInputs rest).setMem m) ∧ m.read a.toNat = v ∧
      ∀ b : Addr, b ≠ a → m.read b.toNat = s.byteAt b)

/-! ### Hazards (spec/70_reset_and_hazards.md) -/

/-- After a PLP, on a part that is not of series 38000, an instruction other than NOP is refused, and NOP is not; on a part of
series 38000 there is no restriction, and there is none after RTI on any part (R370). -/
def Obligations.NopAfterPlp : Prop :=
  ∀ (s t : State) (n m : Nat) (i : Instr), s.Ready → step s = .next t → t.Ready → fetch t = .next (i, m) →
    (fetch s = .next (.plp, n) → t.cfg.series38000 = false → i ≠ .nop → step t = .refused .plpNotFollowedByNop) ∧
    (fetch s = .next (.plp, n) ∧ (t.cfg.series38000 = true ∨ i = .nop) ∨ fetch s = .next (.rti, n) →
      step t = andThen (exec i (t.turn.fetched m)) (fun u => .next (settle t.turn i u)))

/-- After a decimal ADC or SBC, SEC, CLC or CLD is refused and every other instruction runs; after a binary one all run (R372). -/
def Obligations.NoFlagInstructionAfterDecimal : Prop :=
  ∀ (s t : State) (n m : Nat) (i j : Instr) (src : AluSrc), i = .adc src ∨ i = .sbc src → s.Ready →
    fetch s = .next (i, n) → step s = .next t → t.Ready → fetch t = .next (j, m) →
    (s.ps.d = true → j = .sec ∨ j = .clc ∨ j = .cld → step t = .refused .flagInstructionAfterDecimal) ∧
    (s.ps.d = false ∨ (j ≠ .sec ∧ j ≠ .clc ∧ j ≠ .cld) →
      step t = andThen (exec j (t.turn.fetched m)) (fun u => .next (settle t.turn j u)))

/-- An instruction any byte of which was stored to by the instruction before is refused: the first such byte stops the fetch.
What counts as stored to is the destination of every form that stores one byte, the two bytes JSR and the three BRK push, and
nothing for a form that stores nothing; every byte an instruction changed is among it (R75, R379; refusing is decision D12,
and a store that leaves the byte as it was counts too, log 24). -/
def Obligations.OverwrittenNextInstructionRefused : Prop :=
  (∀ (s t : State) (i : Instr) (n : Nat), s.Ready → fetch s = .next (i, n) → step s = .next t →
    (storesNothing s i = true → t.last.written = []) ∧
    (∀ d a, storeDest s i = some d → destAddr (s.turn.fetched n) d = .next a → s.writable a = true →
      t.last.written = [a]) ∧
    (∀ target, i = .jsr target → s.StackFree 2 → s.PageKept 2 → t.last.written = [s.below 1, s.below 0]) ∧
    (i = .brk → s.StackFree 3 → s.PageKept 3 → t.last.written = [s.below 2, s.below 1, s.below 0]) ∧
    (∀ a, t.byteAt a ≠ s.byteAt a → a ∈ t.last.written)) ∧
  (∀ t : State, t.Ready → t.pc ∈ t.last.written → step t = .refused (.overwroteNextInstruction t.pc)) ∧
  (∀ (t : State) (sh : Shape) (j : Nat), t.Ready → t.present t.pc = true → lookup t.cfg (t.peek t.pc) = some sh →
    j < sh.length →
    (∀ m < j, t.pc + BitVec.ofNat 16 m ∉ t.last.written ∧ t.present (t.pc + BitVec.ofNat 16 m) = true) →
    t.pc + BitVec.ofNat 16 j ∈ t.last.written →
    step t = .refused (.overwroteNextInstruction (t.pc + BitVec.ofNat 16 j)))

/-- A request bit that the instruction before changed is the only thing a read may see differently from memory: every other bit
of every byte reads as stored, and once an instruction changes no request bit, so does every byte (R371). -/
def Obligations.OnlyJustChangedRequestBitsReadLate : Prop :=
  (∀ (s : State) (a : Addr) (j : BitNo), (∀ l ∈ s.last.changed, l.addr = a → l.bit ≠ j) →
    testBit j (s.peek a) = testBit j (s.byteAt a)) ∧
  (∀ (s t : State), s.Ready → step s = .next t → (∀ k ∈ s.cfg.irqSources, t.bitAt k.request = s.bitAt k.request) →
    ∀ a, t.peek a = t.byteAt a) ∧
  (∀ (s t : State) (k : IrqSource), s.Ready → step s = .next t → k ∈ s.cfg.irqSources →
    t.bitAt k.request ≠ s.bitAt k.request → k.request ∈ t.last.changed)

/-- One instruction that clears the request bit of one source and sets its enable bit, and leaves I = 0, is followed by the entry
of that source (R373; of the two choices of decision D25 the model takes the one that goes on, log 25). -/
def Obligations.ClearAndEnableTogetherIsEntered : Prop :=
  ∀ (s t : State) (k : IrqSource), s.Ready → step s = .next t → k ∈ s.cfg.irqSources →
    s.bitAt k.request = true → t.bitAt k.request = false → s.bitAt k.enable = false → t.bitAt k.enable = true →
    (∀ j ∈ s.cfg.irqSources, s.bitAt j.request = true → t.bitAt j.request = false → s.bitAt j.enable = false →
      t.bitAt j.enable = true → j = k) →
    t.ps.i = false → t.CpuTurn → step t = enterInterrupt t.turn k

/-! ### Rules over all instructions -/

/-- A, X, Y, S and PC change only by the instructions the spec names as their writers (R21 to R23, R25). -/
def Obligations.RegistersHaveOnlyTheirWriters : Prop :=
  ∀ (i : Instr) (s t : State), exec i s = .next t →
    (mayWriteA s i = false → t.a = s.a) ∧ (mayWriteX i = false → t.x = s.x) ∧ (mayWriteY i = false → t.y = s.y) ∧
    (mayWriteS i = false → t.s = s.s) ∧ (mayWritePc i = false → t.pc = s.pc)

/-- Every flag changes only by the instructions the spec names as its writers (R27 to R34, R36).  That BBC, BBS, CLB, SEB, DIV,
FST, LDM, NOP, PHA, PHP, RRF, RTS, SLW, STP, TXS and WIT write no flag is the spec's general knowledge K2 (log 17; for DIV
also U25, log 7). -/
def Obligations.FlagsHaveOnlyTheirWriters : Prop :=
  ∀ (i : Instr) (s t : State), exec i s = .next t →
    (mayWriteNZ i = false → t.ps.n = s.ps.n ∧ t.ps.z = s.ps.z) ∧ (mayWriteC i = false → t.ps.c = s.ps.c) ∧
    (mayWriteV i = false → t.ps.v = s.ps.v) ∧ (mayWriteT i = false → t.ps.t = s.ps.t) ∧
    (mayWriteD i = false → t.ps.d = s.ps.d) ∧ (mayWriteI i = false → t.ps.i = s.ps.i)

/-- The clock stops only by WIT and STP, the XOUTF connection changes only by SLW and FST (R39), and no instruction touches what
the model keeps for itself or the chip. -/
def Obligations.ClockHasOnlyItsWriters : Prop :=
  ∀ (i : Instr) (s t : State), exec i s = .next t →
    (i ≠ .wit → i ≠ .stp → t.clk = s.clk) ∧ (i ≠ .slw → i ≠ .fst → t.xoutf = s.xoutf) ∧
    t.cfg = s.cfg ∧ t.inputs = s.inputs ∧ t.draws = s.draws ∧ t.waiting = s.waiting ∧
    t.last.kind = s.last.kind ∧ t.last.changed = s.last.changed ∧ t.last.forced = s.last.forced

/-- Every byte of memory is unchanged by a form that stores nothing; a form that stores one byte changes no byte outside the
address of its destination; JSR changes only the two bytes it pushes to and BRK only its three (R120, R141, R249, R271,
R286). -/
def Obligations.MemoryFrame : Prop :=
  ∀ (i : Instr) (s t : State), exec i s = .next t →
    (storesNothing s i = true → ∀ b, t.byteAt b = s.byteAt b) ∧
    (∀ d a, storeDest s i = some d → destAddr s d = .next a → ∀ b, b ≠ a → t.byteAt b = s.byteAt b) ∧
    (∀ target, i = .jsr target → s.PageKept 2 → ∀ b, b ≠ s.below 0 → b ≠ s.below 1 → t.byteAt b = s.byteAt b) ∧
    (i = .brk → s.PageKept 3 → ∀ b, b ≠ s.below 0 → b ≠ s.below 1 → b ≠ s.below 2 → t.byteAt b = s.byteAt b)
end

