-- ==== Sys2Proof/Laws/Decode.lean ====
section
/-! SUPPORT. The opcode map at the opcodes of the bit instructions, whose bit number is a field (R93). -/

namespace Sys2Proof

theorem bitOpcode_select (b : BitNo) (low5 : BitVec 5) : (bitOpcode b low5).toNat % 32 = low5.toNat := by
  simp only [bitOpcode, BitVec.toNat_append]
  rw [Nat.shiftLeft_eq, Nat.or_comm]
  have := low5.isLt
  rw [← Nat.shiftLeft_eq, Nat.or_comm, ← Nat.shiftLeft_add_eq_or_of_lt this, Nat.shiftLeft_eq]
  omega

theorem bitOpcode_bit : ∀ (b : BitNo) (low5 : BitVec 5), (bitOpcode b low5).extractLsb' 5 3 = b := by decide

/-- At a bit instruction's opcode the map answers with the shape that its five low bits select (R93). -/
theorem lookup_bitOpcode (c : Config) (b : BitNo) (low5 : BitVec 5) {sh : Shape}
    (h : bitShape (bitOpcode b low5) = some sh) : lookup c (bitOpcode b low5) = some sh := by
  simp only [lookup, h]

theorem bitShape_bbsAcc (b : BitNo) : bitShape (bitOpcode b 0x03) = some (.two fun rr => .bbs b .acc rr) := by
  simp only [bitShape, bitOpcode_select, bitOpcode_bit]; rfl
theorem bitShape_bbcAcc (b : BitNo) : bitShape (bitOpcode b 0x13) = some (.two fun rr => .bbc b .acc rr) := by
  simp only [bitShape, bitOpcode_select, bitOpcode_bit]; rfl
theorem bitShape_bbsZp (b : BitNo) : bitShape (bitOpcode b 0x07) = some (.three fun zz rr => .bbs b (.zp zz) rr) := by
  simp only [bitShape, bitOpcode_select, bitOpcode_bit]; rfl
theorem bitShape_bbcZp (b : BitNo) : bitShape (bitOpcode b 0x17) = some (.three fun zz rr => .bbc b (.zp zz) rr) := by
  simp only [bitShape, bitOpcode_select, bitOpcode_bit]; rfl
theorem bitShape_sebAcc (b : BitNo) : bitShape (bitOpcode b 0x0B) = some (.one (.seb b .acc)) := by
  simp only [bitShape, bitOpcode_select, bitOpcode_bit]; rfl
theorem bitShape_clbAcc (b : BitNo) : bitShape (bitOpcode b 0x1B) = some (.one (.clb b .acc)) := by
  simp only [bitShape, bitOpcode_select, bitOpcode_bit]; rfl
theorem bitShape_sebZp (b : BitNo) : bitShape (bitOpcode b 0x0F) = some (.two fun zz => .seb b (.zp zz)) := by
  simp only [bitShape, bitOpcode_select, bitOpcode_bit]; rfl
theorem bitShape_clbZp (b : BitNo) : bitShape (bitOpcode b 0x1F) = some (.two fun zz => .clb b (.zp zz)) := by
  simp only [bitShape, bitOpcode_select, bitOpcode_bit]; rfl

/-- The two bytes of an address, joined (R63). -/
@[simp] theorem joinAddr_bytes : ∀ a : Addr, joinAddr (hiByte a) (loByte a) = a := by
  intro a
  apply BitVec.eq_of_toNat_eq
  simp only [joinAddr, hiByte, loByte, BitVec.toNat_append, BitVec.extractLsb'_toNat, Nat.shiftRight_eq_div_pow]
  have := a.isLt
  rw [← Nat.shiftLeft_add_eq_or_of_lt (by omega), Nat.shiftLeft_eq]
  omega

@[simp] theorem hiByte_joinAddr (h l : Byte) : hiByte (joinAddr h l) = h := by
  apply BitVec.eq_of_toNat_eq
  simp only [joinAddr, hiByte, BitVec.toNat_append, BitVec.extractLsb'_toNat, Nat.shiftRight_eq_div_pow]
  have := h.isLt; have := l.isLt
  rw [← Nat.shiftLeft_add_eq_or_of_lt (by omega), Nat.shiftLeft_eq]
  omega

@[simp] theorem loByte_joinAddr (h l : Byte) : loByte (joinAddr h l) = l := by
  apply BitVec.eq_of_toNat_eq
  simp only [joinAddr, loByte, BitVec.toNat_append, BitVec.extractLsb'_toNat, Nat.shiftRight_eq_div_pow]
  have := h.isLt; have := l.isLt
  rw [← Nat.shiftLeft_add_eq_or_of_lt (by omega), Nat.shiftLeft_eq]
  omega

end Sys2Proof
end

