-- ==== Sys2Proof/Laws/Memory.lean ====
section
/-! SUPPORT. The laws of memory: a read after a write, and that every operation keeps the canonical form. -/

namespace Sys2Proof.Machine

theorem Memory.wfFrom_mono {lo hi : Nat} (h : lo ≤ hi) : ∀ {m : Memory}, Memory.wfFrom hi m = true → Memory.wfFrom lo m = true
  | [], _ => rfl
  | (k, v) :: rest, hm => by
    simp only [Memory.wfFrom, Bool.and_eq_true, decide_eq_true_eq] at hm ⊢
    exact ⟨⟨⟨by omega, hm.1.1.2⟩, hm.1.2⟩, hm.2⟩

/-- Below its first address a canonical memory lists nothing. -/
theorem Memory.read_below : ∀ {m : Memory} {lo a : Nat}, Memory.wfFrom lo m = true → a < lo → m.read a = unlistedByte
  | [], _, _, _, _ => rfl
  | (k, v) :: rest, lo, a, hm, ha => by
    simp only [Memory.wfFrom, Bool.and_eq_true, decide_eq_true_eq] at hm
    have hk : k ≠ a := by omega
    simp only [Memory.read, if_neg hk]
    exact Memory.read_below hm.2 (by omega)

theorem cellOf_append_wfFrom {lo a : Nat} {v : Byte} {m : Memory} (hlo : lo ≤ a) (ha : a < 0x10000)
    (hm : Memory.wfFrom (a + 1) m = true) : Memory.wfFrom lo (cellOf a v ++ m) = true := by
  by_cases hv : v = unlistedByte
  · simp only [cellOf, if_pos hv, List.nil_append]
    exact Memory.wfFrom_mono (by omega) hm
  · simp [cellOf, hv, Memory.wfFrom, hm, hlo, ha]

theorem read_cellOf_append_same {a : Nat} {v : Byte} {m : Memory} (hm : Memory.wfFrom (a + 1) m = true) :
    Memory.read (cellOf a v ++ m) a = v := by
  by_cases hv : v = unlistedByte
  · simp only [cellOf, if_pos hv, List.nil_append]
    rw [Memory.read_below hm (by omega), hv]
  · simp [cellOf, hv, Memory.read]

theorem read_cellOf_append_ne {a b : Nat} {v : Byte} {m : Memory} (h : a ≠ b) :
    Memory.read (cellOf a v ++ m) b = Memory.read m b := by
  by_cases hv : v = unlistedByte <;> simp [cellOf, hv, Memory.read, h]

theorem Memory.wfFrom_write : ∀ {m : Memory} {lo a : Nat} {v : Byte},
    Memory.wfFrom lo m = true → lo ≤ a → a < 0x10000 → Memory.wfFrom lo (m.write a v) = true
  | [], lo, a, v, _, hlo, ha => by
    simpa [Memory.write] using cellOf_append_wfFrom (m := []) (v := v) hlo ha rfl
  | (k, w) :: rest, lo, a, v, hm, hlo, ha => by
    have hm' := hm
    simp only [Memory.wfFrom, Bool.and_eq_true, decide_eq_true_eq] at hm'
    simp only [Memory.write]
    split
    · refine cellOf_append_wfFrom hlo ha ?_
      simp only [Memory.wfFrom, Bool.and_eq_true, decide_eq_true_eq]
      exact ⟨⟨⟨by omega, hm'.1.1.2⟩, hm'.1.2⟩, hm'.2⟩
    · split
      · next h => subst h; exact cellOf_append_wfFrom hlo ha hm'.2
      · simp only [Memory.wfFrom, Bool.and_eq_true, decide_eq_true_eq]
        exact ⟨hm'.1, Memory.wfFrom_write hm'.2 (by omega) ha⟩

/-- A write keeps the canonical form. -/
theorem Memory.wf_write {m : Memory} {a : Nat} {v : Byte} (hm : m.wf = true) (ha : a < 0x10000) :
    (m.write a v).wf = true := Memory.wfFrom_write hm (Nat.zero_le a) ha

theorem Memory.read_write_same_from : ∀ {m : Memory} {lo a : Nat} {v : Byte},
    Memory.wfFrom lo m = true → (m.write a v).read a = v
  | [], lo, a, v, _ => by
    simpa [Memory.write] using read_cellOf_append_same (a := a) (v := v) (m := []) rfl
  | (k, w) :: rest, lo, a, v, hm => by
    have hm' := hm
    simp only [Memory.wfFrom, Bool.and_eq_true, decide_eq_true_eq] at hm'
    simp only [Memory.write]
    split
    · refine read_cellOf_append_same ?_
      simp only [Memory.wfFrom, Bool.and_eq_true, decide_eq_true_eq]
      exact ⟨⟨⟨by omega, hm'.1.1.2⟩, hm'.1.2⟩, hm'.2⟩
    · split
      · next h => subst h; exact read_cellOf_append_same hm'.2
      · next h =>
        simp only [Memory.read, if_neg (fun e : k = a => h e.symm)]
        exact Memory.read_write_same_from hm'.2

/-- A read after a write to the same address gives the byte written. -/
theorem Memory.read_write_same {m : Memory} {a : Nat} {v : Byte} (hm : m.wf = true) : (m.write a v).read a = v :=
  Memory.read_write_same_from hm

/-- A write leaves every other address alone. -/
theorem Memory.read_write_ne : ∀ {m : Memory} {a b : Nat} {v : Byte}, a ≠ b → (m.write a v).read b = m.read b
  | [], a, b, v, h => by
    simpa [Memory.write] using read_cellOf_append_ne (m := []) (v := v) h
  | (k, w) :: rest, a, b, v, h => by
    simp only [Memory.write]
    split
    · exact read_cellOf_append_ne h
    · split
      · next hk => subst hk; rw [read_cellOf_append_ne h]; simp [Memory.read, h]
      · simp only [Memory.read]; rw [Memory.read_write_ne h]

theorem Memory.wfFrom_tabulate (f : Nat → Byte) : ∀ (n lo : Nat), lo + n ≤ 0x10000 →
    Memory.wfFrom lo (Memory.tabulate f lo n) = true
  | 0, _, _ => rfl
  | n + 1, lo, h => cellOf_append_wfFrom (le_refl lo) (by omega) (Memory.wfFrom_tabulate f n (lo + 1) (by omega))

/-- A tabulated memory reads as its function. -/
theorem Memory.read_tabulate (f : Nat → Byte) : ∀ (n lo a : Nat), lo ≤ a → a < lo + n → lo + n ≤ 0x10000 →
    (Memory.tabulate f lo n).read a = f a
  | 0, _, _, h1, h2, _ => by omega
  | n + 1, lo, a, h1, h2, h3 => by
    simp only [Memory.tabulate]
    by_cases h : lo = a
    · subst h; exact read_cellOf_append_same (Memory.wfFrom_tabulate f n (lo + 1) (by omega))
    · rw [read_cellOf_append_ne h]
      exact Memory.read_tabulate f n (lo + 1) a (by omega) (by omega) (by omega)

end Sys2Proof.Machine
end

