-- ==== Sys2Proof/Laws/State.lean ====
section
/-! SUPPORT. What each update of one field leaves: one lemma per field per update, true by rfl. -/

namespace Sys2Proof.Machine

@[simp] theorem State.setA_a (s : State) (v : Byte) : (s.setA v).a = v := rfl
@[simp] theorem State.setA_x (s : State) (v : Byte) : (s.setA v).x = s.x := rfl
@[simp] theorem State.setA_y (s : State) (v : Byte) : (s.setA v).y = s.y := rfl
@[simp] theorem State.setA_s (s : State) (v : Byte) : (s.setA v).s = s.s := rfl
@[simp] theorem State.setA_pc (s : State) (v : Byte) : (s.setA v).pc = s.pc := rfl
@[simp] theorem State.setA_ps (s : State) (v : Byte) : (s.setA v).ps = s.ps := rfl
@[simp] theorem State.setA_mem (s : State) (v : Byte) : (s.setA v).mem = s.mem := rfl
@[simp] theorem State.setA_clk (s : State) (v : Byte) : (s.setA v).clk = s.clk := rfl
@[simp] theorem State.setA_xoutf (s : State) (v : Byte) : (s.setA v).xoutf = s.xoutf := rfl
@[simp] theorem State.setA_last (s : State) (v : Byte) : (s.setA v).last = s.last := rfl
@[simp] theorem State.setA_draws (s : State) (v : Byte) : (s.setA v).draws = s.draws := rfl
@[simp] theorem State.setA_inputs (s : State) (v : Byte) : (s.setA v).inputs = s.inputs := rfl
@[simp] theorem State.setA_waiting (s : State) (v : Byte) : (s.setA v).waiting = s.waiting := rfl
@[simp] theorem State.setA_cfg (s : State) (v : Byte) : (s.setA v).cfg = s.cfg := rfl

@[simp] theorem State.setX_a (s : State) (v : Byte) : (s.setX v).a = s.a := rfl
@[simp] theorem State.setX_x (s : State) (v : Byte) : (s.setX v).x = v := rfl
@[simp] theorem State.setX_y (s : State) (v : Byte) : (s.setX v).y = s.y := rfl
@[simp] theorem State.setX_s (s : State) (v : Byte) : (s.setX v).s = s.s := rfl
@[simp] theorem State.setX_pc (s : State) (v : Byte) : (s.setX v).pc = s.pc := rfl
@[simp] theorem State.setX_ps (s : State) (v : Byte) : (s.setX v).ps = s.ps := rfl
@[simp] theorem State.setX_mem (s : State) (v : Byte) : (s.setX v).mem = s.mem := rfl
@[simp] theorem State.setX_clk (s : State) (v : Byte) : (s.setX v).clk = s.clk := rfl
@[simp] theorem State.setX_xoutf (s : State) (v : Byte) : (s.setX v).xoutf = s.xoutf := rfl
@[simp] theorem State.setX_last (s : State) (v : Byte) : (s.setX v).last = s.last := rfl
@[simp] theorem State.setX_draws (s : State) (v : Byte) : (s.setX v).draws = s.draws := rfl
@[simp] theorem State.setX_inputs (s : State) (v : Byte) : (s.setX v).inputs = s.inputs := rfl
@[simp] theorem State.setX_waiting (s : State) (v : Byte) : (s.setX v).waiting = s.waiting := rfl
@[simp] theorem State.setX_cfg (s : State) (v : Byte) : (s.setX v).cfg = s.cfg := rfl

@[simp] theorem State.setY_a (s : State) (v : Byte) : (s.setY v).a = s.a := rfl
@[simp] theorem State.setY_x (s : State) (v : Byte) : (s.setY v).x = s.x := rfl
@[simp] theorem State.setY_y (s : State) (v : Byte) : (s.setY v).y = v := rfl
@[simp] theorem State.setY_s (s : State) (v : Byte) : (s.setY v).s = s.s := rfl
@[simp] theorem State.setY_pc (s : State) (v : Byte) : (s.setY v).pc = s.pc := rfl
@[simp] theorem State.setY_ps (s : State) (v : Byte) : (s.setY v).ps = s.ps := rfl
@[simp] theorem State.setY_mem (s : State) (v : Byte) : (s.setY v).mem = s.mem := rfl
@[simp] theorem State.setY_clk (s : State) (v : Byte) : (s.setY v).clk = s.clk := rfl
@[simp] theorem State.setY_xoutf (s : State) (v : Byte) : (s.setY v).xoutf = s.xoutf := rfl
@[simp] theorem State.setY_last (s : State) (v : Byte) : (s.setY v).last = s.last := rfl
@[simp] theorem State.setY_draws (s : State) (v : Byte) : (s.setY v).draws = s.draws := rfl
@[simp] theorem State.setY_inputs (s : State) (v : Byte) : (s.setY v).inputs = s.inputs := rfl
@[simp] theorem State.setY_waiting (s : State) (v : Byte) : (s.setY v).waiting = s.waiting := rfl
@[simp] theorem State.setY_cfg (s : State) (v : Byte) : (s.setY v).cfg = s.cfg := rfl

@[simp] theorem State.setS_a (s : State) (v : Byte) : (s.setS v).a = s.a := rfl
@[simp] theorem State.setS_x (s : State) (v : Byte) : (s.setS v).x = s.x := rfl
@[simp] theorem State.setS_y (s : State) (v : Byte) : (s.setS v).y = s.y := rfl
@[simp] theorem State.setS_s (s : State) (v : Byte) : (s.setS v).s = v := rfl
@[simp] theorem State.setS_pc (s : State) (v : Byte) : (s.setS v).pc = s.pc := rfl
@[simp] theorem State.setS_ps (s : State) (v : Byte) : (s.setS v).ps = s.ps := rfl
@[simp] theorem State.setS_mem (s : State) (v : Byte) : (s.setS v).mem = s.mem := rfl
@[simp] theorem State.setS_clk (s : State) (v : Byte) : (s.setS v).clk = s.clk := rfl
@[simp] theorem State.setS_xoutf (s : State) (v : Byte) : (s.setS v).xoutf = s.xoutf := rfl
@[simp] theorem State.setS_last (s : State) (v : Byte) : (s.setS v).last = s.last := rfl
@[simp] theorem State.setS_draws (s : State) (v : Byte) : (s.setS v).draws = s.draws := rfl
@[simp] theorem State.setS_inputs (s : State) (v : Byte) : (s.setS v).inputs = s.inputs := rfl
@[simp] theorem State.setS_waiting (s : State) (v : Byte) : (s.setS v).waiting = s.waiting := rfl
@[simp] theorem State.setS_cfg (s : State) (v : Byte) : (s.setS v).cfg = s.cfg := rfl

@[simp] theorem State.setPc_a (s : State) (v : Addr) : (s.setPc v).a = s.a := rfl
@[simp] theorem State.setPc_x (s : State) (v : Addr) : (s.setPc v).x = s.x := rfl
@[simp] theorem State.setPc_y (s : State) (v : Addr) : (s.setPc v).y = s.y := rfl
@[simp] theorem State.setPc_s (s : State) (v : Addr) : (s.setPc v).s = s.s := rfl
@[simp] theorem State.setPc_pc (s : State) (v : Addr) : (s.setPc v).pc = v := rfl
@[simp] theorem State.setPc_ps (s : State) (v : Addr) : (s.setPc v).ps = s.ps := rfl
@[simp] theorem State.setPc_mem (s : State) (v : Addr) : (s.setPc v).mem = s.mem := rfl
@[simp] theorem State.setPc_clk (s : State) (v : Addr) : (s.setPc v).clk = s.clk := rfl
@[simp] theorem State.setPc_xoutf (s : State) (v : Addr) : (s.setPc v).xoutf = s.xoutf := rfl
@[simp] theorem State.setPc_last (s : State) (v : Addr) : (s.setPc v).last = s.last := rfl
@[simp] theorem State.setPc_draws (s : State) (v : Addr) : (s.setPc v).draws = s.draws := rfl
@[simp] theorem State.setPc_inputs (s : State) (v : Addr) : (s.setPc v).inputs = s.inputs := rfl
@[simp] theorem State.setPc_waiting (s : State) (v : Addr) : (s.setPc v).waiting = s.waiting := rfl
@[simp] theorem State.setPc_cfg (s : State) (v : Addr) : (s.setPc v).cfg = s.cfg := rfl

@[simp] theorem State.setPs_a (s : State) (v : PS) : (s.setPs v).a = s.a := rfl
@[simp] theorem State.setPs_x (s : State) (v : PS) : (s.setPs v).x = s.x := rfl
@[simp] theorem State.setPs_y (s : State) (v : PS) : (s.setPs v).y = s.y := rfl
@[simp] theorem State.setPs_s (s : State) (v : PS) : (s.setPs v).s = s.s := rfl
@[simp] theorem State.setPs_pc (s : State) (v : PS) : (s.setPs v).pc = s.pc := rfl
@[simp] theorem State.setPs_ps (s : State) (v : PS) : (s.setPs v).ps = v := rfl
@[simp] theorem State.setPs_mem (s : State) (v : PS) : (s.setPs v).mem = s.mem := rfl
@[simp] theorem State.setPs_clk (s : State) (v : PS) : (s.setPs v).clk = s.clk := rfl
@[simp] theorem State.setPs_xoutf (s : State) (v : PS) : (s.setPs v).xoutf = s.xoutf := rfl
@[simp] theorem State.setPs_last (s : State) (v : PS) : (s.setPs v).last = s.last := rfl
@[simp] theorem State.setPs_draws (s : State) (v : PS) : (s.setPs v).draws = s.draws := rfl
@[simp] theorem State.setPs_inputs (s : State) (v : PS) : (s.setPs v).inputs = s.inputs := rfl
@[simp] theorem State.setPs_waiting (s : State) (v : PS) : (s.setPs v).waiting = s.waiting := rfl
@[simp] theorem State.setPs_cfg (s : State) (v : PS) : (s.setPs v).cfg = s.cfg := rfl

@[simp] theorem State.setMem_a (s : State) (v : Memory) : (s.setMem v).a = s.a := rfl
@[simp] theorem State.setMem_x (s : State) (v : Memory) : (s.setMem v).x = s.x := rfl
@[simp] theorem State.setMem_y (s : State) (v : Memory) : (s.setMem v).y = s.y := rfl
@[simp] theorem State.setMem_s (s : State) (v : Memory) : (s.setMem v).s = s.s := rfl
@[simp] theorem State.setMem_pc (s : State) (v : Memory) : (s.setMem v).pc = s.pc := rfl
@[simp] theorem State.setMem_ps (s : State) (v : Memory) : (s.setMem v).ps = s.ps := rfl
@[simp] theorem State.setMem_mem (s : State) (v : Memory) : (s.setMem v).mem = v := rfl
@[simp] theorem State.setMem_clk (s : State) (v : Memory) : (s.setMem v).clk = s.clk := rfl
@[simp] theorem State.setMem_xoutf (s : State) (v : Memory) : (s.setMem v).xoutf = s.xoutf := rfl
@[simp] theorem State.setMem_last (s : State) (v : Memory) : (s.setMem v).last = s.last := rfl
@[simp] theorem State.setMem_draws (s : State) (v : Memory) : (s.setMem v).draws = s.draws := rfl
@[simp] theorem State.setMem_inputs (s : State) (v : Memory) : (s.setMem v).inputs = s.inputs := rfl
@[simp] theorem State.setMem_waiting (s : State) (v : Memory) : (s.setMem v).waiting = s.waiting := rfl
@[simp] theorem State.setMem_cfg (s : State) (v : Memory) : (s.setMem v).cfg = s.cfg := rfl

@[simp] theorem State.setClk_a (s : State) (v : Clock) : (s.setClk v).a = s.a := rfl
@[simp] theorem State.setClk_x (s : State) (v : Clock) : (s.setClk v).x = s.x := rfl
@[simp] theorem State.setClk_y (s : State) (v : Clock) : (s.setClk v).y = s.y := rfl
@[simp] theorem State.setClk_s (s : State) (v : Clock) : (s.setClk v).s = s.s := rfl
@[simp] theorem State.setClk_pc (s : State) (v : Clock) : (s.setClk v).pc = s.pc := rfl
@[simp] theorem State.setClk_ps (s : State) (v : Clock) : (s.setClk v).ps = s.ps := rfl
@[simp] theorem State.setClk_mem (s : State) (v : Clock) : (s.setClk v).mem = s.mem := rfl
@[simp] theorem State.setClk_clk (s : State) (v : Clock) : (s.setClk v).clk = v := rfl
@[simp] theorem State.setClk_xoutf (s : State) (v : Clock) : (s.setClk v).xoutf = s.xoutf := rfl
@[simp] theorem State.setClk_last (s : State) (v : Clock) : (s.setClk v).last = s.last := rfl
@[simp] theorem State.setClk_draws (s : State) (v : Clock) : (s.setClk v).draws = s.draws := rfl
@[simp] theorem State.setClk_inputs (s : State) (v : Clock) : (s.setClk v).inputs = s.inputs := rfl
@[simp] theorem State.setClk_waiting (s : State) (v : Clock) : (s.setClk v).waiting = s.waiting := rfl
@[simp] theorem State.setClk_cfg (s : State) (v : Clock) : (s.setClk v).cfg = s.cfg := rfl

@[simp] theorem State.setXoutf_a (s : State) (v : Bool) : (s.setXoutf v).a = s.a := rfl
@[simp] theorem State.setXoutf_x (s : State) (v : Bool) : (s.setXoutf v).x = s.x := rfl
@[simp] theorem State.setXoutf_y (s : State) (v : Bool) : (s.setXoutf v).y = s.y := rfl
@[simp] theorem State.setXoutf_s (s : State) (v : Bool) : (s.setXoutf v).s = s.s := rfl
@[simp] theorem State.setXoutf_pc (s : State) (v : Bool) : (s.setXoutf v).pc = s.pc := rfl
@[simp] theorem State.setXoutf_ps (s : State) (v : Bool) : (s.setXoutf v).ps = s.ps := rfl
@[simp] theorem State.setXoutf_mem (s : State) (v : Bool) : (s.setXoutf v).mem = s.mem := rfl
@[simp] theorem State.setXoutf_clk (s : State) (v : Bool) : (s.setXoutf v).clk = s.clk := rfl
@[simp] theorem State.setXoutf_xoutf (s : State) (v : Bool) : (s.setXoutf v).xoutf = v := rfl
@[simp] theorem State.setXoutf_last (s : State) (v : Bool) : (s.setXoutf v).last = s.last := rfl
@[simp] theorem State.setXoutf_draws (s : State) (v : Bool) : (s.setXoutf v).draws = s.draws := rfl
@[simp] theorem State.setXoutf_inputs (s : State) (v : Bool) : (s.setXoutf v).inputs = s.inputs := rfl
@[simp] theorem State.setXoutf_waiting (s : State) (v : Bool) : (s.setXoutf v).waiting = s.waiting := rfl
@[simp] theorem State.setXoutf_cfg (s : State) (v : Bool) : (s.setXoutf v).cfg = s.cfg := rfl

@[simp] theorem State.setLast_a (s : State) (v : Last) : (s.setLast v).a = s.a := rfl
@[simp] theorem State.setLast_x (s : State) (v : Last) : (s.setLast v).x = s.x := rfl
@[simp] theorem State.setLast_y (s : State) (v : Last) : (s.setLast v).y = s.y := rfl
@[simp] theorem State.setLast_s (s : State) (v : Last) : (s.setLast v).s = s.s := rfl
@[simp] theorem State.setLast_pc (s : State) (v : Last) : (s.setLast v).pc = s.pc := rfl
@[simp] theorem State.setLast_ps (s : State) (v : Last) : (s.setLast v).ps = s.ps := rfl
@[simp] theorem State.setLast_mem (s : State) (v : Last) : (s.setLast v).mem = s.mem := rfl
@[simp] theorem State.setLast_clk (s : State) (v : Last) : (s.setLast v).clk = s.clk := rfl
@[simp] theorem State.setLast_xoutf (s : State) (v : Last) : (s.setLast v).xoutf = s.xoutf := rfl
@[simp] theorem State.setLast_last (s : State) (v : Last) : (s.setLast v).last = v := rfl
@[simp] theorem State.setLast_draws (s : State) (v : Last) : (s.setLast v).draws = s.draws := rfl
@[simp] theorem State.setLast_inputs (s : State) (v : Last) : (s.setLast v).inputs = s.inputs := rfl
@[simp] theorem State.setLast_waiting (s : State) (v : Last) : (s.setLast v).waiting = s.waiting := rfl
@[simp] theorem State.setLast_cfg (s : State) (v : Last) : (s.setLast v).cfg = s.cfg := rfl

@[simp] theorem State.setDraws_a (s : State) (v : Nat) : (s.setDraws v).a = s.a := rfl
@[simp] theorem State.setDraws_x (s : State) (v : Nat) : (s.setDraws v).x = s.x := rfl
@[simp] theorem State.setDraws_y (s : State) (v : Nat) : (s.setDraws v).y = s.y := rfl
@[simp] theorem State.setDraws_s (s : State) (v : Nat) : (s.setDraws v).s = s.s := rfl
@[simp] theorem State.setDraws_pc (s : State) (v : Nat) : (s.setDraws v).pc = s.pc := rfl
@[simp] theorem State.setDraws_ps (s : State) (v : Nat) : (s.setDraws v).ps = s.ps := rfl
@[simp] theorem State.setDraws_mem (s : State) (v : Nat) : (s.setDraws v).mem = s.mem := rfl
@[simp] theorem State.setDraws_clk (s : State) (v : Nat) : (s.setDraws v).clk = s.clk := rfl
@[simp] theorem State.setDraws_xoutf (s : State) (v : Nat) : (s.setDraws v).xoutf = s.xoutf := rfl
@[simp] theorem State.setDraws_last (s : State) (v : Nat) : (s.setDraws v).last = s.last := rfl
@[simp] theorem State.setDraws_draws (s : State) (v : Nat) : (s.setDraws v).draws = v := rfl
@[simp] theorem State.setDraws_inputs (s : State) (v : Nat) : (s.setDraws v).inputs = s.inputs := rfl
@[simp] theorem State.setDraws_waiting (s : State) (v : Nat) : (s.setDraws v).waiting = s.waiting := rfl
@[simp] theorem State.setDraws_cfg (s : State) (v : Nat) : (s.setDraws v).cfg = s.cfg := rfl

@[simp] theorem State.setWaiting_a (s : State) (v : List (IrqSource × Nat)) : (s.setWaiting v).a = s.a := rfl
@[simp] theorem State.setWaiting_x (s : State) (v : List (IrqSource × Nat)) : (s.setWaiting v).x = s.x := rfl
@[simp] theorem State.setWaiting_y (s : State) (v : List (IrqSource × Nat)) : (s.setWaiting v).y = s.y := rfl
@[simp] theorem State.setWaiting_s (s : State) (v : List (IrqSource × Nat)) : (s.setWaiting v).s = s.s := rfl
@[simp] theorem State.setWaiting_pc (s : State) (v : List (IrqSource × Nat)) : (s.setWaiting v).pc = s.pc := rfl
@[simp] theorem State.setWaiting_ps (s : State) (v : List (IrqSource × Nat)) : (s.setWaiting v).ps = s.ps := rfl
@[simp] theorem State.setWaiting_mem (s : State) (v : List (IrqSource × Nat)) : (s.setWaiting v).mem = s.mem := rfl
@[simp] theorem State.setWaiting_clk (s : State) (v : List (IrqSource × Nat)) : (s.setWaiting v).clk = s.clk := rfl
@[simp] theorem State.setWaiting_xoutf (s : State) (v : List (IrqSource × Nat)) : (s.setWaiting v).xoutf = s.xoutf := rfl
@[simp] theorem State.setWaiting_last (s : State) (v : List (IrqSource × Nat)) : (s.setWaiting v).last = s.last := rfl
@[simp] theorem State.setWaiting_draws (s : State) (v : List (IrqSource × Nat)) : (s.setWaiting v).draws = s.draws := rfl
@[simp] theorem State.setWaiting_inputs (s : State) (v : List (IrqSource × Nat)) : (s.setWaiting v).inputs = s.inputs := rfl
@[simp] theorem State.setWaiting_cfg (s : State) (v : List (IrqSource × Nat)) : (s.setWaiting v).cfg = s.cfg := rfl
@[simp] theorem State.setWaiting_waiting (s : State) (v : List (IrqSource × Nat)) : (s.setWaiting v).waiting = v := rfl

@[simp] theorem State.setInputs_a (s : State) (v : List EnvEvent) : (s.setInputs v).a = s.a := rfl
@[simp] theorem State.setInputs_x (s : State) (v : List EnvEvent) : (s.setInputs v).x = s.x := rfl
@[simp] theorem State.setInputs_y (s : State) (v : List EnvEvent) : (s.setInputs v).y = s.y := rfl
@[simp] theorem State.setInputs_s (s : State) (v : List EnvEvent) : (s.setInputs v).s = s.s := rfl
@[simp] theorem State.setInputs_pc (s : State) (v : List EnvEvent) : (s.setInputs v).pc = s.pc := rfl
@[simp] theorem State.setInputs_ps (s : State) (v : List EnvEvent) : (s.setInputs v).ps = s.ps := rfl
@[simp] theorem State.setInputs_mem (s : State) (v : List EnvEvent) : (s.setInputs v).mem = s.mem := rfl
@[simp] theorem State.setInputs_clk (s : State) (v : List EnvEvent) : (s.setInputs v).clk = s.clk := rfl
@[simp] theorem State.setInputs_xoutf (s : State) (v : List EnvEvent) : (s.setInputs v).xoutf = s.xoutf := rfl
@[simp] theorem State.setInputs_last (s : State) (v : List EnvEvent) : (s.setInputs v).last = s.last := rfl
@[simp] theorem State.setInputs_draws (s : State) (v : List EnvEvent) : (s.setInputs v).draws = s.draws := rfl
@[simp] theorem State.setInputs_inputs (s : State) (v : List EnvEvent) : (s.setInputs v).inputs = v := rfl
@[simp] theorem State.setInputs_waiting (s : State) (v : List EnvEvent) : (s.setInputs v).waiting = s.waiting := rfl
@[simp] theorem State.setInputs_cfg (s : State) (v : List EnvEvent) : (s.setInputs v).cfg = s.cfg := rfl

/-- Two states with the same fields are the same. -/
theorem State.eq_of_fields {s t : State} (ha : s.a = t.a) (hx : s.x = t.x) (hy : s.y = t.y) (hs : s.s = t.s)
    (hpc : s.pc = t.pc) (hps : s.ps = t.ps) (hmem : s.mem = t.mem) (hclk : s.clk = t.clk) (hxoutf : s.xoutf = t.xoutf)
    (hlast : s.last = t.last) (hdraws : s.draws = t.draws) (hwaiting : s.waiting = t.waiting)
    (hinputs : s.inputs = t.inputs) (hcfg : s.cfg = t.cfg) : s = t := by
  cases s; cases t; simp_all

/-- The updates commute; the ones the proofs use. -/
theorem State.setPs_setA (s : State) (p : PS) (v : Byte) : (s.setPs p).setA v = (s.setA v).setPs p := rfl
theorem State.setPc_setPs (s : State) (a : Addr) (p : PS) : (s.setPc a).setPs p = (s.setPs p).setPc a := rfl

end Sys2Proof.Machine
end

