-- ==== Sys2Proof/Laws/Ops.lean ====
section
/-! SUPPORT. For each shared operation over memory and the stack, one lemma that says everything it can do: it answers
next if and only if ..., and then the answer is ....  Proofs cite these instead of unfolding the operations. -/

namespace Sys2Proof.Machine

/-! ### Sequencing -/

@[simp] theorem andThen_next {α β : Type} (a : α) (f : α → Res β) : andThen (.next a) f = f a := rfl
@[simp] theorem andThen_fault {α β : Type} (e : Fault) (f : α → Res β) : andThen (.fault e) f = .fault e := rfl
@[simp] theorem andThen_refused {α β : Type} (e : Refusal) (f : α → Res β) : andThen (.refused e) f = .refused e := rfl

theorem andThen_eq_next {α β : Type} {r : Res α} {f : α → Res β} {b : β} :
    andThen r f = .next b ↔ ∃ a, r = .next a ∧ f a = .next b := by
  cases r <;> simp

/-! ### A store that goes through -/

@[simp] theorem State.put_a (s : State) (a : Addr) (v : Byte) : (s.put a v).a = s.a := by
  unfold State.put; split <;> rfl
@[simp] theorem State.put_x (s : State) (a : Addr) (v : Byte) : (s.put a v).x = s.x := by
  unfold State.put; split <;> rfl
@[simp] theorem State.put_y (s : State) (a : Addr) (v : Byte) : (s.put a v).y = s.y := by
  unfold State.put; split <;> rfl
@[simp] theorem State.put_s (s : State) (a : Addr) (v : Byte) : (s.put a v).s = s.s := by
  unfold State.put; split <;> rfl
@[simp] theorem State.put_pc (s : State) (a : Addr) (v : Byte) : (s.put a v).pc = s.pc := by
  unfold State.put; split <;> rfl
@[simp] theorem State.put_ps (s : State) (a : Addr) (v : Byte) : (s.put a v).ps = s.ps := by
  unfold State.put; split <;> rfl
@[simp] theorem State.put_clk (s : State) (a : Addr) (v : Byte) : (s.put a v).clk = s.clk := by
  unfold State.put; split <;> rfl
@[simp] theorem State.put_xoutf (s : State) (a : Addr) (v : Byte) : (s.put a v).xoutf = s.xoutf := by
  unfold State.put; split <;> rfl
@[simp] theorem State.put_draws (s : State) (a : Addr) (v : Byte) : (s.put a v).draws = s.draws := by
  unfold State.put; split <;> rfl
@[simp] theorem State.put_waiting (s : State) (a : Addr) (v : Byte) : (s.put a v).waiting = s.waiting := by
  unfold State.put; split <;> rfl
@[simp] theorem State.put_inputs (s : State) (a : Addr) (v : Byte) : (s.put a v).inputs = s.inputs := by
  unfold State.put; split <;> rfl
@[simp] theorem State.put_cfg (s : State) (a : Addr) (v : Byte) : (s.put a v).cfg = s.cfg := by
  unfold State.put; split <;> rfl
@[simp] theorem State.put_last_changed (s : State) (a : Addr) (v : Byte) : (s.put a v).last.changed = s.last.changed := by
  unfold State.put; split <;> rfl
@[simp] theorem State.put_last_kind (s : State) (a : Addr) (v : Byte) : (s.put a v).last.kind = s.last.kind := by
  unfold State.put; split <;> rfl

@[simp] theorem State.put_last_forced (s : State) (a : Addr) (v : Byte) : (s.put a v).last.forced = s.last.forced := by
  unfold State.put; split <;> rfl

theorem State.put_mem (s : State) (a : Addr) (v : Byte) :
    (s.put a v).mem = if s.writable a then s.mem.write a.toNat v else s.mem := by
  unfold State.put; split <;> rfl

/-- A store is recorded where memory takes it (R379). -/
theorem State.put_last_written (s : State) (a : Addr) (v : Byte) :
    (s.put a v).last.written = if s.writable a then a :: s.last.written else s.last.written := by
  unfold State.put; split <;> rfl

/-- A store changes no other byte. -/
theorem State.byteAt_put_ne (s : State) {a b : Addr} (v : Byte) (h : b ≠ a) : (s.put a v).byteAt b = s.byteAt b := by
  unfold State.byteAt
  rw [State.put_mem]
  split
  · exact Memory.read_write_ne (fun e => h (BitVec.eq_of_toNat_eq e.symm))
  · rfl

/-- A store to memory that takes it is read back. -/
theorem State.byteAt_put_same (s : State) {a : Addr} (v : Byte) (hm : s.mem.wf = true) (hw : s.writable a = true) :
    (s.put a v).byteAt a = v := by
  unfold State.byteAt
  rw [State.put_mem, if_pos hw]
  exact Memory.read_write_same hm

/-- A store keeps the canonical form. -/
theorem State.wf_put (s : State) (a : Addr) (v : Byte) (hm : s.mem.wf = true) : (s.put a v).mem.wf = true := by
  rw [State.put_mem]
  split
  · exact Memory.wf_write hm a.isLt
  · exact hm

/-- What a read answers. -/
theorem load_eq_next {s : State} {a : Addr} {v : Byte} : load s a = .next v ↔ s.present a = true ∧ v = s.peek a := by
  unfold load
  cases s.present a <;> simp [eq_comm]

theorem load_of_present {s : State} {a : Addr} (h : s.present a = true) : load s a = .next (s.peek a) :=
  load_eq_next.mpr ⟨h, rfl⟩

/-- What a store answers. -/
theorem store_eq_next {s t : State} {a : Addr} {v : Byte} :
    store s a v = .next t ↔ s.storable a v = true ∧ t = s.put a v := by
  unfold store State.storable
  cases kindAt s.cfg a <;> cases s.setsRequest a v <;> simp [eq_comm]

theorem store_of_storable {s : State} {a : Addr} {v : Byte} (h : s.storable a v = true) :
    store s a v = .next (s.put a v) := store_eq_next.mpr ⟨h, rfl⟩

/-- What a 16-bit read answers. -/
theorem read16_eq_next {s : State} {a t : Addr} : read16 s a = .next t ↔
    s.present a = true ∧ s.present (a + 1) = true ∧ t = joinAddr (s.peek (a + 1)) (s.peek a) := by
  simp only [read16, andThen_eq_next, load_eq_next]
  constructor
  · rintro ⟨lo, ⟨h1, rfl⟩, hi, ⟨h2, rfl⟩, h3⟩
    exact ⟨h1, h2, by injection h3 with h3; exact h3.symm⟩
  · rintro ⟨h1, h2, rfl⟩
    exact ⟨_, ⟨h1, rfl⟩, _, ⟨h2, rfl⟩, rfl⟩

/-- What a zero-page pointer read answers. -/
theorem readZp16_eq_next {s : State} {z : Byte} {t : Addr} : readZp16 s z = .next t ↔
    s.present (zeroPage z) = true ∧ s.present (zeroPage (z + 1)) = true ∧
      t = joinAddr (s.peek (zeroPage (z + 1))) (s.peek (zeroPage z)) := by
  simp only [readZp16, andThen_eq_next, load_eq_next]
  constructor
  · rintro ⟨lo, ⟨h1, rfl⟩, hi, ⟨h2, rfl⟩, h3⟩
    exact ⟨h1, h2, by injection h3 with h3; exact h3.symm⟩
  · rintro ⟨h1, h2, rfl⟩
    exact ⟨_, ⟨h1, rfl⟩, _, ⟨h2, rfl⟩, rfl⟩

/-! ### The stack -/

@[simp] theorem State.pushed_a (s : State) (v : Byte) : (s.pushed v).a = s.a := by simp [State.pushed]
@[simp] theorem State.pushed_x (s : State) (v : Byte) : (s.pushed v).x = s.x := by simp [State.pushed]
@[simp] theorem State.pushed_y (s : State) (v : Byte) : (s.pushed v).y = s.y := by simp [State.pushed]
@[simp] theorem State.pushed_s (s : State) (v : Byte) : (s.pushed v).s = s.s - 1 := by simp [State.pushed]
@[simp] theorem State.pushed_pc (s : State) (v : Byte) : (s.pushed v).pc = s.pc := by simp [State.pushed]
@[simp] theorem State.pushed_ps (s : State) (v : Byte) : (s.pushed v).ps = s.ps := by simp [State.pushed]
@[simp] theorem State.pushed_clk (s : State) (v : Byte) : (s.pushed v).clk = s.clk := by simp [State.pushed]
@[simp] theorem State.pushed_xoutf (s : State) (v : Byte) : (s.pushed v).xoutf = s.xoutf := by simp [State.pushed]
@[simp] theorem State.pushed_draws (s : State) (v : Byte) : (s.pushed v).draws = s.draws := by simp [State.pushed]
@[simp] theorem State.pushed_waiting (s : State) (v : Byte) : (s.pushed v).waiting = s.waiting := by simp [State.pushed]
@[simp] theorem State.pushed_inputs (s : State) (v : Byte) : (s.pushed v).inputs = s.inputs := by simp [State.pushed]
@[simp] theorem State.pushed_cfg (s : State) (v : Byte) : (s.pushed v).cfg = s.cfg := by simp [State.pushed]
@[simp] theorem State.pushed_last_kind (s : State) (v : Byte) : (s.pushed v).last.kind = s.last.kind := by
  simp [State.pushed]
@[simp] theorem State.pushed_last_changed (s : State) (v : Byte) : (s.pushed v).last.changed = s.last.changed := by
  simp [State.pushed]
@[simp] theorem State.pushed_last_forced (s : State) (v : Byte) : (s.pushed v).last.forced = s.last.forced := by
  simp [State.pushed]

/-- A push changes no byte but the one at the stack address. -/
theorem State.byteAt_pushed_ne (s : State) {b : Addr} (v : Byte) (h : b ≠ s.stackAddr) :
    (s.pushed v).byteAt b = s.byteAt b := State.byteAt_put_ne s v h

/-- What a push answers. -/
theorem push8_eq_next {s t : State} {v : Byte} :
    push8 s v = .next t ↔ s.storable s.stackAddr v = true ∧ t = s.pushed v := by
  simp only [push8, andThen_eq_next, store_eq_next]
  constructor
  · rintro ⟨s', ⟨h, rfl⟩, h'⟩
    injection h' with h'
    exact ⟨h, by rw [← h', State.pushed, State.put_s]⟩
  · rintro ⟨h, rfl⟩
    exact ⟨_, ⟨h, rfl⟩, by rw [State.pushed, State.put_s]⟩

theorem push8_of_storable {s : State} {v : Byte} (h : s.storable s.stackAddr v = true) :
    push8 s v = .next (s.pushed v) := push8_eq_next.mpr ⟨h, rfl⟩

/-- The state after a 16-bit push: what it answers. -/
theorem pushAddr_eq_next {s t : State} {a : Addr} : pushAddr s a = .next t ↔
    s.storable s.stackAddr (hiByte a) = true ∧
    (s.pushed (hiByte a)).storable (s.pushed (hiByte a)).stackAddr (loByte a) = true ∧
    t = (s.pushed (hiByte a)).pushed (loByte a) := by
  simp only [pushAddr, andThen_eq_next, push8_eq_next]
  constructor
  · rintro ⟨s', ⟨h, rfl⟩, h', rfl⟩; exact ⟨h, h', rfl⟩
  · rintro ⟨h, h', rfl⟩; exact ⟨_, ⟨h, rfl⟩, h', rfl⟩

/-- Where the next pull reads. -/
theorem State.stackAddr_setS (s : State) (v : Byte) : (s.setS v).stackAddr = joinAddr s.stackPage v := rfl

/-- What a pull answers. -/
theorem pull8_eq_next {s : State} {p : Byte × State} : pull8 s = .next p ↔
    s.present (joinAddr s.stackPage (s.s + 1)) = true ∧
      p = (s.peek (joinAddr s.stackPage (s.s + 1)), s.setS (s.s + 1)) := by
  simp only [pull8, andThen_eq_next, load_eq_next, State.stackAddr_setS]
  constructor
  · rintro ⟨v, ⟨h, rfl⟩, h'⟩
    injection h' with h'
    exact ⟨h, h'.symm⟩
  · rintro ⟨h, rfl⟩
    exact ⟨_, ⟨h, rfl⟩, rfl⟩

/-- What a 16-bit pull answers. -/
theorem pullAddr_eq_next {s : State} {p : Addr × State} : pullAddr s = .next p ↔
    s.present (joinAddr s.stackPage (s.s + 1)) = true ∧ s.present (joinAddr s.stackPage (s.s + 1 + 1)) = true ∧
      p = (joinAddr (s.peek (joinAddr s.stackPage (s.s + 1 + 1))) (s.peek (joinAddr s.stackPage (s.s + 1))),
        s.setS (s.s + 1 + 1)) := by
  simp only [pullAddr, andThen_eq_next, pull8_eq_next]
  constructor
  · rintro ⟨lo, ⟨h1, rfl⟩, hi, ⟨h2, rfl⟩, h3⟩
    injection h3 with h3
    exact ⟨h1, h2, h3.symm⟩
  · rintro ⟨h1, h2, rfl⟩
    exact ⟨_, ⟨h1, rfl⟩, _, ⟨h2, rfl⟩, rfl⟩

/-! ### Bits the hardware changes -/

@[simp] theorem State.hardwareBit_a (s : State) (l : BitLoc) (x : Bool) : (s.hardwareBit l x).a = s.a := by
  unfold State.hardwareBit; split <;> rfl
@[simp] theorem State.hardwareBit_x (s : State) (l : BitLoc) (x : Bool) : (s.hardwareBit l x).x = s.x := by
  unfold State.hardwareBit; split <;> rfl
@[simp] theorem State.hardwareBit_y (s : State) (l : BitLoc) (x : Bool) : (s.hardwareBit l x).y = s.y := by
  unfold State.hardwareBit; split <;> rfl
@[simp] theorem State.hardwareBit_s (s : State) (l : BitLoc) (x : Bool) : (s.hardwareBit l x).s = s.s := by
  unfold State.hardwareBit; split <;> rfl
@[simp] theorem State.hardwareBit_pc (s : State) (l : BitLoc) (x : Bool) : (s.hardwareBit l x).pc = s.pc := by
  unfold State.hardwareBit; split <;> rfl
@[simp] theorem State.hardwareBit_ps (s : State) (l : BitLoc) (x : Bool) : (s.hardwareBit l x).ps = s.ps := by
  unfold State.hardwareBit; split <;> rfl
@[simp] theorem State.hardwareBit_clk (s : State) (l : BitLoc) (x : Bool) : (s.hardwareBit l x).clk = s.clk := by
  unfold State.hardwareBit; split <;> rfl
@[simp] theorem State.hardwareBit_xoutf (s : State) (l : BitLoc) (x : Bool) : (s.hardwareBit l x).xoutf = s.xoutf := by
  unfold State.hardwareBit; split <;> rfl
@[simp] theorem State.hardwareBit_last (s : State) (l : BitLoc) (x : Bool) : (s.hardwareBit l x).last = s.last := by
  unfold State.hardwareBit; split <;> rfl
@[simp] theorem State.hardwareBit_draws (s : State) (l : BitLoc) (x : Bool) : (s.hardwareBit l x).draws = s.draws := by
  unfold State.hardwareBit; split <;> rfl
@[simp] theorem State.hardwareBit_waiting (s : State) (l : BitLoc) (x : Bool) : (s.hardwareBit l x).waiting = s.waiting := by
  unfold State.hardwareBit; split <;> rfl
@[simp] theorem State.hardwareBit_inputs (s : State) (l : BitLoc) (x : Bool) : (s.hardwareBit l x).inputs = s.inputs := by
  unfold State.hardwareBit; split <;> rfl
@[simp] theorem State.hardwareBit_cfg (s : State) (l : BitLoc) (x : Bool) : (s.hardwareBit l x).cfg = s.cfg := by
  unfold State.hardwareBit; split <;> rfl

theorem State.byteAt_hardwareBit_ne (s : State) {l : BitLoc} {b : Addr} (x : Bool) (h : b ≠ l.addr) :
    (s.hardwareBit l x).byteAt b = s.byteAt b := by
  unfold State.hardwareBit
  split
  · exact Memory.read_write_ne (fun e => h (BitVec.eq_of_toNat_eq e.symm))
  · rfl

theorem State.wf_hardwareBit (s : State) (l : BitLoc) (x : Bool) (hm : s.mem.wf = true) :
    (s.hardwareBit l x).mem.wf = true := by
  unfold State.hardwareBit
  split
  · exact Memory.wf_write hm l.addr.isLt
  · exact hm

/-- A bit the hardware writes reads as written, where there is memory to hold it. -/
theorem State.bitAt_hardwareBit_same (s : State) (l : BitLoc) (x : Bool) (hm : s.mem.wf = true)
    (hw : s.writable l.addr = true) : (s.hardwareBit l x).bitAt l = x := by
  have h : ∀ (b : BitNo) (x : Bool) (v : Byte), testBit b (putBit b x v) = x := by decide
  unfold State.hardwareBit
  rw [if_pos hw]
  unfold State.bitAt State.byteAt
  rw [State.setMem_mem, Memory.read_write_same hm, h]

/-- Every other bit stays as it is, in the same byte too. -/
theorem State.bitAt_hardwareBit_ne (s : State) {l l' : BitLoc} (x : Bool) (hm : s.mem.wf = true) (h : l' ≠ l) :
    (s.hardwareBit l x).bitAt l' = s.bitAt l' := by
  have hb : ∀ (b c : BitNo) (x : Bool) (v : Byte), c ≠ b → testBit c (putBit b x v) = testBit c v := by decide
  by_cases ha : l'.addr = l.addr
  · have hne : l'.bit ≠ l.bit := fun e => h (by cases l; cases l'; simp_all)
    unfold State.hardwareBit
    split
    · unfold State.bitAt State.byteAt
      rw [State.setMem_mem, ha, Memory.read_write_same hm, hb _ _ _ _ hne]
    · rfl
  · unfold State.bitAt
    rw [State.byteAt_hardwareBit_ne _ _ ha]

/-! ### Exceptions -/

/-- What an entry answers: the three pushes go through, the vector can be read, and the state is the pushed one with I set,
the request acknowledged and PC from the vector. -/
theorem takeException_eq_next {s t : State} {ret : Addr} {b : Bool} {request : Option BitLoc} {vector : Addr} :
    takeException s ret b request vector = .next t ↔ ∃ s1 s2 : State, ∃ target : Addr,
      pushAddr s ret = .next s1 ∧ push8 s1 (s.ps.toByte b) = .next s2 ∧
      read16 ((s2.setPs { s.ps with i := true }).acknowledge request) vector = .next target ∧
      t = ((s2.setPs { s.ps with i := true }).acknowledge request).setPc target := by
  simp only [takeException, andThen_eq_next]
  constructor
  · rintro ⟨s1, h1, s2, h2, target, h3, h4⟩
    injection h4 with h4
    exact ⟨s1, s2, target, h1, h2, h3, h4.symm⟩
  · rintro ⟨s1, s2, target, h1, h2, h3, rfl⟩
    exact ⟨s1, h1, s2, h2, target, h3, rfl⟩

/-- What a return answers: three pulls, PS first. -/
theorem returnFromException_eq_next {s t : State} : returnFromException s = .next t ↔
    ∃ b : Byte × State, ∃ ret : Addr × State,
      pull8 s = .next b ∧ pullAddr (b.2.setPs (PS.ofByte b.1)) = .next ret ∧ t = ret.2.setPc ret.1 := by
  simp only [returnFromException, andThen_eq_next]
  constructor
  · rintro ⟨b, h1, ret, h2, h3⟩
    injection h3 with h3
    exact ⟨b, ret, h1, h2, h3.symm⟩
  · rintro ⟨b, ret, h1, h2, rfl⟩
    exact ⟨b, h1, ret, h2, rfl⟩

end Sys2Proof.Machine
end

