-- ==== Sys2Proof/Laws/Operands.lean ====
section
/-! SUPPORT. For each way an instruction uses its operand, one lemma that says everything it can do. -/

namespace Sys2Proof.Machine

/-- What reading a memory operand answers. -/
theorem readSource_mem_eq_next {s : State} {m : MemMode} {v : Byte} : readSource s (.mem m) = .next v ↔
    ∃ a, effectiveAddr s m = .next a ∧ s.present a = true ∧ v = s.peek a := by
  simp only [readSource, andThen_eq_next, load_eq_next]

@[simp] theorem readSource_imm (s : State) (nn : Byte) : readSource s (.imm nn) = .next nn := rfl

/-- What a store through an addressing mode answers. -/
theorem storeTo_eq_next {s t : State} {m : MemMode} {v : Byte} : storeTo s m v = .next t ↔
    ∃ a, effectiveAddr s m = .next a ∧ s.storable a v = true ∧ t = s.put a v := by
  simp only [storeTo, andThen_eq_next, store_eq_next]

/-- What a change of A answers. -/
@[simp] theorem modifyPlace_acc (s : State) (f : PS → Byte → Byte × PS) :
    modifyPlace s .acc f = .next ((s.setA (f s.ps s.a).1).setPs (f s.ps s.a).2) := rfl

/-- What a change of a byte of memory answers. -/
theorem modifyPlace_mem_eq_next {s t : State} {m : MemMode} {f : PS → Byte → Byte × PS} :
    modifyPlace s (.mem m) f = .next t ↔ ∃ a, effectiveAddr s m = .next a ∧ s.present a = true ∧
      s.storable a (f s.ps (s.peek a)).1 = true ∧
      t = (s.put a (f s.ps (s.peek a)).1).setPs (f s.ps (s.peek a)).2 := by
  simp only [modifyPlace, andThen_eq_next, load_eq_next, store_eq_next]
  constructor
  · rintro ⟨a, h1, v, ⟨h2, rfl⟩, s', ⟨h3, rfl⟩, h4⟩
    injection h4 with h4
    exact ⟨a, h1, h2, h3, h4.symm⟩
  · rintro ⟨a, h1, h2, h3, rfl⟩
    exact ⟨a, h1, _, ⟨h2, rfl⟩, _, ⟨h3, rfl⟩, rfl⟩

@[simp] theorem readPlace_acc (s : State) : readPlace s .acc = .next s.a := rfl

/-- The first operand is A when T = 0. -/
theorem op1_of_not_t {s : State} (h : s.ps.t = false) : op1 s = .next s.a := by simp [op1, h]

/-- The first operand is M(X) when T = 1. -/
theorem op1_of_t {s : State} (h : s.ps.t = true) : op1 s = load s (zeroPage s.x) := by simp [op1, h]

/-- The result goes to A when T = 0. -/
theorem setOp1_of_not_t {s : State} (v : Byte) (h : s.ps.t = false) : setOp1 s v = .next (s.setA v) := by
  simp [setOp1, h]

/-- The result goes to M(X) when T = 1. -/
theorem setOp1_of_t {s : State} (v : Byte) (h : s.ps.t = true) : setOp1 s v = store s (zeroPage s.x) v := by
  simp [setOp1, h]

/-- What storing a result answers. -/
theorem setOp1_eq_next {s t : State} {v : Byte} : setOp1 s v = .next t ↔
    (s.ps.t = false ∧ t = s.setA v) ∨
    (s.ps.t = true ∧ s.storable (zeroPage s.x) v = true ∧ t = s.put (zeroPage s.x) v) := by
  cases h : s.ps.t
  · rw [setOp1_of_not_t v h]; simpa using eq_comm
  · rw [setOp1_of_t v h, store_eq_next]; simp

/-- What a two-operand instruction answers. -/
theorem aluOp_eq_next {s t : State} {m : AluSrc} {f : PS → Byte → Byte → Byte × PS} : aluOp s m f = .next t ↔
    ∃ v a s', readSource s (sourceOfAlu m) = .next v ∧ op1 s = .next a ∧
      setOp1 s (f s.ps a v).1 = .next s' ∧ t = s'.setPs (f s.ps a v).2 := by
  simp only [aluOp, andThen_eq_next]
  constructor
  · rintro ⟨v, h1, a, h2, s', h3, h4⟩
    injection h4 with h4
    exact ⟨v, a, s', h1, h2, h3, h4.symm⟩
  · rintro ⟨v, a, s', h1, h2, h3, rfl⟩
    exact ⟨v, h1, a, h2, s', h3, rfl⟩

/-- What a branch answers. -/
theorem branchIf_eq_next {s t : State} {cond : Bool} {rr : Byte} :
    branchIf s cond rr = .next t ↔ t = if cond then s.setPc (s.relative rr) else s := by
  simp [branchIf, eq_comm]

end Sys2Proof.Machine
end

