-- ==== Sys2Proof/Laws/Exec.lean ====
section
/-! SUPPORT. What each instruction can do, said once: `Effect i s t` is the shape of a next state `t` of `exec i s`, and
`exec_effect` says that every next state has it.  Frame lemmas are read from the shape; nothing needs to unfold the
meanings again.  The values written are left open here: the per-instruction statements say them. -/

namespace Sys2Proof.Machine

/-- A two-operand instruction writes A when T = 0 and M(X) when T = 1. -/
theorem aluOp_effect {s t : State} {m : AluSrc} {f : PS → Byte → Byte → Byte × PS} (h : aluOp s m f = .next t) :
    ∃ v a, readSource s (sourceOfAlu m) = .next v ∧ op1 s = .next a ∧
      ((s.ps.t = false ∧ t = (s.setA (f s.ps a v).1).setPs (f s.ps a v).2) ∨
       (s.ps.t = true ∧ t = (s.put (zeroPage s.x) (f s.ps a v).1).setPs (f s.ps a v).2)) := by
  obtain ⟨v, a, s', h1, h2, h3, rfl⟩ := aluOp_eq_next.mp h
  refine ⟨v, a, h1, h2, ?_⟩
  rcases setOp1_eq_next.mp h3 with ⟨ht, rfl⟩ | ⟨ht, _, rfl⟩
  · exact .inl ⟨ht, rfl⟩
  · exact .inr ⟨ht, rfl⟩

/-- A change in place writes A or the byte at the effective address. -/
theorem modifyPlace_effect {s t : State} {p : Place} {f : PS → Byte → Byte × PS} (h : modifyPlace s p f = .next t) :
    (p = .acc ∧ t = (s.setA (f s.ps s.a).1).setPs (f s.ps s.a).2) ∨
    ∃ m a v, p = .mem m ∧ effectiveAddr s m = .next a ∧ t = (s.put a (f s.ps v).1).setPs (f s.ps v).2 := by
  cases p with
  | acc =>
    rw [modifyPlace_acc] at h
    injection h with h
    exact .inl ⟨rfl, h.symm⟩
  | mem m =>
    obtain ⟨a, h1, -, -, h4⟩ := modifyPlace_mem_eq_next.mp h
    exact .inr ⟨m, a, _, rfl, h1, h4⟩

/-- An entry without a request to acknowledge pushes three bytes, sets I and loads PC. -/
theorem takeException_effect {s t : State} {r v : Addr} {b : Bool} (h : takeException s r b none v = .next t) :
    ∃ x y z pc, t = ((((s.pushed x).pushed y).pushed z).setPs { s.ps with i := true }).setPc pc := by
  obtain ⟨s1, s2, tg, h1, h2, h3, rfl⟩ := takeException_eq_next.mp h
  obtain ⟨-, -, rfl⟩ := pushAddr_eq_next.mp h1
  obtain ⟨-, rfl⟩ := push8_eq_next.mp h2
  exact ⟨_, _, _, _, rfl⟩

/-- A branch leaves everything but PC. -/
theorem branchIf_effect {s t : State} {c : Bool} {rr : Byte} (h : branchIf s c rr = .next t) :
    t = s ∨ ∃ a, t = s.setPc a := by
  unfold branchIf at h
  injection h with h
  subst h
  split
  · exact .inr ⟨_, rfl⟩
  · exact .inl rfl

/-- The result `r` and PS `p` of a two-operand instruction, in A or in M(X). -/
def AluEffect (s : State) (r : Byte) (p : PS) (t : State) : Prop :=
  (s.ps.t = false ∧ t = (s.setA r).setPs p) ∨ (s.ps.t = true ∧ t = (s.put (zeroPage s.x) r).setPs p)

/-- The result `r` and PS `p` of a change in place. -/
def PlaceEffect (s : State) (place : Place) (r : Byte) (p : PS) (t : State) : Prop :=
  (place = .acc ∧ t = (s.setA r).setPs p) ∨
  ∃ m a, place = .mem m ∧ effectiveAddr s m = .next a ∧ t = (s.put a r).setPs p

/-- The shape of a next state of `exec i s`. -/
def Effect (s : State) (t : State) : Instr → Prop
  | .lda _ => ∃ v, AluEffect s v (s.ps.setNZ v) t
  | .ldx _ => ∃ v, t = (s.setX v).setPs (s.ps.setNZ v)
  | .ldy _ => ∃ v, t = (s.setY v).setPs (s.ps.setNZ v)
  | .ldm nn zz => t = s.put (zeroPage zz) nn
  | .sta d => ∃ a, effectiveAddr s (modeOfSta d) = .next a ∧ t = s.put a s.a
  | .stx d => ∃ a, effectiveAddr s (modeOfStx d) = .next a ∧ t = s.put a s.x
  | .sty d => ∃ a, effectiveAddr s (modeOfSty d) = .next a ∧ t = s.put a s.y
  | .tax => t = (s.setX s.a).setPs (s.ps.setNZ s.a)
  | .tay => t = (s.setY s.a).setPs (s.ps.setNZ s.a)
  | .txa => t = (s.setA s.x).setPs (s.ps.setNZ s.x)
  | .tya => t = (s.setA s.y).setPs (s.ps.setNZ s.y)
  | .tsx => t = (s.setX s.s).setPs (s.ps.setNZ s.s)
  | .txs => t = s.setS s.x
  | .adc _ | .sbc _ => ∃ r n v z c, AluEffect s r { s.ps with n := n, v := v, z := z, c := c } t
  | .and _ | .ora _ | .eor _ => ∃ r n z, AluEffect s r { s.ps with n := n, z := z } t
  | .cmp _ | .cpx _ | .cpy _ => ∃ n z c, t = s.setPs { s.ps with n := n, z := z, c := c }
  | .bit _ => ∃ n v z, t = s.setPs { s.ps with n := n, z := z, v := v }
  | .tst _ => ∃ n z, t = s.setPs { s.ps with n := n, z := z }
  | .com zz => ∃ r n z, t = (s.put (zeroPage zz) r).setPs { s.ps with n := n, z := z }
  | .rrf zz => ∃ r, t = (s.put (zeroPage zz) r).setPs s.ps
  | .inc p | .dec p => ∃ r n z, PlaceEffect s (placeOfRmw p) r { s.ps with n := n, z := z } t
  | .asl p | .lsr p | .rol p | .ror p =>
    ∃ r n z c, PlaceEffect s (placeOfRmw p) r { s.ps with n := n, z := z, c := c } t
  | .clb _ p | .seb _ p => ∃ r, PlaceEffect s (placeOfBit p) r s.ps t
  | .inx | .dex => ∃ v, t = (s.setX v).setPs (s.ps.setNZ v)
  | .iny | .dey => ∃ v, t = (s.setY v).setPs (s.ps.setNZ v)
  | .mul _ | .div _ => ∃ x v, t = (s.pushed x).setA v
  | .clc | .sec => ∃ c, t = s.setPs { s.ps with c := c }
  | .cld | .sed => ∃ d, t = s.setPs { s.ps with d := d }
  | .cli | .sei => ∃ i, t = s.setPs { s.ps with i := i }
  | .clt | .set => ∃ x, t = s.setPs { s.ps with t := x }
  | .clv => t = s.setPs { s.ps with v := false }
  | .pha | .php => ∃ x, t = s.pushed x
  | .pla => ∃ v, t = ((s.setS (s.s + 1)).setA v).setPs (s.ps.setNZ v)
  | .plp => ∃ p, t = (s.setS (s.s + 1)).setPs p
  | .nop => t = s
  | .jmp _ => ∃ a, t = s.setPc a
  | .bra _ | .bcc _ | .bcs _ | .beq _ | .bne _ | .bmi _ | .bpl _ | .bvc _ | .bvs _ => t = s ∨ ∃ a, t = s.setPc a
  | .bbc _ _ _ | .bbs _ _ _ => t = s ∨ ∃ a, t = s.setPc a
  | .jsr _ => ∃ x y a, t = ((s.pushed x).pushed y).setPc a
  | .rts => ∃ x a, t = (s.setS x).setPc a
  | .rti => ∃ x a p, t = ((s.setS x).setPs p).setPc a
  | .brk => ∃ x y z a, t = ((((s.pushed x).pushed y).pushed z).setPs { s.ps with i := true }).setPc a
  | .slw | .fst => ∃ x, t = s.setXoutf x
  | .wit | .stp => ∃ x, t = s.setClk x

/-- Every next state of `exec i s` has the shape `Effect` says. -/
theorem exec_effect {i : Instr} {s t : State} (h : exec i s = .next t) : Effect s t i := by
  cases i <;> simp only [exec] at h
  case lda m =>
    obtain ⟨v, -, h2⟩ := andThen_eq_next.mp h
    obtain ⟨s', h3, h4⟩ := andThen_eq_next.mp h2
    injection h4 with h4
    subst h4
    rcases setOp1_eq_next.mp h3 with ⟨ht, rfl⟩ | ⟨ht, -, rfl⟩
    · exact ⟨v, .inl ⟨ht, rfl⟩⟩
    · exact ⟨v, .inr ⟨ht, rfl⟩⟩
  case ldx | ldy =>
    obtain ⟨v, -, h2⟩ := andThen_eq_next.mp h
    injection h2 with h2
    exact ⟨v, h2.symm⟩
  case ldm =>
    obtain ⟨a, h1, -, h3⟩ := storeTo_eq_next.mp h
    injection h1 with h1
    subst h1
    exact h3
  case sta | stx | sty =>
    obtain ⟨a, h1, -, h3⟩ := storeTo_eq_next.mp h
    exact ⟨a, h1, h3⟩
  case adc | sbc =>
    obtain ⟨v, a, -, -, h3⟩ := aluOp_effect h
    simp only [addWithCarry, subWithCarry] at h3
    cases hd : s.ps.d <;> simp only [hd, if_true, Bool.false_eq_true, if_false] at h3 <;> exact ⟨_, _, _, _, _, h3⟩
  case and | ora | eor =>
    obtain ⟨v, a, -, -, h3⟩ := aluOp_effect h
    exact ⟨_, _, _, h3⟩
  case cmp =>
    obtain ⟨v, -, h2⟩ := andThen_eq_next.mp h
    obtain ⟨a, -, h3⟩ := andThen_eq_next.mp h2
    injection h3 with h3
    exact ⟨_, _, _, h3.symm⟩
  case cpx | cpy | bit =>
    obtain ⟨v, -, h2⟩ := andThen_eq_next.mp h
    injection h2 with h2
    exact ⟨_, _, _, h2.symm⟩
  case tst =>
    obtain ⟨v, -, h2⟩ := andThen_eq_next.mp h
    injection h2 with h2
    exact ⟨_, _, h2.symm⟩
  case com | rrf =>
    rcases modifyPlace_effect h with ⟨h1, -⟩ | ⟨m, a, v, h1, h2, h4⟩
    · cases h1
    · injection h1 with h1
      subst h1
      injection h2 with h2
      subst h2
      first | exact ⟨_, _, _, h4⟩ | exact ⟨_, h4⟩
  case inc p | dec p =>
    rcases modifyPlace_effect h with ⟨h1, h2⟩ | ⟨m, a, v, h1, h2, h4⟩
    · exact ⟨_, _, _, .inl ⟨h1, h2⟩⟩
    · exact ⟨_, _, _, .inr ⟨m, a, h1, h2, h4⟩⟩
  case asl p | lsr p | rol p | ror p =>
    rcases modifyPlace_effect h with ⟨h1, h2⟩ | ⟨m, a, v, h1, h2, h4⟩
    · exact ⟨_, _, _, _, .inl ⟨h1, h2⟩⟩
    · exact ⟨_, _, _, _, .inr ⟨m, a, h1, h2, h4⟩⟩
  case clb b p | seb b p =>
    rcases modifyPlace_effect h with ⟨h1, h2⟩ | ⟨m, a, v, h1, h2, h4⟩
    · exact ⟨_, .inl ⟨h1, h2⟩⟩
    · exact ⟨_, .inr ⟨m, a, h1, h2, h4⟩⟩
  case mul | div =>
    obtain ⟨v, -, h2⟩ := andThen_eq_next.mp h
    obtain ⟨s', h3, h4⟩ := andThen_eq_next.mp h2
    injection h4 with h4
    subst h4
    obtain ⟨-, rfl⟩ := push8_eq_next.mp h3
    exact ⟨_, _, rfl⟩
  case inx | iny | dex | dey | clc | sec | cld | sed | cli | sei | clt | set | slw | fst | wit | stp =>
    injection h with h
    exact ⟨_, h.symm⟩
  case pha | php =>
    obtain ⟨-, rfl⟩ := push8_eq_next.mp h
    exact ⟨_, rfl⟩
  case pla | plp =>
    obtain ⟨v, h1, h2⟩ := andThen_eq_next.mp h
    obtain ⟨-, rfl⟩ := pull8_eq_next.mp h1
    injection h2 with h2
    exact ⟨_, h2.symm⟩
  case jmp target =>
    cases target with
    | abs =>
      injection h with h
      exact ⟨_, h.symm⟩
    | ind =>
      simp only [execJmp] at h
      split at h
      · cases h
      · obtain ⟨v, -, h2⟩ := andThen_eq_next.mp h
        injection h2 with h2
        exact ⟨_, h2.symm⟩
    | zpInd =>
      obtain ⟨v, -, h2⟩ := andThen_eq_next.mp h
      injection h2 with h2
      exact ⟨_, h2.symm⟩
  case jsr target =>
    obtain ⟨s', h1, h2⟩ := andThen_eq_next.mp h
    obtain ⟨-, -, rfl⟩ := pushAddr_eq_next.mp h1
    cases target with
    | abs | sp =>
      injection h2 with h2
      exact ⟨_, _, _, h2.symm⟩
    | zpInd =>
      obtain ⟨v, -, h3⟩ := andThen_eq_next.mp h2
      injection h3 with h3
      exact ⟨_, _, _, h3.symm⟩
  case rts =>
    obtain ⟨p, h1, h2⟩ := andThen_eq_next.mp h
    obtain ⟨-, -, rfl⟩ := pullAddr_eq_next.mp h1
    injection h2 with h2
    exact ⟨_, _, h2.symm⟩
  case rti =>
    obtain ⟨b, r, h1, h2, rfl⟩ := returnFromException_eq_next.mp h
    obtain ⟨-, rfl⟩ := pull8_eq_next.mp h1
    obtain ⟨-, -, rfl⟩ := pullAddr_eq_next.mp h2
    exact ⟨_, _, _, rfl⟩
  case bbc | bbs =>
    obtain ⟨v, -, h2⟩ := andThen_eq_next.mp h
    exact branchIf_effect h2
  case bra | bcc | bcs | beq | bne | bmi | bpl | bvc | bvs => exact branchIf_effect h
  case brk =>
    simp only [execBrk] at h
    split at h
    · cases h
    · exact takeException_effect h
  all_goals
    injection h with h
    exact h.symm

end Sys2Proof.Machine
end

