-- ==== Sys2Proof/Laws/Flags.lean ====
section
/-! SUPPORT. The small laws of bytes, bits and flags that the statements need. -/

namespace Sys2Proof.Machine

/-- SetNZ of the model is the SetNZ of the statements. -/
theorem PS.setNZ_eq_withNZ (p : PS) (v : Byte) : p.setNZ v = p.withNZ v := rfl

/-- N is bit 7, as a comparison. -/
theorem getLsbD_seven (b : Byte) : b.getLsbD 7 = decide (0x80 ≤ b.toNat) := by
  revert b
  decide

/-- Bit 0, as a remainder. -/
theorem getLsbD_zero (b : Byte) : b.getLsbD 0 = decide (b.toNat % 2 = 1) := by
  revert b
  decide

theorem getLsbD_bitMask : ∀ b c : BitNo, (bitMask b).getLsbD c.toNat = decide (c = b) := by decide

/-- A bit that is put is read back, and every other bit is as it was. -/
theorem testBit_putBit (b c : BitNo) (x : Bool) (v : Byte) :
    testBit c (putBit b x v) = if c = b then x else testBit c v := by
  have hc : c.toNat < 8 := c.isLt
  have h255 : (0xFF#8).getLsbD c.toNat = true := by
    have : ∀ c : BitNo, (0xFF#8).getLsbD c.toNat = true := by decide
    exact this c
  have h := getLsbD_bitMask b c
  unfold testBit putBit setBit clearBit
  cases x <;> by_cases hb : c = b <;>
    simp only [hb, if_true, if_false, Bool.false_eq_true, BitVec.getLsbD_or, BitVec.getLsbD_and, BitVec.getLsbD_xor] <;>
    simp_all

/-- PS comes back from its byte, whatever its bit 4 is (R31, R252, R273). -/
@[simp] theorem PS.ofByte_toByte (p : PS) (b : Bool) : PS.ofByte (p.toByte b) = p := by
  obtain ⟨n, v, t, d, i, z, c⟩ := p
  revert n v t d i z c b
  decide

end Sys2Proof.Machine
end

