-- ==== Sys2Proof/Laws/PerInstr.lean ====
section
/-! SUPPORT. A fact about every instruction, stated per instruction: its encoding begins with an opcode that the map assigns
on every chip that has the instruction, and has the length the map gives that opcode (R90, R91). -/

namespace Sys2Proof

/-- The encoding of `i` is as long as its opcode byte says. -/
def Laws.EncodeLength.Statement (i : Instr) : Prop :=
  ∀ c : Config, i.wf c = true →
    ∃ op rest sh, encode i = op :: rest ∧ lookup c op = some sh ∧ rest.length + 1 = sh.length

namespace Laws.EncodeLength

theorem lda (m : AluSrc) : Statement (.lda m) := by
  intro _ _; cases m <;> exact ⟨_, _, _, rfl, rfl, rfl⟩
theorem ldx (m : LdxSrc) : Statement (.ldx m) := by
  intro _ _; cases m <;> exact ⟨_, _, _, rfl, rfl, rfl⟩
theorem ldy (m : LdySrc) : Statement (.ldy m) := by
  intro _ _; cases m <;> exact ⟨_, _, _, rfl, rfl, rfl⟩
theorem ldm (nn zz : Byte) : Statement (.ldm nn zz) := fun _ _ => ⟨_, _, _, rfl, rfl, rfl⟩
theorem sta (d : StaDst) : Statement (.sta d) := by
  intro _ _; cases d <;> exact ⟨_, _, _, rfl, rfl, rfl⟩
theorem stx (d : StxDst) : Statement (.stx d) := by
  intro _ _; cases d <;> exact ⟨_, _, _, rfl, rfl, rfl⟩
theorem sty (d : StyDst) : Statement (.sty d) := by
  intro _ _; cases d <;> exact ⟨_, _, _, rfl, rfl, rfl⟩
theorem tax : Statement .tax := fun _ _ => ⟨_, _, _, rfl, rfl, rfl⟩
theorem tay : Statement .tay := fun _ _ => ⟨_, _, _, rfl, rfl, rfl⟩
theorem txa : Statement .txa := fun _ _ => ⟨_, _, _, rfl, rfl, rfl⟩
theorem tya : Statement .tya := fun _ _ => ⟨_, _, _, rfl, rfl, rfl⟩
theorem tsx : Statement .tsx := fun _ _ => ⟨_, _, _, rfl, rfl, rfl⟩
theorem txs : Statement .txs := fun _ _ => ⟨_, _, _, rfl, rfl, rfl⟩
theorem adc (m : AluSrc) : Statement (.adc m) := by
  intro _ _; cases m <;> exact ⟨_, _, _, rfl, rfl, rfl⟩
theorem sbc (m : AluSrc) : Statement (.sbc m) := by
  intro _ _; cases m <;> exact ⟨_, _, _, rfl, rfl, rfl⟩
theorem and (m : AluSrc) : Statement (.and m) := by
  intro _ _; cases m <;> exact ⟨_, _, _, rfl, rfl, rfl⟩
theorem ora (m : AluSrc) : Statement (.ora m) := by
  intro _ _; cases m <;> exact ⟨_, _, _, rfl, rfl, rfl⟩
theorem eor (m : AluSrc) : Statement (.eor m) := by
  intro _ _; cases m <;> exact ⟨_, _, _, rfl, rfl, rfl⟩
theorem cmp (m : AluSrc) : Statement (.cmp m) := by
  intro _ _; cases m <;> exact ⟨_, _, _, rfl, rfl, rfl⟩
theorem cpx (m : CpSrc) : Statement (.cpx m) := by
  intro _ _; cases m <;> exact ⟨_, _, _, rfl, rfl, rfl⟩
theorem cpy (m : CpSrc) : Statement (.cpy m) := by
  intro _ _; cases m <;> exact ⟨_, _, _, rfl, rfl, rfl⟩
theorem bit (m : BitSrc) : Statement (.bit m) := by
  intro _ _; cases m <;> exact ⟨_, _, _, rfl, rfl, rfl⟩
theorem tst (zz : Byte) : Statement (.tst zz) := fun _ _ => ⟨_, _, _, rfl, rfl, rfl⟩
theorem com (zz : Byte) : Statement (.com zz) := fun _ _ => ⟨_, _, _, rfl, rfl, rfl⟩
theorem inc (p : RmwPlace) : Statement (.inc p) := by
  intro _ _; cases p <;> exact ⟨_, _, _, rfl, rfl, rfl⟩
theorem dec (p : RmwPlace) : Statement (.dec p) := by
  intro _ _; cases p <;> exact ⟨_, _, _, rfl, rfl, rfl⟩
theorem inx : Statement .inx := fun _ _ => ⟨_, _, _, rfl, rfl, rfl⟩
theorem iny : Statement .iny := fun _ _ => ⟨_, _, _, rfl, rfl, rfl⟩
theorem dex : Statement .dex := fun _ _ => ⟨_, _, _, rfl, rfl, rfl⟩
theorem dey : Statement .dey := fun _ _ => ⟨_, _, _, rfl, rfl, rfl⟩
theorem mul (zz : Byte) : Statement (.mul zz) := by
  intro c h; cases c; simp only [Instr.wf] at h
  subst h; exact ⟨_, _, _, rfl, rfl, rfl⟩
theorem div (zz : Byte) : Statement (.div zz) := by
  intro c h; cases c; simp only [Instr.wf, Bool.and_eq_true, Bool.not_eq_true'] at h
  obtain ⟨rfl, rfl⟩ := h; exact ⟨_, _, _, rfl, rfl, rfl⟩
theorem asl (p : RmwPlace) : Statement (.asl p) := by
  intro _ _; cases p <;> exact ⟨_, _, _, rfl, rfl, rfl⟩
theorem lsr (p : RmwPlace) : Statement (.lsr p) := by
  intro _ _; cases p <;> exact ⟨_, _, _, rfl, rfl, rfl⟩
theorem rol (p : RmwPlace) : Statement (.rol p) := by
  intro _ _; cases p <;> exact ⟨_, _, _, rfl, rfl, rfl⟩
theorem ror (p : RmwPlace) : Statement (.ror p) := by
  intro _ _; cases p <;> exact ⟨_, _, _, rfl, rfl, rfl⟩
theorem rrf (zz : Byte) : Statement (.rrf zz) := fun _ _ => ⟨_, _, _, rfl, rfl, rfl⟩
theorem clb (b : BitNo) (p : BitPlace) : Statement (.clb b p) := by
  intro _ _; cases p
  · exact ⟨_, _, _, rfl, lookup_bitOpcode _ b _ (bitShape_clbAcc b), rfl⟩
  · exact ⟨_, _, _, rfl, lookup_bitOpcode _ b _ (bitShape_clbZp b), rfl⟩
theorem seb (b : BitNo) (p : BitPlace) : Statement (.seb b p) := by
  intro _ _; cases p
  · exact ⟨_, _, _, rfl, lookup_bitOpcode _ b _ (bitShape_sebAcc b), rfl⟩
  · exact ⟨_, _, _, rfl, lookup_bitOpcode _ b _ (bitShape_sebZp b), rfl⟩
theorem clc : Statement .clc := fun _ _ => ⟨_, _, _, rfl, rfl, rfl⟩
theorem sec : Statement .sec := fun _ _ => ⟨_, _, _, rfl, rfl, rfl⟩
theorem cld : Statement .cld := fun _ _ => ⟨_, _, _, rfl, rfl, rfl⟩
theorem sed : Statement .sed := fun _ _ => ⟨_, _, _, rfl, rfl, rfl⟩
theorem cli : Statement .cli := fun _ _ => ⟨_, _, _, rfl, rfl, rfl⟩
theorem sei : Statement .sei := fun _ _ => ⟨_, _, _, rfl, rfl, rfl⟩
theorem clt : Statement .clt := fun _ _ => ⟨_, _, _, rfl, rfl, rfl⟩
theorem set : Statement .set := fun _ _ => ⟨_, _, _, rfl, rfl, rfl⟩
theorem clv : Statement .clv := fun _ _ => ⟨_, _, _, rfl, rfl, rfl⟩
theorem pha : Statement .pha := fun _ _ => ⟨_, _, _, rfl, rfl, rfl⟩
theorem php : Statement .php := fun _ _ => ⟨_, _, _, rfl, rfl, rfl⟩
theorem pla : Statement .pla := fun _ _ => ⟨_, _, _, rfl, rfl, rfl⟩
theorem plp : Statement .plp := fun _ _ => ⟨_, _, _, rfl, rfl, rfl⟩
theorem nop : Statement .nop := fun _ _ => ⟨_, _, _, rfl, rfl, rfl⟩
theorem jmp (t : JmpTarget) : Statement (.jmp t) := by
  intro _ _; cases t <;> exact ⟨_, _, _, rfl, rfl, rfl⟩
theorem jsr (t : JsrTarget) : Statement (.jsr t) := by
  intro _ _; cases t <;> exact ⟨_, _, _, rfl, rfl, rfl⟩
theorem rts : Statement .rts := fun _ _ => ⟨_, _, _, rfl, rfl, rfl⟩
theorem rti : Statement .rti := fun _ _ => ⟨_, _, _, rfl, rfl, rfl⟩
theorem bra (rr : Byte) : Statement (.bra rr) := fun _ _ => ⟨_, _, _, rfl, rfl, rfl⟩
theorem bcc (rr : Byte) : Statement (.bcc rr) := fun _ _ => ⟨_, _, _, rfl, rfl, rfl⟩
theorem bcs (rr : Byte) : Statement (.bcs rr) := fun _ _ => ⟨_, _, _, rfl, rfl, rfl⟩
theorem beq (rr : Byte) : Statement (.beq rr) := fun _ _ => ⟨_, _, _, rfl, rfl, rfl⟩
theorem bne (rr : Byte) : Statement (.bne rr) := fun _ _ => ⟨_, _, _, rfl, rfl, rfl⟩
theorem bmi (rr : Byte) : Statement (.bmi rr) := fun _ _ => ⟨_, _, _, rfl, rfl, rfl⟩
theorem bpl (rr : Byte) : Statement (.bpl rr) := fun _ _ => ⟨_, _, _, rfl, rfl, rfl⟩
theorem bvc (rr : Byte) : Statement (.bvc rr) := fun _ _ => ⟨_, _, _, rfl, rfl, rfl⟩
theorem bvs (rr : Byte) : Statement (.bvs rr) := fun _ _ => ⟨_, _, _, rfl, rfl, rfl⟩
theorem bbc (b : BitNo) (p : BitPlace) (rr : Byte) : Statement (.bbc b p rr) := by
  intro _ _; cases p
  · exact ⟨_, _, _, rfl, lookup_bitOpcode _ b _ (bitShape_bbcAcc b), rfl⟩
  · exact ⟨_, _, _, rfl, lookup_bitOpcode _ b _ (bitShape_bbcZp b), rfl⟩
theorem bbs (b : BitNo) (p : BitPlace) (rr : Byte) : Statement (.bbs b p rr) := by
  intro _ _; cases p
  · exact ⟨_, _, _, rfl, lookup_bitOpcode _ b _ (bitShape_bbsAcc b), rfl⟩
  · exact ⟨_, _, _, rfl, lookup_bitOpcode _ b _ (bitShape_bbsZp b), rfl⟩
theorem brk : Statement .brk := fun _ _ => ⟨_, _, _, rfl, rfl, rfl⟩
theorem slw : Statement (.slw) := by
  intro c h; cases c; simp only [Instr.wf] at h
  subst h; exact ⟨_, _, _, rfl, rfl, rfl⟩
theorem fst : Statement (.fst) := by
  intro c h; cases c; simp only [Instr.wf] at h
  subst h; exact ⟨_, _, _, rfl, rfl, rfl⟩
theorem wit : Statement (.wit) := by
  intro c h; cases c; simp only [Instr.wf, Bool.not_eq_true'] at h
  subst h; exact ⟨_, _, _, rfl, rfl, rfl⟩
theorem stp : Statement (.stp) := by
  intro c h; cases c; simp only [Instr.wf] at h
  subst h; exact ⟨_, _, _, rfl, rfl, rfl⟩

end Laws.EncodeLength

end Sys2Proof
end

