-- ==== Sys2Proof/Laws/Reset.lean ====
section
/-! SUPPORT. The state after reset, and the reset of a running machine. -/

namespace Sys2Proof.Machine

/-- `State.reset` is the reset of Machine/Reset.lean, for the chip `Config.base` with an empty memory and zero for everything
the spec leaves open (log 3). -/
theorem reset_eq_resetWith : resetWith Config.base ResetDraw.zero [] = .next State.reset := rfl

/-- A reset of a running machine leaves a canonical memory, whatever the memory was. -/
theorem State.wf_memoryAfterReset (s : State) : s.memoryAfterReset.wf = true :=
  Memory.wfFrom_tabulate _ _ _ (by omega)

/-- What the memory of a reset machine holds at an address, before the bits that reset gives a value. -/
theorem State.read_memoryAfterReset (s : State) (a : Addr) : s.memoryAfterReset.read a.toNat =
    match kindAt s.cfg a with
    | .rom | .romIgnoringWrites => s.byteAt a
    | .ram | .sfr => Config.freeResetMemory s.draws a.toNat
    | .absent => unlistedByte := by
  unfold State.memoryAfterReset
  rw [Memory.read_tabulate _ _ _ _ (by omega) (by have := a.isLt; omega) (by omega), BitVec.ofNat_toNat,
    BitVec.setWidth_eq]
  rfl

/-- What a reset event answers: the state before the vector fetch with PC from the vector. -/
theorem resetEvent_eq_next {s t : State} : resetEvent s = .next t ↔ ∃ pc,
    read16 (State.resetBeforeVector s.cfg (ResetDraw.free s.draws) s.memoryAfterReset) s.cfg.vecReset = .next pc ∧
    t = (((State.resetBeforeVector s.cfg (ResetDraw.free s.draws) s.memoryAfterReset).setPc pc).setDraws
      (s.draws + 1)).setInputs s.inputs := by
  unfold resetEvent resetWith
  simp only [andThen_eq_next]
  constructor
  · rintro ⟨u, ⟨pc, h1, h2⟩, h3⟩
    injection h2 with h2
    injection h3 with h3
    subst h2
    exact ⟨pc, h1, h3.symm⟩
  · rintro ⟨pc, h1, rfl⟩
    exact ⟨_, ⟨pc, h1, rfl⟩, rfl⟩

end Sys2Proof.Machine
end

