-- ==== Sys2Proof/Laws/Stack.lean ====
section
/-! SUPPORT. Runs of pushes and pulls: where they go, what they leave, and what comes back, for a stack whose page and whose
bytes the frame leaves alone (`State.PageKept`, `State.StackFree`). -/

namespace Sys2Proof.Machine

/-! ### The stack page -/

/-- The stack page depends on the chip and, at most, on the byte that holds the Stack Page Selection Bit. -/
theorem State.stackPage_congr {s t : State} (hc : t.cfg = s.cfg)
    (hb : ∀ zp bit r, s.cfg.stackPage = .selectable zp bit r → t.byteAt (zeroPage zp) = s.byteAt (zeroPage zp)) :
    t.stackPage = s.stackPage := by
  unfold State.stackPage
  rw [hc]
  cases h : s.cfg.stackPage with
  | fixed p => rfl
  | selectable zp bit r =>
    have e : t.bitAt ⟨zeroPage zp, bit⟩ = s.bitAt ⟨zeroPage zp, bit⟩ := by
      simp only [State.bitAt, hb zp bit r h]
    simp only [e]

/-! ### One push -/

theorem State.below_zero (s : State) : s.below 0 = s.stackAddr := by simp [State.below, State.stackAddr]

/-- A push to memory that takes it leaves its byte there. -/
theorem State.byteAt_pushed_same (s : State) (v : Byte) (hm : s.mem.wf = true) (hw : s.writable (s.below 0) = true) :
    (s.pushed v).byteAt (s.below 0) = v := by
  rw [State.below_zero] at hw ⊢
  exact State.byteAt_put_same s v hm hw

/-- A push keeps the canonical form. -/
theorem State.wf_pushed (s : State) (v : Byte) (hm : s.mem.wf = true) : (s.pushed v).mem.wf = true :=
  State.wf_put s s.stackAddr v hm

theorem State.stackPage_pushed {s : State} {n : Nat} (v : Byte) (h : s.PageKept (n + 1)) :
    (s.pushed v).stackPage = s.stackPage :=
  State.stackPage_congr (State.pushed_cfg s v)
    (fun zp bit r hc => State.byteAt_pushed_ne s v (fun e => h zp bit r hc 0 (by omega) (by rw [State.below_zero]; exact e.symm)))

theorem State.below_pushed {s : State} {n : Nat} (v : Byte) (h : s.PageKept (n + 1)) (m : Nat) :
    (s.pushed v).below m = s.below (m + 1) := by
  unfold State.below
  rw [State.stackPage_pushed v h, State.pushed_s]
  congr 1
  rw [BitVec.ofNat_add]
  bv_omega

theorem State.pageKept_pushed {s : State} {n : Nat} (v : Byte) (h : s.PageKept (n + 1)) : (s.pushed v).PageKept n := by
  intro zp bit r hc m hm
  rw [State.below_pushed v h]
  rw [State.pushed_cfg] at hc
  exact h zp bit r hc (m + 1) (by omega)

theorem State.stackFree_pushed {s : State} {n : Nat} (v : Byte) (hp : s.PageKept (n + 1)) (h : s.StackFree (n + 1)) :
    (s.pushed v).StackFree n := by
  intro m hm
  rw [State.below_pushed v hp, State.pushed_cfg]
  have := h (m + 1) (by omega)
  refine ⟨?_, this.2⟩
  have hw := this.1
  unfold State.writable at hw ⊢
  rwa [State.pushed_cfg]

/-- The coming push goes through. -/
theorem State.storable_of_stackFree {s : State} {n : Nat} (v : Byte) (h : s.StackFree (n + 1)) :
    s.storable s.stackAddr v = true := by
  have h0 := h 0 (by omega)
  rw [State.below_zero] at h0
  have hr : s.setsRequest s.stackAddr v = false := by
    unfold State.setsRequest
    rw [List.any_eq_false]
    intro k hk
    simp [h0.2 k hk]
  have hw := h0.1
  unfold State.writable at hw
  unfold State.storable
  revert hw
  cases kindAt s.cfg s.stackAddr <;> simp [hr]

theorem push8_of_stackFree {s : State} {n : Nat} (v : Byte) (h : s.StackFree (n + 1)) : push8 s v = .next (s.pushed v) :=
  push8_of_storable (State.storable_of_stackFree v h)

/-- Two addresses below the stack pointer less than a page apart differ. -/
theorem State.below_ne (s : State) {m k : Nat} (h : m ≠ k) (hm : m < 256) (hk : k < 256) : s.below m ≠ s.below k := by
  intro e
  have h1 : s.s - BitVec.ofNat 8 m = s.s - BitVec.ofNat 8 k := by
    have := congrArg loByte e
    simpa only [State.below, loByte_joinAddr] using this
  have h2 : BitVec.ofNat 8 m = BitVec.ofNat 8 k := by
    have := s.s.isLt
    bv_omega
  have := congrArg BitVec.toNat h2
  simp only [BitVec.toNat_ofNat] at this
  omega

/-- Memory that takes a store is there to read. -/
theorem State.present_of_writable {s : State} {a : Addr} (h : s.writable a = true) : s.present a = true := by
  unfold State.writable at h
  unfold State.present
  revert h
  cases kindAt s.cfg a <;> simp

/-- With no request bit just changed a read sees what memory holds. -/
theorem State.peek_of_unchanged {s : State} (h : s.last.changed = []) (a : Addr) : s.peek a = s.byteAt a := by
  simp [State.peek, h]

/-- The bytes a frame of `n` bytes left above the stack pointer come back: the stack address `m + 1` above. -/
theorem SameStackTop.pull {t u : State} {n : Nat} (h : SameStackTop t u n) {m : Nat} (hm : m < n)
    (hp : t.present (joinAddr t.stackPage (t.s + BitVec.ofNat 8 (m + 1))) = true) :
    u.present (joinAddr u.stackPage (u.s + BitVec.ofNat 8 (m + 1))) = true ∧
    u.peek (joinAddr u.stackPage (u.s + BitVec.ofNat 8 (m + 1))) =
      t.byteAt (joinAddr t.stackPage (t.s + BitVec.ofNat 8 (m + 1))) := by
  obtain ⟨hs, hc, hg, hch, hb⟩ := h
  rw [hg, hs]
  refine ⟨?_, ?_⟩
  · unfold State.present at hp ⊢
    rwa [hc]
  · rw [State.peek_of_unchanged hch]
    exact hb m hm

end Sys2Proof.Machine
end

