-- ==== Sys2Proof/Laws/Step.lean ====
section
/-! SUPPORT. What a step can do, said once for the CPU's turn and for each part of it: an instruction, an interrupt entry, the
choice among sources. -/

namespace Sys2Proof.Machine

/-- When it is the CPU's turn the step is the CPU's. -/
theorem step_of_cpuTurn {s : State} (h : s.CpuTurn) : step s = cpuStep s.turn := by
  rcases h with h | ⟨rest, h⟩ <;> unfold State.turn <;> rw [step, h] <;> simp only [List.tail]
  cases s
  simp only at h
  subst h
  rfl

/-- At a boundary where the next step is an instruction, the step is that instruction. -/
theorem step_of_ready {s : State} (h : s.Ready) : step s = instructionStep s.turn := by
  obtain ⟨h1, h2, h3⟩ := h
  have e2 : s.turn.clk = .run := h2
  have e3 : s.turn.interruptTaken = none := h3
  rw [step_of_cpuTurn h1, cpuStep, e3]
  simp only [e2]

/-- What is fetched does not depend on whose turn comes next. -/
theorem fetch_turn (s : State) : fetch s.turn = fetch s := by
  have h : ∀ n a, fetchBytes s.turn a n = fetchBytes s a n := by
    intro n
    induction n with
    | zero => exact fun _ => rfl
    | succ n ih =>
      intro a
      unfold fetchBytes
      simp only [ih]
      rfl
  unfold fetch
  simp only [h]
  rfl

/-- What the step is once the fetch has answered. -/
theorem step_of_fetch {s : State} {i : Instr} {n : Nat} (h : s.Ready) (hf : fetch s = .next (i, n)) :
    step s = match hazard s i with
      | some r => .refused r
      | none => andThen (exec i (s.turn.fetched n)) fun t => .next (settle s.turn i t) := by
  have hf' : fetch s.turn = .next (i, n) := (fetch_turn s).trans hf
  rw [step_of_ready h, instructionStep, hf']
  rfl

/-- What an instruction step answers. -/
theorem instructionStep_eq_next {s t : State} : instructionStep s = .next t ↔
    ∃ i n u, fetch s = .next (i, n) ∧ hazard s i = none ∧ exec i (s.fetched n) = .next u ∧ t = settle s i u := by
  constructor
  · intro h
    obtain ⟨⟨i, n⟩, hf, h1⟩ := andThen_eq_next.mp h
    cases hz : hazard s i with
    | some r =>
      simp only [hz] at h1
      cases h1
    | none =>
      simp only [hz] at h1
      obtain ⟨u, hu, h2⟩ := andThen_eq_next.mp h1
      injection h2 with h2
      exact ⟨i, n, u, hf, hz, hu, h2.symm⟩
  · rintro ⟨i, n, u, hf, hz, hu, rfl⟩
    simp only [instructionStep, hf, andThen_next, hz, hu]

/-- What an interrupt entry answers. -/
theorem enterInterrupt_eq_next {s t : State} {k : IrqSource} : enterInterrupt s k = .next t ↔
    ∃ u, takeException s s.pc s.ps.b (if k.autoClear then some k.request else none) k.vector = .next u ∧
      t = (((u.setClk .run).setLast Last.none).setDraws (s.draws + 1)).setWaiting [] := by
  unfold enterInterrupt
  rw [andThen_eq_next]
  constructor
  · rintro ⟨u, h1, h2⟩
    injection h2 with h2
    exact ⟨u, h1, h2.symm⟩
  · rintro ⟨u, h1, rfl⟩
    exact ⟨u, h1, rfl⟩

/-- The source of highest priority is one of the sources, and there is one unless there is none at all. -/
theorem highestPriority_eq_none {ks : List IrqSource} : highestPriority ks = none ↔ ks = [] := by
  cases ks with
  | nil => simp [highestPriority]
  | cons k ks =>
    simp only [highestPriority]
    cases highestPriority ks with
    | none => simp
    | some j =>
      simp only
      split <;> simp

theorem highestPriority_spec {ks : List IrqSource} {k : IrqSource} (h : highestPriority ks = some k) :
    k ∈ ks ∧ ∀ j ∈ ks, k.rank ≤ j.rank := by
  induction ks generalizing k with
  | nil => cases h
  | cons i ks ih =>
    simp only [highestPriority] at h
    cases hks : highestPriority ks with
    | none =>
      rw [hks] at h
      injection h with h
      subst h
      rw [highestPriority_eq_none] at hks
      subst hks
      simp
    | some j =>
      rw [hks] at h
      obtain ⟨h1, h2⟩ := ih hks
      simp only at h
      split at h <;> (injection h with h; subst h)
      · refine ⟨List.mem_cons_of_mem _ h1, fun x hx => ?_⟩
        rcases List.mem_cons.mp hx with rfl | hx
        · omega
        · exact h2 x hx
      · refine ⟨List.mem_cons_self, fun x hx => ?_⟩
        rcases List.mem_cons.mp hx with rfl | hx
        · exact le_refl _
        · have := h2 x hx
          omega

/-- With no latency of R370 or R371 open the acceptance test sees the bits as they are (R326). -/
theorem State.acceptable_of_none {s : State} (hk : s.last.kind = .none) (hc : s.last.changed = []) (k : IrqSource) :
    s.acceptable k = (s.bitAt k.request && s.bitAt k.enable && !s.ps.i) := by
  unfold State.acceptable State.requestSeen State.maskSeen
  rw [hk, hc]
  simp

/-- An acceptable source keeps the draw since which it waits when it is passed over. -/
theorem State.lookup_passedOver {s : State} {k : IrqSource} (hk : k ∈ s.cfg.irqSources) (ha : s.acceptable k = true) :
    s.passedOver.lookup k = some (s.acceptableSince k) := by
  have h : ∀ ks : List IrqSource, k ∈ ks → (ks.map fun j => (j, s.acceptableSince j)).lookup k = some (s.acceptableSince k) := by
    intro ks
    induction ks with
    | nil => simp
    | cons j ks ih =>
      intro hm
      simp only [List.map_cons, List.lookup_cons]
      by_cases e : k = j
      · subst e
        simp
      · rw [show (k == j) = false by simp [e]]
        exact ih ((List.mem_cons.mp hm).resolve_left e)
  exact h _ (List.mem_filter.mpr ⟨hk, ha⟩)

/-- A run of one more step. -/
theorem run_succ_eq_next {n : Nat} {s t : State} :
    core.run (n + 1) s = .next t ↔ ∃ u, step s = .next u ∧ core.run n u = .next t := by
  have key : ∀ (M : Host.Core) (s t : M.State),
      M.run (n + 1) s = .next t ↔ ∃ u, M.step s = .next u ∧ M.run n u = .next t := by
    intro M s t
    cases h : M.step s <;> simp only [Host.Core.run, h] <;> simp
  exact key core s t

end Sys2Proof.Machine
end

