-- ==== Sys2Proof/Tests/Slice0.lean ====
section
/-! SUPPORT. Tests: ill-formed terms and chips, every row of the opcode table read from its bytes, one step of every
instruction with the outcome that spec/95_test_vectors.md computes for it, and for every statement a state that meets its
hypotheses. -/

open Sys2Proof Sys2Proof.Machine

namespace Sys2Proof.Tests

/-! ### Helpers -/

/-- `m` with the cell written. -/
def place (m : Memory) (c : Host.Cell) : Memory := m.write c.1 c.2

/-- The bytes of an instruction from the address `a` on. -/
def cellsAt : Nat → List Byte → List Host.Cell
  | _, [] => []
  | a, b :: bs => (a % 0x10000, b) :: cellsAt (a + 1) bs

/-- The start state of spec/95_test_vectors.md section 0: all flags 0, S = FF, the instruction at `pc`, the listed bytes. -/
def at0 (c : Config) (pc : Addr) (code : List Byte) (cells : List Host.Cell) : State :=
  { State.reset with
    cfg := c, pc := pc, s := 0xFF, ps := PS.ofByte 0, mem := (cellsAt pc.toNat code ++ cells).foldl place [] }

/-- The two states agree on A, X, Y, S, memory and the clock. -/
def same (t e : State) : Bool :=
  t.a == e.a && t.x == e.x && t.y == e.y && t.s == e.s && t.mem == e.mem && t.clk == e.clk && t.xoutf == e.xoutf

/-- The step from `s` gives the state `e s` with the listed bytes of memory, these flags and this PC. -/
def leaves (s : State) (e : State → State) (cells : List Host.Cell) (flags : Byte) (pc : Addr) : Bool :=
  match step s with
  | .next t => same t { e s with mem := cells.foldl place s.mem } && t.ps == PS.ofByte flags && t.pc == pc
  | _ => false

/-- As `leaves`, for decimal mode: of the flags, C is as given, D is 1, T and I are 0, and N, V and Z are anything. -/
def leavesDecimal (s : State) (e : State → State) (cells : List Host.Cell) (c : Bool) (pc : Addr) : Bool :=
  match step s with
  | .next t =>
    same t { e s with mem := cells.foldl place s.mem } && t.ps.c == c && t.ps.d && !t.ps.t && !t.ps.i && t.pc == pc
  | _ => false

/-- The state after a step that does not stop. -/
def after (s : State) : State :=
  match step s with
  | .next t => t
  | _ => s

/-- The step is refused for the reason `r`. -/
def refuses (s : State) (r : Refusal) : Bool :=
  match step s with
  | .refused q => q == r
  | _ => false

/-- Each byte sequence is read as the instruction beside it, to its last byte. -/
def readAll (c : Config) (rows : List (List Byte × Instr)) : Bool :=
  rows.all fun r =>
    match decode c r.1 with
    | .ok (i, rest) => i == r.2 && rest.isEmpty
    | .error _ => false

/-! ### Chips -/

/-- Stack page 0. -/
def page0 : Config := { Config.base with stackPage := .fixed 0x00 }
/-- Special page 0x1F. -/
def sp1f : Config := { Config.base with specialPage := 0x1F }
/-- A chip with SLW and FST. -/
def slwFst : Config := { Config.base with mulDiv := false, slwFst := true }
/-- A chip with neither MUL and DIV, nor SLW and FST, nor STP. -/
def plain : Config := { Config.base with mulDiv := false, stp := false }
/-- The sources of spec/95_test_vectors.md section 3. -/
def srcK : IrqSource := ⟨"k", 0xFFF8, ⟨0x003C, 0⟩, ⟨0x003E, 0⟩, 2, true, false, false⟩
def srcJ : IrqSource := ⟨"j", 0xFFFA, ⟨0x003C, 1⟩, ⟨0x003E, 1⟩, 1, true, false, false⟩
/-- A source whose two bits lie in one byte (R373). -/
def srcM : IrqSource := ⟨"m", 0xFFFC, ⟨0x003A, 0⟩, ⟨0x003A, 1⟩, 3, false, false, false⟩
def irqChip : Config := { Config.base with irqSources := [srcK, srcJ, srcM] }
/-- A Stack Page Selection Bit that resets to 1, ROM of both kinds, an SFR page and a hole. -/
def mapChip : Config :=
  { Config.base with
    stackPage := .selectable 0x3B 2 (some true)
    memoryMap := [⟨0x0000, 0x0FFF, .ram⟩, ⟨0x1000, 0x10FF, .sfr⟩, ⟨0x2000, 0x20FF, .romIgnoringWrites⟩,
      ⟨0xE000, 0xFFFF, .rom⟩] }

/-! ### What a chip has (R96), and what is no chip (R4, R322, R328, R334) -/

theorem test_wf_mul : (Instr.mul 0x10).wf plain = false := by decide
theorem test_wf_div : (Instr.div 0x10).wf slwFst = false := by decide
theorem test_wf_slw : Instr.slw.wf Config.base = false := by decide
theorem test_wf_fst : Instr.fst.wf Config.base = false := by decide
theorem test_wf_wit : Instr.wit.wf slwFst = false := by decide
theorem test_wf_stp : Instr.stp.wf plain = false := by decide
theorem test_legal : Config.base.legal = true ∧ slwFst.legal = true ∧ irqChip.legal = true := by decide
theorem test_legal_options : Config.legal { Config.base with slwFst := true } = false := by decide
theorem test_legal_ranks : Config.legal { Config.base with irqSources := [srcK, { srcJ with rank := 2 }] } = false := by
  decide
theorem test_legal_page : Config.legal { Config.base with stackPage := .fixed 0x37 } = false := by decide
theorem test_legal_brk : Config.legal { irqChip with indepBrkVector := false } = false := by decide

/-! ### Decoding: bytes of R94 and R95, first operand byte 34, second 12 -/

theorem test_decode_row0 : readAll Config.base [
    ([0x00], .brk), ([0x01, 0x34], .ora (.indX 0x34)), ([0x02, 0x34], .jsr (.zpInd 0x34)),
    ([0x03, 0x34], .bbs 0 .acc 0x34), ([0x05, 0x34], .ora (.zp 0x34)), ([0x06, 0x34], .asl (.zp 0x34)),
    ([0x07, 0x34, 0x12], .bbs 0 (.zp 0x34) 0x12), ([0x08], .php), ([0x09, 0x34], .ora (.imm 0x34)), ([0x0A], .asl .acc),
    ([0x0B], .seb 0 .acc), ([0x0D, 0x34, 0x12], .ora (.abs 0x1234)), ([0x0E, 0x34, 0x12], .asl (.abs 0x1234)),
    ([0x0F, 0x34], .seb 0 (.zp 0x34))] =
    true := by decide

theorem test_decode_row1 : readAll Config.base [
    ([0x10, 0x34], .bpl 0x34), ([0x11, 0x34], .ora (.indY 0x34)), ([0x12], .clt), ([0x13, 0x34], .bbc 0 .acc 0x34),
    ([0x15, 0x34], .ora (.zpX 0x34)), ([0x16, 0x34], .asl (.zpX 0x34)), ([0x17, 0x34, 0x12], .bbc 0 (.zp 0x34) 0x12),
    ([0x18], .clc), ([0x19, 0x34, 0x12], .ora (.absY 0x1234)), ([0x1A], .dec .acc), ([0x1B], .clb 0 .acc),
    ([0x1D, 0x34, 0x12], .ora (.absX 0x1234)), ([0x1E, 0x34, 0x12], .asl (.absX 0x1234)), ([0x1F, 0x34], .clb 0 (.zp 0x34))] =
    true := by decide

theorem test_decode_row2 : readAll Config.base [
    ([0x20, 0x34, 0x12], .jsr (.abs 0x1234)), ([0x21, 0x34], .and (.indX 0x34)), ([0x22, 0x34], .jsr (.sp 0x34)),
    ([0x23, 0x34], .bbs 1 .acc 0x34), ([0x24, 0x34], .bit (.zp 0x34)), ([0x25, 0x34], .and (.zp 0x34)),
    ([0x26, 0x34], .rol (.zp 0x34)), ([0x27, 0x34, 0x12], .bbs 1 (.zp 0x34) 0x12), ([0x28], .plp),
    ([0x29, 0x34], .and (.imm 0x34)), ([0x2A], .rol .acc), ([0x2B], .seb 1 .acc), ([0x2C, 0x34, 0x12], .bit (.abs 0x1234)),
    ([0x2D, 0x34, 0x12], .and (.abs 0x1234)), ([0x2E, 0x34, 0x12], .rol (.abs 0x1234)), ([0x2F, 0x34], .seb 1 (.zp 0x34))] =
    true := by decide

theorem test_decode_row3 : readAll Config.base [
    ([0x30, 0x34], .bmi 0x34), ([0x31, 0x34], .and (.indY 0x34)), ([0x32], .set), ([0x33, 0x34], .bbc 1 .acc 0x34),
    ([0x35, 0x34], .and (.zpX 0x34)), ([0x36, 0x34], .rol (.zpX 0x34)), ([0x37, 0x34, 0x12], .bbc 1 (.zp 0x34) 0x12),
    ([0x38], .sec), ([0x39, 0x34, 0x12], .and (.absY 0x1234)), ([0x3A], .inc .acc), ([0x3B], .clb 1 .acc),
    ([0x3C, 0x34, 0x12], .ldm 0x34 0x12), ([0x3D, 0x34, 0x12], .and (.absX 0x1234)),
    ([0x3E, 0x34, 0x12], .rol (.absX 0x1234)), ([0x3F, 0x34], .clb 1 (.zp 0x34))] =
    true := by decide

theorem test_decode_row4 : readAll Config.base [
    ([0x40], .rti), ([0x41, 0x34], .eor (.indX 0x34)), ([0x42], .stp), ([0x43, 0x34], .bbs 2 .acc 0x34),
    ([0x44, 0x34], .com 0x34), ([0x45, 0x34], .eor (.zp 0x34)), ([0x46, 0x34], .lsr (.zp 0x34)),
    ([0x47, 0x34, 0x12], .bbs 2 (.zp 0x34) 0x12), ([0x48], .pha), ([0x49, 0x34], .eor (.imm 0x34)), ([0x4A], .lsr .acc),
    ([0x4B], .seb 2 .acc), ([0x4C, 0x34, 0x12], .jmp (.abs 0x1234)), ([0x4D, 0x34, 0x12], .eor (.abs 0x1234)),
    ([0x4E, 0x34, 0x12], .lsr (.abs 0x1234)), ([0x4F, 0x34], .seb 2 (.zp 0x34))] =
    true := by decide

theorem test_decode_row5 : readAll Config.base [
    ([0x50, 0x34], .bvc 0x34), ([0x51, 0x34], .eor (.indY 0x34)), ([0x53, 0x34], .bbc 2 .acc 0x34),
    ([0x55, 0x34], .eor (.zpX 0x34)), ([0x56, 0x34], .lsr (.zpX 0x34)), ([0x57, 0x34, 0x12], .bbc 2 (.zp 0x34) 0x12),
    ([0x58], .cli), ([0x59, 0x34, 0x12], .eor (.absY 0x1234)), ([0x5B], .clb 2 .acc),
    ([0x5D, 0x34, 0x12], .eor (.absX 0x1234)), ([0x5E, 0x34, 0x12], .lsr (.absX 0x1234)), ([0x5F, 0x34], .clb 2 (.zp 0x34))] =
    true := by decide

theorem test_decode_row6 : readAll Config.base [
    ([0x60], .rts), ([0x61, 0x34], .adc (.indX 0x34)), ([0x62, 0x34], .mul 0x34), ([0x63, 0x34], .bbs 3 .acc 0x34),
    ([0x64, 0x34], .tst 0x34), ([0x65, 0x34], .adc (.zp 0x34)), ([0x66, 0x34], .ror (.zp 0x34)),
    ([0x67, 0x34, 0x12], .bbs 3 (.zp 0x34) 0x12), ([0x68], .pla), ([0x69, 0x34], .adc (.imm 0x34)), ([0x6A], .ror .acc),
    ([0x6B], .seb 3 .acc), ([0x6C, 0x34, 0x12], .jmp (.ind 0x1234)), ([0x6D, 0x34, 0x12], .adc (.abs 0x1234)),
    ([0x6E, 0x34, 0x12], .ror (.abs 0x1234)), ([0x6F, 0x34], .seb 3 (.zp 0x34))] =
    true := by decide

theorem test_decode_row7 : readAll Config.base [
    ([0x70, 0x34], .bvs 0x34), ([0x71, 0x34], .adc (.indY 0x34)), ([0x73, 0x34], .bbc 3 .acc 0x34),
    ([0x75, 0x34], .adc (.zpX 0x34)), ([0x76, 0x34], .ror (.zpX 0x34)), ([0x77, 0x34, 0x12], .bbc 3 (.zp 0x34) 0x12),
    ([0x78], .sei), ([0x79, 0x34, 0x12], .adc (.absY 0x1234)), ([0x7B], .clb 3 .acc),
    ([0x7D, 0x34, 0x12], .adc (.absX 0x1234)), ([0x7E, 0x34, 0x12], .ror (.absX 0x1234)), ([0x7F, 0x34], .clb 3 (.zp 0x34))] =
    true := by decide

theorem test_decode_row8 : readAll Config.base [
    ([0x80, 0x34], .bra 0x34), ([0x81, 0x34], .sta (.indX 0x34)), ([0x82, 0x34], .rrf 0x34),
    ([0x83, 0x34], .bbs 4 .acc 0x34), ([0x84, 0x34], .sty (.zp 0x34)), ([0x85, 0x34], .sta (.zp 0x34)),
    ([0x86, 0x34], .stx (.zp 0x34)), ([0x87, 0x34, 0x12], .bbs 4 (.zp 0x34) 0x12), ([0x88], .dey), ([0x8A], .txa),
    ([0x8B], .seb 4 .acc), ([0x8C, 0x34, 0x12], .sty (.abs 0x1234)), ([0x8D, 0x34, 0x12], .sta (.abs 0x1234)),
    ([0x8E, 0x34, 0x12], .stx (.abs 0x1234)), ([0x8F, 0x34], .seb 4 (.zp 0x34))] =
    true := by decide

theorem test_decode_row9 : readAll Config.base [
    ([0x90, 0x34], .bcc 0x34), ([0x91, 0x34], .sta (.indY 0x34)), ([0x93, 0x34], .bbc 4 .acc 0x34),
    ([0x94, 0x34], .sty (.zpX 0x34)), ([0x95, 0x34], .sta (.zpX 0x34)), ([0x96, 0x34], .stx (.zpY 0x34)),
    ([0x97, 0x34, 0x12], .bbc 4 (.zp 0x34) 0x12), ([0x98], .tya), ([0x99, 0x34, 0x12], .sta (.absY 0x1234)),
    ([0x9A], .txs), ([0x9B], .clb 4 .acc), ([0x9D, 0x34, 0x12], .sta (.absX 0x1234)), ([0x9F, 0x34], .clb 4 (.zp 0x34))] =
    true := by decide

theorem test_decode_rowA : readAll Config.base [
    ([0xA0, 0x34], .ldy (.imm 0x34)), ([0xA1, 0x34], .lda (.indX 0x34)), ([0xA2, 0x34], .ldx (.imm 0x34)),
    ([0xA3, 0x34], .bbs 5 .acc 0x34), ([0xA4, 0x34], .ldy (.zp 0x34)), ([0xA5, 0x34], .lda (.zp 0x34)),
    ([0xA6, 0x34], .ldx (.zp 0x34)), ([0xA7, 0x34, 0x12], .bbs 5 (.zp 0x34) 0x12), ([0xA8], .tay),
    ([0xA9, 0x34], .lda (.imm 0x34)), ([0xAA], .tax), ([0xAB], .seb 5 .acc), ([0xAC, 0x34, 0x12], .ldy (.abs 0x1234)),
    ([0xAD, 0x34, 0x12], .lda (.abs 0x1234)), ([0xAE, 0x34, 0x12], .ldx (.abs 0x1234)), ([0xAF, 0x34], .seb 5 (.zp 0x34))] =
    true := by decide

theorem test_decode_rowB : readAll Config.base [
    ([0xB0, 0x34], .bcs 0x34), ([0xB1, 0x34], .lda (.indY 0x34)), ([0xB2, 0x34], .jmp (.zpInd 0x34)),
    ([0xB3, 0x34], .bbc 5 .acc 0x34), ([0xB4, 0x34], .ldy (.zpX 0x34)), ([0xB5, 0x34], .lda (.zpX 0x34)),
    ([0xB6, 0x34], .ldx (.zpY 0x34)), ([0xB7, 0x34, 0x12], .bbc 5 (.zp 0x34) 0x12), ([0xB8], .clv),
    ([0xB9, 0x34, 0x12], .lda (.absY 0x1234)), ([0xBA], .tsx), ([0xBB], .clb 5 .acc),
    ([0xBC, 0x34, 0x12], .ldy (.absX 0x1234)), ([0xBD, 0x34, 0x12], .lda (.absX 0x1234)),
    ([0xBE, 0x34, 0x12], .ldx (.absY 0x1234)), ([0xBF, 0x34], .clb 5 (.zp 0x34))] =
    true := by decide

theorem test_decode_rowC : readAll Config.base [
    ([0xC0, 0x34], .cpy (.imm 0x34)), ([0xC1, 0x34], .cmp (.indX 0x34)), ([0xC2], .wit), ([0xC3, 0x34], .bbs 6 .acc 0x34),
    ([0xC4, 0x34], .cpy (.zp 0x34)), ([0xC5, 0x34], .cmp (.zp 0x34)), ([0xC6, 0x34], .dec (.zp 0x34)),
    ([0xC7, 0x34, 0x12], .bbs 6 (.zp 0x34) 0x12), ([0xC8], .iny), ([0xC9, 0x34], .cmp (.imm 0x34)), ([0xCA], .dex),
    ([0xCB], .seb 6 .acc), ([0xCC, 0x34, 0x12], .cpy (.abs 0x1234)), ([0xCD, 0x34, 0x12], .cmp (.abs 0x1234)),
    ([0xCE, 0x34, 0x12], .dec (.abs 0x1234)), ([0xCF, 0x34], .seb 6 (.zp 0x34))] =
    true := by decide

theorem test_decode_rowD : readAll Config.base [
    ([0xD0, 0x34], .bne 0x34), ([0xD1, 0x34], .cmp (.indY 0x34)), ([0xD3, 0x34], .bbc 6 .acc 0x34),
    ([0xD5, 0x34], .cmp (.zpX 0x34)), ([0xD6, 0x34], .dec (.zpX 0x34)), ([0xD7, 0x34, 0x12], .bbc 6 (.zp 0x34) 0x12),
    ([0xD8], .cld), ([0xD9, 0x34, 0x12], .cmp (.absY 0x1234)), ([0xDB], .clb 6 .acc),
    ([0xDD, 0x34, 0x12], .cmp (.absX 0x1234)), ([0xDE, 0x34, 0x12], .dec (.absX 0x1234)), ([0xDF, 0x34], .clb 6 (.zp 0x34))] =
    true := by decide

theorem test_decode_rowE : readAll Config.base [
    ([0xE0, 0x34], .cpx (.imm 0x34)), ([0xE1, 0x34], .sbc (.indX 0x34)), ([0xE2, 0x34], .div 0x34),
    ([0xE3, 0x34], .bbs 7 .acc 0x34), ([0xE4, 0x34], .cpx (.zp 0x34)), ([0xE5, 0x34], .sbc (.zp 0x34)),
    ([0xE6, 0x34], .inc (.zp 0x34)), ([0xE7, 0x34, 0x12], .bbs 7 (.zp 0x34) 0x12), ([0xE8], .inx),
    ([0xE9, 0x34], .sbc (.imm 0x34)), ([0xEA], .nop), ([0xEB], .seb 7 .acc), ([0xEC, 0x34, 0x12], .cpx (.abs 0x1234)),
    ([0xED, 0x34, 0x12], .sbc (.abs 0x1234)), ([0xEE, 0x34, 0x12], .inc (.abs 0x1234)), ([0xEF, 0x34], .seb 7 (.zp 0x34))] =
    true := by decide

theorem test_decode_rowF : readAll Config.base [
    ([0xF0, 0x34], .beq 0x34), ([0xF1, 0x34], .sbc (.indY 0x34)), ([0xF3, 0x34], .bbc 7 .acc 0x34),
    ([0xF5, 0x34], .sbc (.zpX 0x34)), ([0xF6, 0x34], .inc (.zpX 0x34)), ([0xF7, 0x34, 0x12], .bbc 7 (.zp 0x34) 0x12),
    ([0xF8], .sed), ([0xF9, 0x34, 0x12], .sbc (.absY 0x1234)), ([0xFB], .clb 7 .acc),
    ([0xFD, 0x34, 0x12], .sbc (.absX 0x1234)), ([0xFE, 0x34, 0x12], .inc (.absX 0x1234)), ([0xFF, 0x34], .clb 7 (.zp 0x34))] =
    true := by decide

theorem test_decode_slwFst : readAll slwFst [([0xC2], .slw), ([0xE2], .fst)] = true := by decide
theorem test_decode_unassigned : decode Config.base [0x04, 0, 0] = .error (.unassigned 0x04) := rfl
theorem test_decode_missing : decode plain [0x62, 0, 0] = .error (.unassigned 0x62) := rfl
theorem test_decodeTableWord : decodeTableWord 24 0x12346D = some (.adc (.abs 0x1234)) ∧
    decodeTableWord 8 0x6D = some (.adc (.abs 0)) ∧ decodeTableWord 8 0x04 = none := by decide

/-! ### One step of every instruction: the vectors of spec/95_test_vectors.md, by their names there -/

theorem test_lda_V5 : leaves
    ({ at0 Config.base 0xE000 [0xA1, 0xFF] [(0x0000, 0x12), (0x00FF, 0x34), (0x0100, 0x77), (0x1234, 0x99)] with x := 0x00 })
    (fun s => { s with a := 0x99 }) [] 0x80 0xE002 = true := by decide
theorem test_lda_V7 : leaves
    ({ at0 Config.base 0xE000 [0xA9, 0x33] [(0x0040, 0xAA)] with a := 0x11, x := 0x40, ps := PS.ofByte 0x20 }) id
    [(0x0040, 0x33)] 0x20 0xE002 = true := by decide
theorem test_ldx_V8 : leaves ({ at0 Config.base 0xE000 [0xB6, 0x02] [(0x00E8, 0x80)] with y := 0xE6 })
    (fun s => { s with x := 0x80 }) [] 0x80 0xE002 = true := by decide
theorem test_ldy_V9 : leaves ({ at0 Config.base 0xE000 [0xBC, 0x34, 0x12] [(0x1235, 0x00)] with x := 0x01 }) id [] 0x02
    0xE003 = true := by decide
theorem test_sta_V10 : leaves
    ({ at0 Config.base 0xE000 [0x95, 0x20] [(0x0025, 0xFF)] with a := 0x00, x := 0x05, ps := PS.ofByte 0x80 }) id
    [(0x0025, 0x00)] 0x80 0xE002 = true := by decide
theorem test_sta_V11 : leaves
    ({ at0 Config.base 0xE000 [0x91, 0x20] [(0x0020, 0x00), (0x0021, 0x03)] with a := 0x5A, y := 0x10 }) id [(0x0310, 0x5A)]
    0x00 0xE002 = true := by decide
theorem test_stx_V12 : leaves ({ at0 Config.base 0xE000 [0x96, 0xF0] [] with x := 0x77, y := 0x20 }) id [(0x0010, 0x77)]
    0x00 0xE002 = true := by decide
theorem test_sty_V13 : leaves ({ at0 Config.base 0xE000 [0x8C, 0x00, 0x03] [] with y := 0x80 }) id [(0x0300, 0x80)] 0x00
    0xE003 = true := by decide
theorem test_ldm_V14 : leaves ({ at0 Config.base 0xE000 [0x3C, 0x5A, 0x33] [] with a := 0x01 }) id [(0x0033, 0x5A)] 0x00
    0xE003 = true := by decide
theorem test_tax_V15 : leaves ({ at0 Config.base 0xE000 [0xAA] [] with a := 0x00, x := 0x09 })
    (fun s => { s with x := 0x00 }) [] 0x02 0xE001 = true := by decide
theorem test_tay_V16 : leaves ({ at0 Config.base 0xE000 [0xA8] [] with a := 0xF0 }) (fun s => { s with y := 0xF0 }) [] 0x80
    0xE001 = true := by decide
theorem test_txa_V17 : leaves ({ at0 Config.base 0xE000 [0x8A] [] with a := 0x80, x := 0x7F, ps := PS.ofByte 0x80 })
    (fun s => { s with a := 0x7F }) [] 0x00 0xE001 = true := by decide
theorem test_tya_V18 : leaves ({ at0 Config.base 0xE000 [0x98] [] with a := 0x01, y := 0x00 })
    (fun s => { s with a := 0x00 }) [] 0x02 0xE001 = true := by decide
theorem test_tsx_V19 : leaves ({ at0 Config.base 0xE000 [0xBA] [] with s := 0xFD }) (fun s => { s with x := 0xFD }) [] 0x80
    0xE001 = true := by decide
theorem test_txs_V20 : leaves ({ at0 Config.base 0xE000 [0x9A] [] with x := 0x00, ps := PS.ofByte 0x80 })
    (fun s => { s with s := 0x00 }) [] 0x80 0xE001 = true := by decide
theorem test_adc_V36 : leaves
    ({ at0 Config.base 0xE000 [0x65, 0x60] [(0x0060, 0x40)] with x := 0x60, ps := PS.ofByte 0x21 }) id [(0x0060, 0x81)] 0xE0
    0xE002 = true := by decide
theorem test_adc_V39 : leavesDecimal ({ at0 Config.base 0xE000 [0x69, 0x46] [] with a := 0x58, ps := PS.ofByte 0x09 })
    (fun s => { s with a := 0x05 }) [] true 0xE002 = true := by decide
theorem test_sbc_V43 : leaves ({ at0 Config.base 0xE000 [0xE9, 0x01] [] with a := 0x80, ps := PS.ofByte 0x01 })
    (fun s => { s with a := 0x7F }) [] 0x41 0xE002 = true := by decide
theorem test_sbc_V47 : leavesDecimal ({ at0 Config.base 0xE000 [0xE9, 0x01] [] with a := 0x00, ps := PS.ofByte 0x09 })
    (fun s => { s with a := 0x99 }) [] false 0xE002 = true := by decide
theorem test_and_V50 : leaves
    ({ at0 Config.base 0xE000 [0x25, 0x50] [(0x0050, 0x81), (0x0060, 0xC3)] with a := 0xFF, x := 0x60, ps := PS.ofByte 0x20 })
    id [(0x0060, 0x81)] 0xA0 0xE002 = true := by decide
theorem test_ora_V51 : leaves ({ at0 Config.base 0xE000 [0x09, 0x80] [] with a := 0x01 }) (fun s => { s with a := 0x81 }) []
    0x80 0xE002 = true := by decide
theorem test_eor_V52 : leaves ({ at0 Config.base 0xE000 [0x45, 0x50] [(0x0050, 0xFF)] with a := 0xFF })
    (fun s => { s with a := 0x00 }) [] 0x02 0xE002 = true := by decide
theorem test_cmp_V55 : leaves ({ at0 Config.base 0xE000 [0xC9, 0x01] [] with a := 0x80 }) id [] 0x01
    0xE002 = true := by decide
theorem test_cmp_V56 : leaves
    ({ at0 Config.base 0xE000 [0xC9, 0x10] [(0x0060, 0x20)] with a := 0x00, x := 0x60, ps := PS.ofByte 0x20 }) id [] 0x21
    0xE002 = true := by decide
theorem test_cpx_V58 : leaves ({ at0 Config.base 0xE000 [0xE4, 0x50] [(0x0050, 0x06)] with x := 0x05 }) id [] 0x80
    0xE002 = true := by decide
theorem test_cpy_V59 : leaves ({ at0 Config.base 0xE000 [0xC0, 0x00] [] with y := 0x00 }) id [] 0x03
    0xE002 = true := by decide
theorem test_bit_V60 : leaves ({ at0 Config.base 0xE000 [0x24, 0x50] [(0x0050, 0xC0)] with a := 0x0F }) id [] 0xC2
    0xE002 = true := by decide
theorem test_tst_V63 : leaves (at0 Config.base 0xE000 [0x64, 0x50] [(0x0050, 0x80)]) id [] 0x80 0xE002 = true := by decide
theorem test_com_V65 : leaves (at0 Config.base 0xE000 [0x44, 0x50] [(0x0050, 0x55)]) id [(0x0050, 0xAA)] 0x80
    0xE002 = true := by decide
theorem test_inc_V66 : leaves (at0 Config.base 0xE000 [0xE6, 0x50] [(0x0050, 0xFF)]) id [(0x0050, 0x00)] 0x02
    0xE002 = true := by decide
theorem test_inc_V67 : leaves ({ at0 Config.base 0xE000 [0x3A] [] with a := 0x7F }) (fun s => { s with a := 0x80 }) [] 0x80
    0xE001 = true := by decide
theorem test_dec_V68 : leaves ({ at0 Config.base 0xE000 [0xDE, 0x00, 0x03] [(0x0302, 0x00)] with x := 0x02 }) id
    [(0x0302, 0xFF)] 0x80 0xE003 = true := by decide
theorem test_inx_V70 : leaves ({ at0 Config.base 0xE000 [0xE8] [] with x := 0xFF }) (fun s => { s with x := 0x00 }) [] 0x02
    0xE001 = true := by decide
theorem test_iny_V71 : leaves ({ at0 Config.base 0xE000 [0xC8] [] with y := 0x7F }) (fun s => { s with y := 0x80 }) [] 0x80
    0xE001 = true := by decide
theorem test_dex_V72 : leaves ({ at0 Config.base 0xE000 [0xCA] [] with x := 0x00 }) (fun s => { s with x := 0xFF }) [] 0x80
    0xE001 = true := by decide
theorem test_dey_V73 : leaves ({ at0 Config.base 0xE000 [0x88] [] with y := 0x01 }) (fun s => { s with y := 0x00 }) [] 0x02
    0xE001 = true := by decide
theorem test_mul_V74 : leaves ({ at0 Config.base 0xE000 [0x62, 0x10] [(0x0012, 0xFF)] with a := 0xFF, x := 0x02 })
    (fun s => { s with a := 0x01, s := 0xFE }) [(0x01FF, 0xFE)] 0x00 0xE002 = true := by decide
theorem test_mul_V75 : leaves
    ({ at0 Config.base 0xE000 [0x62, 0xF0] [(0x0010, 0x10)] with a := 0x10, x := 0x20, s := 0x00, ps := PS.ofByte 0x81 })
    (fun s => { s with a := 0x00, s := 0xFF }) [(0x0100, 0x01)] 0x81 0xE002 = true := by decide
theorem test_div_V77 : leaves
    ({ at0 Config.base 0xE000 [0xE2, 0x10] [(0x0010, 0x34), (0x0011, 0x12)] with a := 0x56, x := 0x00 })
    (fun s => { s with a := 0x36, s := 0xFE }) [(0x01FF, 0xEF)] 0x00 0xE002 = true := by decide
theorem test_div_V78 : leaves
    ({ at0 Config.base 0xE000 [0xE2, 0xFF] [(0x0000, 0x01), (0x00FF, 0x07), (0x0100, 0x55)] with a := 0x02, x := 0x00 })
    (fun s => { s with a := 0x83, s := 0xFE }) [(0x01FF, 0xFE)] 0x00 0xE002 = true := by decide
theorem test_asl_V90 : leaves (at0 Config.base 0xE000 [0x06, 0x50] [(0x0050, 0x80)]) id [(0x0050, 0x00)] 0x03
    0xE002 = true := by decide
theorem test_asl_V91 : leaves ({ at0 Config.base 0xE000 [0x0A] [] with a := 0x41, ps := PS.ofByte 0x01 })
    (fun s => { s with a := 0x82 }) [] 0x80 0xE001 = true := by decide
theorem test_lsr_V93 : leaves
    ({ at0 Config.base 0xE000 [0x56, 0x50] [(0x0051, 0xFE)] with x := 0x01, ps := PS.ofByte 0x80 }) id [(0x0051, 0x7F)] 0x00
    0xE002 = true := by decide
theorem test_rol_V94 : leaves ({ at0 Config.base 0xE000 [0x2A] [] with a := 0x80, ps := PS.ofByte 0x01 })
    (fun s => { s with a := 0x01 }) [] 0x01 0xE001 = true := by decide
theorem test_ror_V97 : leaves ({ at0 Config.base 0xE000 [0x66, 0x50] [(0x0050, 0x00)] with ps := PS.ofByte 0x01 }) id
    [(0x0050, 0x80)] 0x80 0xE002 = true := by decide
theorem test_rrf_V98 : leaves ({ at0 Config.base 0xE000 [0x82, 0x50] [(0x0050, 0xA5)] with ps := PS.ofByte 0x83 }) id
    [(0x0050, 0x5A)] 0x83 0xE002 = true := by decide
theorem test_clb_V100 : leaves (at0 Config.base 0xE000 [0xBF, 0x04] [(0x0004, 0xFF)]) id [(0x0004, 0xDF)] 0x00
    0xE002 = true := by decide
theorem test_clb_V101 : leaves ({ at0 Config.base 0xE000 [0xBB] [] with a := 0x20 }) (fun s => { s with a := 0x00 }) [] 0x00
    0xE001 = true := by decide
theorem test_seb_V102 : leaves ({ at0 Config.base 0xE000 [0xEB] [] with a := 0x00 }) (fun s => { s with a := 0x80 }) [] 0x00
    0xE001 = true := by decide
theorem test_seb_V104 : leaves (at0 Config.base 0xE000 [0x6F, 0x50] [(0x0050, 0x08)]) id [] 0x00 0xE002 = true := by decide
theorem test_clc_V110 : leaves ({ at0 Config.base 0xE000 [0x18] [] with ps := PS.ofByte 0xEF }) id [] 0xEE
    0xE001 = true := by decide
theorem test_sec_V111 : leaves (at0 Config.base 0xE000 [0x38] []) id [] 0x01 0xE001 = true := by decide
theorem test_cld_V112 : leaves ({ at0 Config.base 0xE000 [0xD8] [] with ps := PS.ofByte 0x08 }) id [] 0x00
    0xE001 = true := by decide
theorem test_sed_V113 : leaves (at0 Config.base 0xE000 [0xF8] []) id [] 0x08 0xE001 = true := by decide
theorem test_cli_V114 : leaves ({ at0 Config.base 0xE000 [0x58] [] with ps := PS.ofByte 0x04 }) id [] 0x00
    0xE001 = true := by decide
theorem test_sei_V115 : leaves (at0 Config.base 0xE000 [0x78] []) id [] 0x04 0xE001 = true := by decide
theorem test_clt_V116 : leaves ({ at0 Config.base 0xE000 [0x12] [] with ps := PS.ofByte 0x20 }) id [] 0x00
    0xE001 = true := by decide
theorem test_set_V117 : leaves (at0 Config.base 0xE000 [0x32] []) id [] 0x20 0xE001 = true := by decide
theorem test_clv_V118 : leaves ({ at0 Config.base 0xE000 [0xB8] [] with ps := PS.ofByte 0x40 }) id [] 0x00
    0xE001 = true := by decide
theorem test_pha_V120 : leaves ({ at0 Config.base 0xE000 [0x48] [] with a := 0x77, s := 0x00 })
    (fun s => { s with s := 0xFF }) [(0x0100, 0x77)] 0x00 0xE001 = true := by decide
theorem test_pha_V128 : leaves ({ at0 page0 0xE000 [0x48] [] with a := 0x5A, s := 0xBF }) (fun s => { s with s := 0xBE })
    [(0x00BF, 0x5A)] 0x00 0xE001 = true := by decide
theorem test_php_V121 : leaves ({ at0 Config.base 0xE000 [0x08] [] with ps := PS.ofByte 0xEF })
    (fun s => { s with s := 0xFE }) [(0x01FF, 0xEF)] 0xEF 0xE001 = true := by decide
theorem test_pla_V124 : leaves (at0 Config.base 0xE000 [0x68] [(0x0100, 0x80)]) (fun s => { s with a := 0x80, s := 0x00 })
    [] 0x80 0xE001 = true := by decide
theorem test_plp_V125 : leaves ({ at0 Config.base 0xE000 [0x28] [(0x01FF, 0xFF)] with s := 0xFE })
    (fun s => { s with s := 0xFF }) [] 0xEF 0xE001 = true := by decide
theorem test_nop_V127 : leaves ({ at0 Config.base 0xE000 [0xEA] [] with a := 0x12, ps := PS.ofByte 0x81 }) id [] 0x81
    0xE001 = true := by decide
theorem test_jmp_V141 : leaves (at0 Config.base 0xE000 [0x6C, 0x00, 0x14] [(0x1400, 0xFF), (0x1401, 0x1E)]) id [] 0x00
    0x1EFF = true := by decide
theorem test_jmp_V143 : leaves (at0 Config.base 0xE000 [0xB2, 0xFF] [(0x0000, 0x20), (0x00FF, 0x00), (0x0100, 0x30)]) id []
    0x00 0x2000 = true := by decide
theorem test_jsr_V146 : leaves (at0 sp1f 0x1000 [0x22, 0xE0] []) (fun s => { s with s := 0xFD })
    [(0x01FE, 0x01), (0x01FF, 0x10)] 0x00 0x1FE0 = true := by decide
theorem test_jsr_V148 : leaves ({ at0 page0 0xE000 [0x02, 0xFE] [(0x00FE, 0x00), (0x00FF, 0x30)] with s := 0x00 })
    (fun s => { s with s := 0xFE }) [(0x0000, 0xE0), (0x00FF, 0x01)] 0x00 0x0100 = true := by decide
theorem test_rts_V150 : leaves ({ at0 Config.base 0x1234 [0x60] [(0x01FE, 0xFF), (0x01FF, 0xFF)] with s := 0xFD })
    (fun s => { s with s := 0xFF }) [] 0x00 0x0000 = true := by decide
theorem test_rti_V151 : leaves
    ({ at0 Config.base 0xE100 [0x40] [(0x01FD, 0xD3), (0x01FE, 0x22), (0x01FF, 0xE0)] with s := 0xFC, ps := PS.ofByte 0x04 })
    (fun s => { s with s := 0xFF }) [] 0xC3 0xE022 = true := by decide
theorem test_bra_V153 : leaves (at0 Config.base 0xE000 [0x80, 0x80] []) id [] 0x00 0xDF82 = true := by decide
theorem test_bra_V163 : leaves (at0 Config.base 0xFFFE [0x80, 0x10] []) id [] 0x00 0x0010 = true := by decide
theorem test_bcc_V154 : leaves (at0 Config.base 0xE010 [0x90, 0xF2] []) id [] 0x00 0xE004 = true := by decide
theorem test_bcs_V156 : leaves ({ at0 Config.base 0xE000 [0xB0, 0x04] [] with ps := PS.ofByte 0x01 }) id [] 0x01
    0xE006 = true := by decide
theorem test_beq_V164 : leaves ({ at0 Config.base 0x0000 [0xF0, 0xF0] [] with ps := PS.ofByte 0x02 }) id [] 0x02
    0xFFF2 = true := by decide
theorem test_bne_V158 : leaves (at0 Config.base 0xE000 [0xD0, 0xFE] []) id [] 0x00 0xE000 = true := by decide
theorem test_bmi_V159 : leaves ({ at0 Config.base 0xE000 [0x30, 0x7F] [] with ps := PS.ofByte 0x80 }) id [] 0x80
    0xE081 = true := by decide
theorem test_bpl_V160 : leaves ({ at0 Config.base 0xE000 [0x10, 0x04] [] with ps := PS.ofByte 0x80 }) id [] 0x80
    0xE002 = true := by decide
theorem test_bvc_V161 : leaves (at0 Config.base 0xE000 [0x50, 0x04] []) id [] 0x00 0xE006 = true := by decide
theorem test_bvs_V162 : leaves (at0 Config.base 0xE000 [0x70, 0x04] []) id [] 0x00 0xE002 = true := by decide
theorem test_bbc_V165 : leaves (at0 Config.base 0xE010 [0xB7, 0x04, 0xF1] [(0x0004, 0x00)]) id [] 0x00
    0xE004 = true := by decide
theorem test_bbc_V168 : leaves ({ at0 Config.base 0xE010 [0xB3, 0xF2] [] with a := 0x20 }) id [] 0x00
    0xE012 = true := by decide
theorem test_bbs_V169 : leaves (at0 Config.base 0xE000 [0x07, 0x50, 0x04] [(0x0050, 0x01)]) id [] 0x00
    0xE007 = true := by decide
theorem test_bbs_V170 : leaves ({ at0 Config.base 0xE000 [0xE3, 0x04] [] with a := 0x7F }) id [] 0x00
    0xE002 = true := by decide
theorem test_brk_V171 : leaves
    ({ at0 Config.base 0xE020 [0x00] [(0xFFF4, 0x00), (0xFFF5, 0xE1)] with ps := PS.ofByte 0x03 })
    (fun s => { s with s := 0xFC }) [(0x01FD, 0x13), (0x01FE, 0x22), (0x01FF, 0xE0)] 0x07 0xE100 = true := by decide
theorem test_brk_V173 : leaves
    ({ at0 Config.base 0xE020 [0x00] [(0xFFF4, 0x00), (0xFFF5, 0xE1)] with s := 0x01, ps := PS.ofByte 0x2C })
    (fun s => { s with s := 0xFE }) [(0x0100, 0x22), (0x0101, 0xE0), (0x01FF, 0x3C)] 0x2C 0xE100 = true := by decide
theorem test_wit_V180 : leaves (at0 Config.base 0xE000 [0xC2] []) (fun s => { s with clk := .wait }) [] 0x00
    0xE001 = true := by decide
theorem test_stp_V181 : leaves (at0 Config.base 0xE000 [0x42] []) (fun s => { s with clk := .stop }) [] 0x00
    0xE001 = true := by decide
theorem test_fst_V183 : leaves (at0 slwFst 0xE000 [0xE2] []) (fun s => { s with xoutf := true }) [] 0x00
    0xE001 = true := by decide
theorem test_slw_V182 : leaves { at0 slwFst 0xE000 [0xC2] [] with xoutf := true } (fun s => { s with xoutf := false }) []
    0x00 0xE001 = true := by decide

/-- The word placed for the fetch runs in the very next step from reset: LDA #$80. -/
theorem test_withFetchWord : leaves (State.reset.withFetchWord 16 0x80A9) (fun s => { s with a := 0x80 }) [] 0x84 0x0002 =
    true := by decide

/-! ### Interrupts and hazards: spec/95_test_vectors.md sections 3 and 4 -/

/-- The start state of section 3, both sources enabled, the request byte as given. -/
def irqAt (request : Byte) : State :=
  { at0 irqChip 0xE00B [0xEA] [(0x003C, request), (0x003E, 0x03), (0xFFF9, 0xE2), (0xFFFB, 0xE3)] with
    ps := PS.ofByte 0x02 }

/-- I7: WAIT ends by the entry of k. -/
theorem test_I7 : leaves { irqAt 0x01 with clk := .wait } (fun s => { s with s := 0xFC, clk := .run })
    [(0x01FF, 0xE0), (0x01FE, 0x0B), (0x01FD, 0x02), (0x003C, 0x00)] 0x06 0xE200 = true := by decide
/-- I4: the source of higher priority, the other request stays. -/
theorem test_I4 : leaves { irqAt 0x03 with clk := .wait } (fun s => { s with s := 0xFC, clk := .run })
    [(0x01FF, 0xE0), (0x01FE, 0x0B), (0x01FD, 0x02), (0x003C, 0x01)] 0x06 0xE300 = true := by decide
/-- I2: with I = 1 the next instruction executes. -/
theorem test_I2 : leaves { irqAt 0x01 with ps := PS.ofByte 0x06 } id [] 0x06 0xE00C = true := by decide
/-- I8: the frame when S wraps. -/
theorem test_I8 : leaves { irqAt 0x01 with clk := .stop, s := 0x01 } (fun s => { s with s := 0xFE, clk := .run })
    [(0x0101, 0xE0), (0x0100, 0x0B), (0x01FF, 0x02), (0x003C, 0x00)] 0x06 0xE200 = true := by decide
/-- H2: PLP, then BCC. -/
theorem test_H2 : refuses (after (at0 Config.base 0xE000 [0x28, 0x90, 0x00] [])) .plpNotFollowedByNop = true := by decide
/-- H4: decimal ADC, then CLD. -/
theorem test_H4 : refuses (after { at0 Config.base 0xE000 [0x69, 0x01, 0xD8] [] with ps := PS.ofByte 0x08 })
    .flagInstructionAfterDecimal = true := by decide
/-- H6: binary ADC, then CLC. -/
theorem test_H6 : leaves (after (at0 Config.base 0xE000 [0x69, 0x01, 0x18] [])) id [] 0x00 0xE003 = true := by decide
/-- H11: STA to the last byte of the next instruction. -/
theorem test_H11 : refuses (after (at0 Config.base 0xE000 [0x8D, 0x05, 0xE0, 0x8D, 0x00, 0x00] []))
    (.overwroteNextInstruction 0xE005) = true := by decide

/-! ### For every statement with hypotheses, a state and operands that meet them all -/

/-- LDA #$28 at E000, one data byte, a pointer to it at 40 and 41. -/
def ws : State :=
  { at0 Config.base 0xE000 [0xA9, 0x28] [(0x0050, 0x28), (0x0040, 0x50), (0x0060, 0x81)] with a := 0x19, x := 0x60 }
/-- The same with T = 1. -/
def wt : State := { ws with ps := PS.ofByte 0x20 }
/-- The same in decimal mode. -/
def wd : State := { ws with ps := PS.ofByte 0x08 }
/-- A chip with ROM, SFRs and a hole, code in ROM. -/
def wm : State := at0 mapChip 0xE000 [0xA9, 0x28] [(0xFFFE, 0x00), (0xFFFF, 0xE0)]

theorem ready_ws : ws.Ready := ⟨.inl rfl, rfl, rfl⟩

theorem test_witness_DecodeOfEncode : (Instr.mul 0x10).wf Config.base = true ∧ Instr.fst.wf slwFst = true := by decide
theorem test_witness_EncodeOfDecode : decode Config.base [0x69, 0xA5, 0xEA] = .ok (.adc (.imm 0xA5), [0xEA]) := rfl
theorem test_witness_UnassignedOpcodes : (∃ sh, lookup Config.base 0x00 = some sh) ∧
    ∃ s : State, s.Ready ∧ s.pc ∉ s.last.written ∧ s.present s.pc = true ∧ lookup s.cfg (s.peek s.pc) = none :=
  ⟨⟨_, rfl⟩, at0 Config.base 0xE000 [0xFC] [], ⟨.inl rfl, rfl, rfl⟩, by decide, by decide, rfl⟩
theorem test_witness_StepRuns : (ws.Ready ∧ (Instr.lda (.imm 0x28)).wf ws.cfg = true ∧
      ws.Holds ws.pc (encode (.lda (.imm 0x28))) ∧ hazard ws (.lda (.imm 0x28)) = none) ∧
    State.Ready { ws with inputs := [.cpu, .reset] } :=
  ⟨⟨ready_ws, rfl, ⟨by decide, rfl, rfl, by decide, rfl, rfl, trivial⟩, rfl⟩, .inr ⟨_, rfl⟩, rfl, rfl⟩
theorem test_witness_StepKeepsMemoryCanonical : ws.mem.wf = true ∧ step ws = .next (after ws) := ⟨by decide, rfl⟩
theorem test_witness_StepNeverChangesRom : step wm = .next (after wm) ∧ kindAt wm.cfg 0xE000 = .rom ∧
    kindAt wm.cfg 0x20FF = .romIgnoringWrites := ⟨rfl, rfl, rfl⟩
theorem test_witness_StepKeepsTheChip : step ws = .next (after ws) ∧
    (∀ l ∈ ws.last.changed, ∃ k ∈ ws.cfg.irqSources, k.request = l) ∧ (∀ k ∈ ws.last.forced, k ∈ ws.cfg.irqSources) := by
  refine ⟨rfl, ?_, ?_⟩ <;> intro _ h <;> cases h

/-- A source of `mapChip`: its request bit lies in the byte of the Stack Page Selection Bit, and resets to 1. -/
def srcR : IrqSource := ⟨"r", 0xFFF8, ⟨0x003B, 0⟩, ⟨0x003E, 0⟩, 1, true, true, false⟩
/-- A machine of `mapChip`, with that source, that is being reset. -/
def wr : State := { wm with inputs := [.reset], cfg := { mapChip with irqSources := [srcR] } }

theorem test_witness_ResetEvent : (wr.inputs = .reset :: [] ∧ ∃ t, step wr = .next t) ∧
    (kindAt wr.cfg 0xE000 = .rom ∧ kindAt wr.cfg 0x2000 = .romIgnoringWrites) ∧
    (wr.cfg.stackPage = .selectable 0x3B 2 (some true) ∧ wr.writable (zeroPage 0x3B) = true ∧
      ∀ k ∈ wr.cfg.irqSources, k.request ≠ ⟨zeroPage 0x3B, 2⟩ ∧ k.enable ≠ ⟨zeroPage 0x3B, 2⟩) ∧
    wr.writable srcR.request.addr = true ∧
    (∃ k ∈ wr.cfg.irqSources, (k.request = srcR.request ∧ k.requestReset = true) ∨
      (k.enable = srcR.request ∧ k.enableReset = true)) ∧
    ∀ k ∈ wr.cfg.irqSources, (k.request = srcR.request → k.requestReset = true) ∧
      (k.enable = srcR.request → k.enableReset = true) := by
  refine ⟨⟨rfl, ?_⟩, by decide, ⟨rfl, by decide, by decide⟩, by decide, by decide, by decide⟩
  have h : ∀ u m a, (State.resetBeforeVector wr.cfg u m).present a = (kindAt wr.cfg a != .absent) := fun u m a => by
    refine congrArg (fun c => kindAt c a != .absent) ?_
    unfold State.resetBeforeVector State.resetSources State.resetStackPage
    simp [wr, mapChip, Config.base]
  exact ⟨_, (resetEvent_eq_next (s := wr.setInputs [])).mpr
    ⟨_, read16_eq_next.mpr ⟨h _ _ _, h _ _ _, rfl⟩, rfl⟩⟩
theorem test_witness_LoadAfterStore : ws.mem.wf = true ∧ ws.writable 0xFFFF = true ∧ ws.storable 0xFFFF 0x01 = true := by
  decide
theorem test_witness_AccessesTheMapForbids : kindAt mapChip 0x1100 = .absent ∧ kindAt mapChip 0xFFFF = .rom ∧
    kindAt mapChip 0x2000 = .romIgnoringWrites ∧ srcK ∈ irqChip.irqSources ∧
    (irqAt 0x00).bitAt srcK.request = false ∧ testBit srcK.request.bit 0x01 = true ∧ kindAt irqChip 0x003C = .ram := by
  decide
theorem test_witness_EffectiveAddresses :
    load ws (BitVec.ofNat 16 ((0xFF + ws.x.toNat) % 0x100)) = .next 0x00 ∧
    load ws (BitVec.ofNat 16 ((0xFF + ws.x.toNat + 1) % 0x100)) = .next 0x81 ∧
    load ws (BitVec.ofNat 16 0x40) = .next 0x50 ∧ load ws (BitVec.ofNat 16 ((0x40 + 1) % 0x100)) = .next 0x00 :=
  ⟨rfl, rfl, rfl, rfl⟩
theorem test_witness_LdaLoads : readSource ws (sourceOfAlu (.zp 0x50)) = .next 0x28 ∧ ws.ps.t = false ∧
    readSource wt (sourceOfAlu (.zp 0x50)) = .next 0x28 ∧ wt.ps.t = true ∧ wt.storable (zeroPage wt.x) 0x28 = true :=
  ⟨rfl, rfl, rfl, rfl, by decide⟩
theorem test_witness_LdxLdyLoad : readSource ws (sourceOfLdx (.zp 0x50)) = .next 0x28 ∧
    readSource ws (sourceOfLdy (.zpX 0xF0)) = .next 0x28 := ⟨rfl, rfl⟩
theorem test_witness_StoresStore :
    effectiveAddr ws (modeOfSta (.indY 0x40)) = .next 0x0050 ∧ ws.storable 0x0050 ws.a = true ∧
    effectiveAddr ws (modeOfStx (.zpY 0x50)) = .next 0x0050 ∧ ws.storable 0x0050 ws.x = true ∧
    effectiveAddr ws (modeOfSty (.abs 0xFFFF)) = .next 0xFFFF ∧ ws.storable 0xFFFF ws.y = true :=
  ⟨rfl, by decide, rfl, by decide, rfl, by decide⟩
theorem test_witness_LdmStores : ws.storable (zeroPage 0xFF) 0x5A = true := by decide
theorem test_witness_AdcSbcBinary : ws.ps.d = false ∧ readSource ws (sourceOfAlu (.zp 0x50)) = .next 0x28 ∧
    op1 ws = .next 0x19 ∧ ws.ps.t = false ∧
    wt.ps.d = false ∧ readSource wt (sourceOfAlu (.zp 0x50)) = .next 0x28 ∧ op1 wt = .next 0x81 ∧ wt.ps.t = true ∧
    wt.storable (zeroPage wt.x) 0xA9 = true ∧ wt.storable (zeroPage wt.x) 0x58 = true :=
  ⟨rfl, rfl, rfl, rfl, rfl, rfl, rfl, rfl, by decide, by decide⟩
theorem test_witness_DecimalMode : (wd.ps.d = true ∧ readSource wd (sourceOfAlu (.zp 0x50)) = .next 0x28 ∧
      op1 wd = .next 0x19 ∧ validBcd 0x19 = true ∧ validBcd 0x28 = true ∧ wd.ps.t = false) ∧
    ∃ s : State, s.ps.d = true ∧ readSource s (sourceOfAlu (.zp 0x50)) = .next 0x28 ∧ op1 s = .next 0x81 ∧
      validBcd 0x81 = true ∧ s.ps.t = true ∧ ∀ r, s.storable (zeroPage s.x) r = true :=
  ⟨⟨rfl, rfl, rfl, rfl, rfl, rfl⟩, { wd with ps := PS.ofByte 0x28 }, rfl, rfl, rfl, rfl, rfl, by decide⟩
theorem test_witness_LogicT : readSource wt (sourceOfAlu (.zp 0x50)) = .next 0x28 ∧ op1 wt = .next 0x81 ∧ wt.ps.t = true ∧
    wt.storable (zeroPage wt.x) (0x81 &&& 0x28) = true ∧ wt.storable (zeroPage wt.x) (0x81 ||| 0x28) = true ∧
    wt.storable (zeroPage wt.x) (0x81 ^^^ 0x28) = true := ⟨rfl, rfl, rfl, by decide, by decide, by decide⟩
theorem test_witness_LogicA : readSource ws (sourceOfAlu (.imm 0x28)) = .next 0x28 ∧ op1 ws = .next 0x19 ∧ ws.ps.t = false :=
  ⟨rfl, rfl, rfl⟩
theorem test_witness_ComparesBit : readSource ws (sourceOfAlu (.abs 0x0050)) = .next 0x28 ∧ op1 ws = .next 0x19 ∧
    readSource ws (sourceOfCp (.zp 0x50)) = .next 0x28 ∧ readSource ws (sourceOfBit (.abs 0x0050)) = .next 0x28 :=
  ⟨rfl, rfl, rfl, rfl⟩
theorem test_witness_TstComRrf : ws.present (zeroPage 0x50) = true ∧
    (0xD7#8).toNat + (ws.peek (zeroPage 0x50)).toNat = 0xFF ∧ ws.storable (zeroPage 0x50) 0xD7 = true ∧
    ws.storable (zeroPage 0x50) ((ws.peek (zeroPage 0x50)).rotateRight 4) = true := by decide
theorem test_witness_IncDec : placeOfRmw (.absX 0xFFF0) = .mem (.absX 0xFFF0) ∧
    effectiveAddr ws (.absX 0xFFF0) = .next 0x0050 ∧ ws.present 0x0050 = true ∧
    ws.storable 0x0050 (ws.peek 0x0050 + 1) = true ∧ ws.storable 0x0050 (ws.peek 0x0050 - 1) = true :=
  ⟨rfl, rfl, by decide, by decide, by decide⟩
theorem test_witness_Mul : readSource ws (.mem (.zpX 0xF0)) = .next 0x28 ∧ ws.storable ws.stackAddr 0x03 = true :=
  ⟨rfl, by decide⟩
theorem test_witness_Div : readZp16 ws (0xF0 + ws.x) = .next 0x0028 ∧
    (0x0028#16).toNat = (0x01#8).toNat * ws.a.toNat + (0x0F#8).toNat ∧ (0x0F#8).toNat < ws.a.toNat ∧
    ws.storable ws.stackAddr (0x0F ^^^ 0xFF) = true := ⟨rfl, rfl, by decide, by decide⟩
theorem test_witness_UndefinedResults : wd.ps.d = true ∧ readSource wd (sourceOfAlu (.imm 0x0A)) = .next 0x0A ∧
    op1 wd = .next 0x19 ∧ wd.ps.t = false ∧
    (∃ s : State, s.ps.d = true ∧ readSource s (sourceOfAlu (.imm 0x0A)) = .next 0x0A ∧ op1 s = .next 0x81 ∧
      s.ps.t = true ∧ ∀ r, s.storable (zeroPage s.x) r = true) ∧
    (∃ s : State, readZp16 s (0x50 + s.x) = .next 0x0028 ∧ s.a = 0 ∧ ∀ b, s.storable s.stackAddr b = true) ∧
    (∃ s : State, readZp16 s (0x51 + s.x) = .next 0x0100 ∧ 0xFF < (0x0100#16).toNat / s.a.toNat ∧
      ∀ b, s.storable s.stackAddr b = true) :=
  ⟨rfl, rfl, rfl, rfl, ⟨{ wt with ps := PS.ofByte 0x28 }, rfl, rfl, rfl, rfl, by decide⟩,
    ⟨{ ws with a := 0, x := 0 }, rfl, rfl, by decide⟩,
    ⟨{ at0 Config.base 0xE000 [] [(0x0052, 0x01)] with a := 1 }, rfl, by decide, by decide⟩⟩
theorem test_witness_AslLsr : (0x50#8).toNat = 2 * (0x28#8).toNat % 0x100 ∧ (0x14#8).toNat = (0x28#8).toNat / 2 ∧
    placeOfRmw (.zp 0x50) = .mem (.zp 0x50) ∧ effectiveAddr ws (.zp 0x50) = .next 0x0050 ∧ load ws 0x0050 = .next 0x28 ∧
    ws.storable 0x0050 0x50 = true ∧ ws.storable 0x0050 0x14 = true ∧ ∃ s : State, 0x28 = s.a :=
  ⟨rfl, rfl, rfl, rfl, rfl, by decide, by decide, { ws with a := 0x28 }, rfl⟩
theorem test_witness_RolRor : BitVec.ofBool true ++ 0x03#8 = (BitVec.ofBool true ++ 0x81#8).rotateLeft 1 ∧
    BitVec.ofBool true ++ 0xC0#8 = (BitVec.ofBool true ++ 0x81#8).rotateRight 1 ∧
    ∃ s : State, s.ps.c = true ∧ s.a = 0x81 ∧ placeOfRmw (.zp 0x60) = .mem (.zp 0x60) ∧
      effectiveAddr s (.zp 0x60) = .next 0x0060 ∧ load s 0x0060 = .next 0x81 ∧ s.storable 0x0060 0x03 = true ∧
      s.storable 0x0060 0xC0 = true :=
  ⟨by decide, by decide, { ws with a := 0x81, ps := PS.ofByte 0x01 }, rfl, rfl, rfl, rfl, rfl, by decide, by decide⟩
theorem test_witness_ClbSeb : (∀ j : Nat, j < 8 → (0x01#8).getLsbD j = ((0x81#8).getLsbD j && decide (j ≠ (7#3).toNat))) ∧
    (∀ j : Nat, j < 8 → (0x81#8).getLsbD j = ((0x81#8).getLsbD j || decide (j = (7#3).toNat))) ∧
    load ws (zeroPage 0x60) = .next 0x81 ∧ ws.storable (zeroPage 0x60) 0x01 = true ∧
    ws.storable (zeroPage 0x60) 0x81 = true ∧ ∃ s : State, 0x81 = s.a :=
  ⟨by decide, by decide, rfl, by decide, by decide, { ws with a := 0x81 }, rfl⟩
theorem test_witness_StackInstructions : (∀ j : Nat, j < 8 → (0x00#8).getLsbD j =
      [ws.ps.c, ws.ps.z, ws.ps.i, ws.ps.d, false, ws.ps.t, ws.ps.v, ws.ps.n].getD j false) ∧
    ws.storable (joinAddr ws.stackPage ws.s) ws.a = true ∧ ws.storable (joinAddr ws.stackPage ws.s) 0x00 = true ∧
    ws.present (joinAddr ws.stackPage (ws.s + 1)) = true ∧ ws.cfg.legal = true := by decide

/-- In `ws` the next three bytes of stack are plain RAM. -/
theorem stackFree_ws (n : Nat) (h : n ≤ 3) : ws.StackFree n := by
  have h3 : ∀ m < 3, ws.writable (ws.below m) = true ∧ ∀ k ∈ ws.cfg.irqSources, k.request.addr ≠ ws.below m := by decide
  exact fun m hm => h3 m (by omega)
theorem pageKept_ws (n : Nat) : ws.PageKept n := fun _ _ _ h => by cases h

theorem test_witness_PlpUndoesPhp : ∃ t, ws.mem.wf = true ∧ ws.StackFree 1 ∧ ws.PageKept 1 ∧ exec .php ws = .next t ∧
    SameStackTop t t 1 :=
  ⟨_, by decide, stackFree_ws 1 (by omega), pageKept_ws 1, rfl, rfl, rfl, rfl, rfl, fun _ _ => rfl⟩
theorem test_witness_Jmp : loByte 0x0040 ≠ 0xFF ∧ load ws 0x0040 = .next 0x50 ∧ load ws (0x0040 + 1) = .next 0x00 ∧
    loByte 0x12FF = 0xFF ∧ load ws (zeroPage 0xFF) = .next 0x00 ∧ load ws (zeroPage (0xFF + 1)) = .next 0x00 :=
  ⟨by decide, rfl, rfl, by decide, rfl, rfl⟩
theorem test_witness_Jsr : ws.storable ws.stackAddr (hiByte (ws.pc - 1)) = true ∧
    (ws.pushed (hiByte (ws.pc - 1))).storable (ws.pushed (hiByte (ws.pc - 1))).stackAddr (loByte (ws.pc - 1)) = true ∧
    load ((ws.pushed (hiByte (ws.pc - 1))).pushed (loByte (ws.pc - 1))) (zeroPage 0x40) = .next 0x50 ∧
    load ((ws.pushed (hiByte (ws.pc - 1))).pushed (loByte (ws.pc - 1))) (zeroPage (0x40 + 1)) = .next 0x00 :=
  ⟨by decide, by decide, rfl, rfl⟩
theorem test_witness_RtsRti : ws.present (joinAddr ws.stackPage (ws.s + 1)) = true ∧
    ws.present (joinAddr ws.stackPage (ws.s + 2)) = true ∧ ws.present (joinAddr ws.stackPage (ws.s + 3)) = true := by decide
theorem test_witness_RtsResumes : ∃ t, ws.mem.wf = true ∧ ws.StackFree 2 ∧ ws.PageKept 2 ∧
    exec (.jsr (.sp 0xE0)) ws = .next t ∧ SameStackTop t t 2 :=
  ⟨_, by decide, stackFree_ws 2 (by omega), pageKept_ws 2, rfl, rfl, rfl, rfl, rfl, fun _ _ => rfl⟩
theorem test_witness_BitBranches : load ws (zeroPage 0x50) = .next 0x28 := rfl
theorem test_witness_Brk : (ws.mem.wf = true ∧ ws.StackFree 3 ∧ ws.PageKept 3 ∧ ws.last.changed = [] ∧
      ws.present ws.cfg.vecBrk = true ∧ ws.present (ws.cfg.vecBrk + 1) = true ∧ ws.ps.i = false) ∧
    ∃ s : State, s.cfg.series38000 = false ∧ s.ps.i = true ∧ srcK ∈ s.cfg.irqSources ∧ s.bitAt srcK.request = true ∧
      s.bitAt srcK.enable = true :=
  ⟨⟨by decide, stackFree_ws 3 (by omega), pageKept_ws 3, rfl, by decide, by decide, rfl⟩,
    { irqAt 0x01 with ps := PS.ofByte 0x04 }, by decide, by decide, by decide, by decide, by decide⟩

/-- A waiting machine that an interrupt of source k ends. -/
def wi : State := { irqAt 0x01 with clk := .wait }

theorem test_witness_InterruptTaken :
    (wi.last.kind = .none ∧ wi.last.changed = [] ∧ wi.last.forced = [] ∧ wi.interruptTaken = some srcK) ∧
    (∃ s : State, s.last.kind = .none ∧ s.last.changed = [] ∧ s.last.forced = [] ∧ s.last.written ≠ [] ∧
      s.ps.i = true) ∧
    ∀ k ∈ (irqAt 0x00).cfg.irqSources, (irqAt 0x00).bitAt k.request = false ∨ (irqAt 0x00).bitAt k.enable = false :=
  ⟨⟨rfl, rfl, rfl, by decide⟩,
    ⟨{ State.reset with last := { Last.none with written := [0x0040] } }, rfl, rfl, rfl, by decide, rfl⟩, by decide⟩
theorem test_witness_InterruptBoundary :
    (wi.CpuTurn ∧ wi.forcedSource = none ∧ wi.candidate = some srcK ∧ wi.clk ≠ .run) ∧
    (∃ s : State, s.CpuTurn ∧ s.inputs ≠ [] ∧ s.forcedSource = none ∧ s.candidate = some srcK ∧ s.clk = .run) ∧
    (∃ s : State, s.CpuTurn ∧ s.clk ≠ .run ∧ s.forcedSource = none ∧ s.candidate = none ∧ s.inputs = [.cpu] ∧
      s.inputs.tail = []) ∧
    ∃ s : State, s.CpuTurn ∧ s.clk ≠ .run ∧ s.forcedSource = none ∧ s.candidate = none ∧ s.inputs.tail ≠ [] :=
  ⟨⟨.inl rfl, by decide, by decide, by decide⟩,
    ⟨{ irqAt 0x01 with inputs := [.cpu] }, .inr ⟨_, rfl⟩, by decide, by decide, by decide, rfl⟩,
    ⟨{ ws with clk := .stop, inputs := [.cpu] }, .inr ⟨_, rfl⟩, by decide, by decide, by decide, rfl, rfl⟩,
    { ws with clk := .stop, inputs := [.cpu, .request 0] }, .inr ⟨_, rfl⟩, by decide, by decide, by decide, by decide⟩
theorem test_witness_Fairness : srcK ∈ (irqAt 0x01).cfg.irqSources ∧ (irqAt 0x01).acceptable srcK = true ∧
    (∃ t, instructionStep (irqAt 0x01) = .next t) ∧ (∃ t, enterInterrupt (irqAt 0x01) srcK = .next t) ∧
    core.run 0 (irqAt 0x01) = .next (irqAt 0x01) := ⟨by decide, by decide, ⟨_, rfl⟩, ⟨_, rfl⟩, rfl⟩

theorem stackFree_wi (n : Nat) (h : n ≤ 3) : wi.StackFree n := by
  have h3 : ∀ m < 3, wi.writable (wi.below m) = true ∧ ∀ k ∈ wi.cfg.irqSources, k.request.addr ≠ wi.below m := by decide
  exact fun m hm => h3 m (by omega)
theorem pageKept_wi (n : Nat) : wi.PageKept n := fun _ _ _ h => by cases h

theorem test_witness_InterruptEntry : wi.CpuTurn ∧ wi.interruptTaken = some srcK ∧ wi.mem.wf = true ∧
    wi.StackFree 3 ∧ wi.PageKept 3 ∧ wi.last.changed = [] ∧ srcK ∈ wi.cfg.irqSources ∧ wi.present srcK.vector = true ∧
    wi.present (srcK.vector + 1) = true ∧ srcK.autoClear = true ∧ wi.writable srcK.request.addr = true :=
  ⟨.inl rfl, by decide, by decide, stackFree_wi 3 (by omega), pageKept_wi 3, rfl, by decide, by decide, by decide, rfl,
    by decide⟩
/-- As `wi`, for source m, whose request bit the entry leaves. -/
def wm2 : State := { at0 irqChip 0xE00B [0xEA] [(0x003A, 0x03)] with clk := .wait }
theorem test_witness_InterruptEntry_m : wm2.interruptTaken = some srcM ∧ wm2.mem.wf = true ∧ wm2.StackFree 3 ∧
    srcM ∈ wm2.cfg.irqSources ∧ wm2.present srcM.vector = true ∧ wm2.present (srcM.vector + 1) = true ∧
    srcM.autoClear = false := by
  refine ⟨by decide, by decide, ?_, by decide, by decide, by decide, rfl⟩
  unfold State.StackFree
  decide
theorem test_witness_RtiResumes : ∃ t, wi.mem.wf = true ∧ wi.StackFree 3 ∧ wi.PageKept 3 ∧ srcK ∈ wi.cfg.irqSources ∧
    (∀ zp bit r, wi.cfg.stackPage = .selectable zp bit r → srcK.request ≠ ⟨zeroPage zp, bit⟩) ∧
    enterInterrupt wi srcK = .next t ∧ SameStackTop t t 3 :=
  ⟨_, by decide, stackFree_wi 3 (by omega), pageKept_wi 3, by decide, fun _ _ _ h => (by cases h), rfl, rfl, rfl, rfl, rfl,
    fun _ _ => rfl⟩
theorem test_witness_Environment : (∃ s : State, s.inputs = .request 1 :: [] ∧ s.cfg.irqSources[1]? = some srcJ ∧
      s.mem.wf = true ∧ s.writable srcJ.request.addr = true) ∧
    ∃ s : State, s.inputs = .device 0x1000 0xAA :: [] ∧ kindAt s.cfg 0x1000 = .sfr ∧ s.mem.wf = true :=
  ⟨⟨{ irqAt 0x00 with inputs := [.request 1] }, rfl, rfl, by decide, by decide⟩,
    ⟨{ wm with inputs := [.device 0x1000 0xAA] }, rfl, rfl, by decide⟩⟩

/-- PLP, then the byte `next`; the byte PLP pulls is 0. -/
def wp (c : Config) (next : Byte) : State := at0 c 0xE000 [0x28, next] []

theorem test_witness_NopAfterPlp :
    ((wp Config.base 0x18).Ready ∧ fetch (wp Config.base 0x18) = .next (.plp, 1) ∧
      step (wp Config.base 0x18) = .next (after (wp Config.base 0x18)) ∧ (after (wp Config.base 0x18)).Ready ∧
      fetch (after (wp Config.base 0x18)) = .next (.clc, 1) ∧
      (after (wp Config.base 0x18)).cfg.series38000 = false ∧ Instr.clc ≠ .nop) ∧
    ((wp Config.base 0xEA).Ready ∧ fetch (wp Config.base 0xEA) = .next (.plp, 1) ∧
      step (wp Config.base 0xEA) = .next (after (wp Config.base 0xEA)) ∧ (after (wp Config.base 0xEA)).Ready ∧
      fetch (after (wp Config.base 0xEA)) = .next (.nop, 1)) ∧
    ∃ s : State, s.Ready ∧ fetch s = .next (.rti, 1) ∧ step s = .next (after s) ∧ (after s).Ready ∧
      fetch (after s) = .next (.clc, 1) :=
  ⟨⟨⟨.inl rfl, rfl, rfl⟩, rfl, rfl, ⟨.inl rfl, rfl, rfl⟩, rfl, rfl, by decide⟩,
    ⟨⟨.inl rfl, rfl, rfl⟩, rfl, rfl, ⟨.inl rfl, rfl, rfl⟩, rfl⟩,
    at0 Config.base 0xE000 [0x40] [(0x0000, 0x18)], ⟨.inl rfl, rfl, rfl⟩, rfl, rfl, ⟨.inl rfl, rfl, rfl⟩, rfl⟩

/-- ADC #$01, then the byte `next`, with these flags. -/
def wa (flags next : Byte) : State := { at0 Config.base 0xE000 [0x69, 0x01, next] [] with ps := PS.ofByte flags }

theorem test_witness_NoFlagInstruction :
    ((wa 0x08 0x18).Ready ∧ fetch (wa 0x08 0x18) = .next (.adc (.imm 0x01), 2) ∧
      step (wa 0x08 0x18) = .next (after (wa 0x08 0x18)) ∧ (after (wa 0x08 0x18)).Ready ∧
      fetch (after (wa 0x08 0x18)) = .next (.clc, 1) ∧ (wa 0x08 0x18).ps.d = true) ∧
    ((wa 0x00 0x18).Ready ∧ step (wa 0x00 0x18) = .next (after (wa 0x00 0x18)) ∧ (after (wa 0x00 0x18)).Ready ∧
      fetch (after (wa 0x00 0x18)) = .next (.clc, 1) ∧ (wa 0x00 0x18).ps.d = false) :=
  ⟨⟨⟨.inl rfl, rfl, rfl⟩, rfl, rfl, ⟨.inl rfl, rfl, rfl⟩, rfl, rfl⟩, ⟨.inl rfl, rfl, rfl⟩, rfl, ⟨.inl rfl, rfl, rfl⟩, rfl, rfl⟩

/-- STA to the opcode (E003), the second (E004) or the third byte (E005) of the next instruction. -/
def wo (target : Byte) : State := at0 Config.base 0xE000 [0x8D, target, 0xE0, 0xAD, 0x00, 0x00] []

theorem test_witness_Overwritten :
    ((wo 0x03).Ready ∧ fetch (wo 0x03) = .next (.sta (.abs 0xE003), 3) ∧ step (wo 0x03) = .next (after (wo 0x03)) ∧
      storeDest (wo 0x03) (.sta (.abs 0xE003)) = some (.at (.abs 0xE003)) ∧
      destAddr ((wo 0x03).turn.fetched 3) (.at (.abs 0xE003)) = .next 0xE003 ∧ (wo 0x03).writable 0xE003 = true) ∧
    ((after (wo 0x03)).Ready ∧ (after (wo 0x03)).pc ∈ (after (wo 0x03)).last.written) ∧
    (∀ j ∈ [1, 2], ∃ (t : State) (sh : Shape), t.Ready ∧ t.present t.pc = true ∧
      lookup t.cfg (t.peek t.pc) = some sh ∧ j < sh.length ∧
      (∀ m < j, t.pc + BitVec.ofNat 16 m ∉ t.last.written ∧ t.present (t.pc + BitVec.ofNat 16 m) = true) ∧
      t.pc + BitVec.ofNat 16 j ∈ t.last.written) := by
  refine ⟨⟨⟨.inl rfl, rfl, rfl⟩, rfl, rfl, rfl, rfl, by decide⟩, ⟨⟨.inl rfl, rfl, rfl⟩, by decide⟩, ?_⟩
  intro j hj
  rcases List.mem_cons.mp hj with rfl | hj
  · exact ⟨after (wo 0x04), _, ⟨.inl rfl, rfl, rfl⟩, by decide, rfl, by decide, by decide, by decide⟩
  · obtain rfl := List.mem_singleton.mp hj
    exact ⟨after (wo 0x05), _, ⟨.inl rfl, rfl, rfl⟩, by decide, rfl, by decide, by decide, by decide⟩
theorem test_witness_Overwritten_pushes : ws.Ready ∧ ws.StackFree 3 ∧ ws.PageKept 3 ∧
    (∃ s : State, s.Ready ∧ fetch s = .next (.jsr (.abs 0x1234), 3) ∧ step s = .next (after s) ∧ s.StackFree 2 ∧
      s.PageKept 2) ∧
    (∃ s : State, s.Ready ∧ fetch s = .next (.brk, 1) ∧ step s = .next (after s) ∧ s.StackFree 3 ∧ s.PageKept 3) ∧
    storesNothing ws (.lda (.imm 0x28)) = true ∧ fetch ws = .next (.lda (.imm 0x28), 2) := by
  have h : ∀ s : State, s.cfg = ws.cfg → s.s = ws.s → s.StackFree 3 ∧ s.PageKept 3 := fun s hc hs => by
    have hb : ∀ m, s.below m = ws.below m := fun m => by
      unfold State.below State.stackPage
      rw [hc, hs]
      rfl
    refine ⟨fun m hm => ?_, fun zp bit r hp => ?_⟩
    · have := stackFree_ws 3 (by omega) m hm
      unfold State.writable at this ⊢
      rwa [hb, hc]
    · rw [hc] at hp
      cases hp
  refine ⟨ready_ws, stackFree_ws 3 (by omega), pageKept_ws 3, ?_, ?_, rfl, rfl⟩
  · refine ⟨at0 Config.base 0xE000 [0x20, 0x34, 0x12] [], ⟨.inl rfl, rfl, rfl⟩, rfl, rfl, ?_, ?_⟩
    · exact fun m hm => (h _ rfl rfl).1 m (by omega)
    · exact fun zp bit r hp => (by cases hp)
  · exact ⟨at0 Config.base 0xE000 [0x00] [], ⟨.inl rfl, rfl, rfl⟩, rfl, rfl, (h _ rfl rfl).1, (h _ rfl rfl).2⟩

/-- CLB 0 of the request byte: it clears the request of k, I being 1. -/
def wc : State := { at0 irqChip 0xE000 [0x1F, 0x3C] [(0x003C, 0x01)] with ps := PS.ofByte 0x04 }
/-- STX to the byte of both bits of m: the request goes to 0 and the enable to 1. -/
def wf : State := { at0 irqChip 0xE000 [0x86, 0x3A] [(0x003A, 0x01)] with x := 0x02 }

theorem test_witness_JustChanged :
    (wc.Ready ∧ step wc = .next (after wc) ∧ srcK ∈ wc.cfg.irqSources ∧
      (after wc).bitAt srcK.request ≠ wc.bitAt srcK.request) ∧
    (ws.Ready ∧ step ws = .next (after ws) ∧
      ∀ k ∈ ws.cfg.irqSources, (after ws).bitAt k.request = ws.bitAt k.request) ∧
    ∀ l ∈ (after wc).last.changed, l.addr = 0x003C → l.bit ≠ 1 :=
  ⟨⟨⟨.inl rfl, rfl, by decide⟩, rfl, by decide, by decide⟩, ⟨ready_ws, rfl, by decide⟩, by decide⟩
theorem test_witness_ClearAndEnable : wf.Ready ∧ step wf = .next (after wf) ∧ srcM ∈ wf.cfg.irqSources ∧
    wf.bitAt srcM.request = true ∧ (after wf).bitAt srcM.request = false ∧ wf.bitAt srcM.enable = false ∧
    (after wf).bitAt srcM.enable = true ∧
    (∀ j ∈ wf.cfg.irqSources, wf.bitAt j.request = true → (after wf).bitAt j.request = false →
      wf.bitAt j.enable = false → (after wf).bitAt j.enable = true → j = srcM) ∧ (after wf).ps.i = false ∧
    (after wf).CpuTurn :=
  ⟨⟨.inl rfl, rfl, by decide⟩, rfl, by decide, by decide, by decide, by decide, by decide, by decide, by decide, .inl rfl⟩
theorem test_witness_Writers : ∃ t, exec .tay ws = .next t ∧ mayWriteA ws .tay = false ∧ mayWriteX .tay = false ∧
    mayWriteS .tay = false ∧ mayWritePc .tay = false ∧ mayWriteC .tay = false ∧ mayWriteV .tay = false ∧
    mayWriteT .tay = false ∧ mayWriteD .tay = false ∧ mayWriteI .tay = false ∧ storesNothing ws .tay = true :=
  ⟨_, rfl, rfl, rfl, rfl, rfl, rfl, rfl, rfl, rfl, rfl, rfl⟩
theorem test_witness_NoWriters : ∃ t, exec .nop ws = .next t ∧ mayWriteY .nop = false ∧ mayWriteNZ .nop = false :=
  ⟨_, rfl, rfl, rfl⟩
theorem test_witness_MemoryFrame : (∃ t, exec (.sta (.zp 0xFF)) ws = .next t) ∧
    storeDest ws (.sta (.zp 0xFF)) = some (.at (.zp 0xFF)) ∧ destAddr ws (.at (.zp 0xFF)) = .next 0x00FF ∧
    (∃ t, exec (.jsr (.abs 0x1234)) ws = .next t) ∧ ws.PageKept 2 ∧ (∃ t, exec .brk ws = .next t) ∧ ws.PageKept 3 :=
  ⟨⟨_, rfl⟩, rfl, rfl, ⟨_, rfl⟩, pageKept_ws 2, ⟨_, rfl⟩, pageKept_ws 3⟩

end Sys2Proof.Tests
end

