-- ==== Sys2Proof/Proofs/LoadStore.lean ====
section
/-! PROOFS. Loads and stores (spec/41_load_store_transfer.md R150 to R152, R154 to R156). -/

namespace Sys2Proof.Machine

/-! ### Sequencing and storing, forwards -/

/-- A computation whose first part goes through is its second part. -/
theorem andThen_of_eq_next {α β : Type} {r : Res α} {a : α} (h : r = .next a) (f : α → Res β) :
    andThen r f = f a := by
  rw [h, andThen_next]

/-- A store to an effective address that takes the byte goes through. -/
theorem storeTo_of_storable {s : State} {m : MemMode} {a : Addr} {v : Byte} (ha : effectiveAddr s m = .next a)
    (hs : s.storable a v = true) : storeTo s m v = .next (s.put a v) :=
  storeTo_eq_next.mpr ⟨a, ha, hs, rfl⟩

/-! ### What the instructions answer -/

/-- LDA hands the byte it reads to `SetOp1`, which alone depends on T; then N and Z follow the byte. -/
theorem exec_lda_of_read {s : State} {m : AluSrc} {v : Byte} (hv : readSource s (sourceOfAlu m) = .next v) :
    exec (.lda m) s = andThen (setOp1 s v) fun s' => .next (s'.setPs (s.ps.withNZ v)) :=
  andThen_of_eq_next hv _

theorem exec_ldx_of_read {s : State} {m : LdxSrc} {v : Byte} (hv : readSource s (sourceOfLdx m) = .next v) :
    exec (.ldx m) s = .next ((s.setX v).setPs (s.ps.withNZ v)) :=
  andThen_of_eq_next hv _

theorem exec_ldy_of_read {s : State} {m : LdySrc} {v : Byte} (hv : readSource s (sourceOfLdy m) = .next v) :
    exec (.ldy m) s = .next ((s.setY v).setPs (s.ps.withNZ v)) :=
  andThen_of_eq_next hv _

theorem exec_sta_eq_storeTo (d : StaDst) (s : State) : exec (.sta d) s = storeTo s (modeOfSta d) s.a := rfl

theorem exec_stx_eq_storeTo (d : StxDst) (s : State) : exec (.stx d) s = storeTo s (modeOfStx d) s.x := rfl

theorem exec_sty_eq_storeTo (d : StyDst) (s : State) : exec (.sty d) s = storeTo s (modeOfSty d) s.y := rfl

/-! ### The statements -/

/-- Settles O15: of LDA's parts only `SetOp1` looks at T, so each setting of T is one answer of `setOp1`. -/
theorem ldaLoads : Obligations.LdaLoads := by
  refine ⟨fun _ => rfl, fun _ _ => rfl, fun m s v hv => ⟨fun ht => ?_, fun ht hs => ?_⟩⟩
  · rw [exec_lda_of_read hv, setOp1_of_not_t v ht, andThen_next]
  · rw [exec_lda_of_read hv, setOp1_of_t v ht, store_of_storable hs, andThen_next]

/-- Settles O16. -/
theorem ldxLdyLoad : Obligations.LdxLdyLoad := by
  refine ⟨fun nn zz a => ?encodingAndCycles, fun _ _ _ => exec_ldx_of_read, fun _ _ _ => exec_ldy_of_read⟩
  case encodingAndCycles => and_intros <;> rfl

/-- Settles O17: each of the three is a store of its register through its addressing mode. -/
theorem storesStore : Obligations.StoresStore := by
  refine ⟨fun zz a => ?encodingAndCycles, fun d s a ha hs => ?sta, fun d s a ha hs => ?stx, fun d s a ha hs => ?sty⟩
  case encodingAndCycles => and_intros <;> rfl
  case sta => rw [exec_sta_eq_storeTo, storeTo_of_storable ha hs]
  case stx => rw [exec_stx_eq_storeTo, storeTo_of_storable ha hs]
  case sty => rw [exec_sty_eq_storeTo, storeTo_of_storable ha hs]

end Sys2Proof.Machine
end

section
/-! PROOFS. ADC in binary mode, AND, ORA and BIT (spec/42_arithmetic_logic.md R180, R183, R184, R189). -/

namespace Sys2Proof.Machine

/-! ### Two operands, forwards -/

/-- With T = 0 the first operand is A. -/
theorem eq_a_of_op1 {s : State} {a : Byte} (ht : s.ps.t = false) (ha : op1 s = .next a) : a = s.a := by
  rw [op1_of_not_t ht] at ha
  injection ha with ha
  exact ha.symm

/-- A two-operand instruction goes through once both operands are read, but for the store when T = 1: the result goes to A
when T = 0 and to M(X) when T = 1 (R70, R141). -/
theorem aluOp_of_operands {s : State} {m : AluSrc} {f : PS → Byte → Byte → Byte × PS} {a v r : Byte} {p : PS}
    (hv : readSource s (sourceOfAlu m) = .next v) (ha : op1 s = .next a) (hf : f s.ps a v = (r, p)) :
    (s.ps.t = false → a = s.a ∧ aluOp s m f = .next ((s.setA r).setPs p)) ∧
    (s.ps.t = true → s.storable (zeroPage s.x) r = true →
      aluOp s m f = .next ((s.put (zeroPage s.x) r).setPs p)) := by
  have answer : ∀ s', setOp1 s r = .next s' → aluOp s m f = .next (s'.setPs p) := fun s' hs' =>
    aluOp_eq_next.mpr ⟨v, a, s', hv, ha, by rw [hf]; exact hs', by rw [hf]⟩
  constructor
  · intro ht
    exact ⟨eq_a_of_op1 ht ha, answer _ (setOp1_of_not_t r ht)⟩
  · intro ht hs
    exact answer _ ((setOp1_of_t r ht).trans (store_of_storable hs))

/-! ### The binary sum -/

theorem binarySum_eq_mod (a m : Byte) (c : Bool) :
    binarySum a m c = BitVec.ofNat 8 ((a.toNat + m.toNat + carryNat c) % 0x100) :=
  BitVec.eq_of_toNat_eq (by simp [binarySum])

theorem toNat_binarySum (a m : Byte) (c : Bool) :
    (binarySum a m c).toNat = (a.toNat + m.toNat + carryNat c) % 0x100 :=
  BitVec.toNat_ofNat ..

theorem carryNat_le_one (c : Bool) : carryNat c ≤ 1 := by
  cases c <;> decide

/-- The signs of the operands and of the result say whether the signed sum leaves -128 to +127 (R180): bit 7 of each is a
comparison with 0x80, and the signed value is the unsigned one less 0x100 where that bit is 1. -/
theorem sumOverflow_binarySum (a m : Byte) (c : Bool) : sumOverflow a m (binarySum a m c) =
    decide (a.toInt + m.toInt + (carryNat c : Int) < -128 ∨ 127 < a.toInt + m.toInt + (carryNat c : Int)) := by
  have hc := carryNat_le_one c
  have ha := a.isLt
  have hm := m.isLt
  rw [sumOverflow, getLsbD_seven, getLsbD_seven, getLsbD_seven, toNat_binarySum, a.toInt_eq_toNat_cond,
    m.toInt_eq_toNat_cond, Bool.eq_iff_iff]
  simp only [Bool.and_eq_true, beq_iff_eq, bne_iff_ne, decide_eq_true_eq, ne_eq, decide_eq_decide]
  by_cases ha7 : 0x80 ≤ a.toNat <;> by_cases hm7 : 0x80 ≤ m.toNat <;> omega

/-- ADC's result and flags in binary mode, in the terms of R180. -/
theorem addWithCarry_of_not_d {p : PS} (draw : Nat) (a m : Byte) (hd : p.d = false) :
    addWithCarry draw p a m = (BitVec.ofNat 8 ((a.toNat + m.toNat + carryNat p.c) % 0x100),
      { p.withNZ (BitVec.ofNat 8 ((a.toNat + m.toNat + carryNat p.c) % 0x100)) with
        c := decide (0x100 ≤ a.toNat + m.toNat + carryNat p.c)
        v := decide (a.toInt + m.toInt + (carryNat p.c : Int) < -128 ∨
          127 < a.toInt + m.toInt + (carryNat p.c : Int)) }) := by
  rw [← binarySum_eq_mod, ← sumOverflow_binarySum, addWithCarry, if_neg (by rw [hd]; decide)]
  rfl

/-! ### BIT -/

theorem exec_bit_of_read {s : State} {m : BitSrc} {v : Byte} (hv : readSource s (sourceOfBit m) = .next v) :
    exec (.bit m) s = .next (s.setPs (s.ps.bitTest s.a v)) :=
  andThen_of_eq_next hv _

/-! ### The statements -/

/-- Settles O20: ADC is a two-operand instruction, and `addWithCarry_of_not_d` gives its result and flags. -/
theorem adcBinaryAddsWithCarry : Obligations.AdcBinaryAddsWithCarry := by
  refine ⟨fun _ => rfl, fun _ _ => rfl, fun m s a v hd hv ha => ?_⟩
  exact aluOp_of_operands hv ha (addWithCarry_of_not_d s.draws a v hd)

/-- Settles O23: AND and ORA are two-operand instructions, whose operations are already in the rules' terms. -/
theorem andOraCombine : Obligations.AndOraCombine := by
  refine ⟨fun m => ⟨rfl, rfl, fun s => ⟨rfl, rfl⟩⟩, fun m s a v hv ha => ?_⟩
  obtain ⟨andToA, andToMemory⟩ := aluOp_of_operands (f := andOp) hv ha rfl
  obtain ⟨oraToA, oraToMemory⟩ := aluOp_of_operands (f := oraOp) hv ha rfl
  exact ⟨fun ht => ⟨eq_a_of_op1 ht ha, (andToA ht).2, (oraToA ht).2⟩, andToMemory, oraToMemory⟩

/-- Settles O26. -/
theorem bitTestsAgainstA : Obligations.BitTestsAgainstA := by
  refine ⟨fun zz a => ?encodingAndCycles, fun _ _ _ => exec_bit_of_read⟩
  case encodingAndCycles => and_intros <;> rfl

end Sys2Proof.Machine
end

section
/-! PROOFS. ASL and LSR (spec/43_shift_rotate_bit.md R220, R221). -/

namespace Sys2Proof.Machine

/-! ### Changing a byte in place, forwards -/

/-- A read-modify-write of A, once the operation's result and flags are known. -/
theorem modifyPlace_acc_of_op {s : State} {f : PS → Byte → Byte × PS} {r : Byte} {p : PS} (hf : f s.ps s.a = (r, p)) :
    modifyPlace s .acc f = .next ((s.setA r).setPs p) := by
  rw [modifyPlace_acc, hf]

/-- A read-modify-write of memory goes through when the byte is read and its place takes the result. -/
theorem modifyPlace_mem_of_op {s : State} {m : MemMode} {a : Addr} {f : PS → Byte → Byte × PS} {v r : Byte} {p : PS}
    (ha : effectiveAddr s m = .next a) (hv : load s a = .next v) (hf : f s.ps v = (r, p))
    (hs : s.storable a r = true) : modifyPlace s (.mem m) f = .next ((s.put a r).setPs p) := by
  obtain ⟨hpresent, rfl⟩ := load_eq_next.mp hv
  exact modifyPlace_mem_eq_next.mpr ⟨a, ha, hpresent, by rwa [hf], by rw [hf]⟩

/-! ### The shifts in the rules' terms -/

theorem PS.setNZC_eq_withNZ (p : PS) (v : Byte) (c : Bool) : p.setNZC v c = { p.withNZ v with c := c } := rfl

/-- ASL doubles modulo 0x100, and C is bit 7 of the old byte (R220). -/
theorem aslOp_of_double {p : PS} {v r : Byte} (hr : r.toNat = 2 * v.toNat % 0x100) :
    aslOp p v = (r, { p.withNZ r with c := decide (0x80 ≤ v.toNat) }) := by
  have hshift : v <<< 1 = r := BitVec.eq_of_toNat_eq (by
    rw [BitVec.toNat_shiftLeft, Nat.shiftLeft_eq, hr, Nat.mul_comm])
  rw [aslOp, hshift, getLsbD_seven, PS.setNZC_eq_withNZ]

/-- LSR halves, C is bit 0 of the old byte, and N is 0 (R221). -/
theorem lsrOp_of_half {p : PS} {v r : Byte} (hr : r.toNat = v.toNat / 2) :
    lsrOp p v = (r, { p with n := false, z := decide (r = 0), c := decide (v.toNat % 2 = 1) }) := by
  have hshift : v >>> 1 = r := BitVec.eq_of_toNat_eq (by
    rw [BitVec.toNat_ushiftRight, Nat.shiftRight_eq_div_pow, hr])
  rw [lsrOp, hshift, getLsbD_zero, PS.setNZC_eq_withNZ]
  rfl

/-! ### What the instructions answer -/

theorem exec_asl_eq_modifyPlace (p : RmwPlace) (s : State) :
    exec (.asl p) s = modifyPlace s (placeOfRmw p) aslOp := rfl

theorem exec_lsr_eq_modifyPlace (p : RmwPlace) (s : State) :
    exec (.lsr p) s = modifyPlace s (placeOfRmw p) lsrOp := rfl

/-! ### The statement -/

/-- Settles O32: each shift changes its operand in place by an operation that `aslOp_of_double` and `lsrOp_of_half` state
in the rules' terms. -/
theorem aslLsrShift : Obligations.AslLsrShift := by
  refine ⟨fun _ => ⟨rfl, rfl, rfl, rfl⟩, fun v rl rr s hrl hrr => ?_⟩
  have hasl := aslOp_of_double (p := s.ps) hrl
  have hlsr := lsrOp_of_half (p := s.ps) hrr
  refine ⟨?onA, fun p m a hp ha hv => ?onMemory⟩
  case onA =>
    rintro rfl
    exact ⟨modifyPlace_acc_of_op hasl, modifyPlace_acc_of_op hlsr⟩
  case onMemory =>
    rw [exec_asl_eq_modifyPlace, exec_lsr_eq_modifyPlace, hp]
    exact ⟨modifyPlace_mem_of_op ha hv hasl, modifyPlace_mem_of_op ha hv hlsr⟩

end Sys2Proof.Machine
end

section
/-! PROOFS. What an instruction forbids the next one (spec/70_reset_and_hazards.md R370, R372). -/

namespace Sys2Proof.Machine

/-! ### The kind an instruction leaves -/

theorem kindAfter_plp (s : State) : kindAfter s .plp = .plp s.ps.i := rfl

theorem kindAfter_rti (s : State) : kindAfter s .rti = .none := rfl

theorem kindAfter_adc_or_sbc (s : State) {i : Instr} {src : AluSrc} (hi : i = .adc src ∨ i = .sbc src) :
    kindAfter s i = if s.ps.d then .decimal else .none := by
  rcases hi with rfl | rfl <;> simp [kindAfter, isAdcSbc]

/-- An instruction step leaves the kind of the instruction it ran, as judged in the state before it (R41). -/
theorem last_kind_of_step {s t : State} {i : Instr} {n : Nat} (hs : s.Ready) (hf : fetch s = .next (i, n))
    (ht : step s = .next t) : t.last.kind = kindAfter s i := by
  rw [step_of_ready hs] at ht
  obtain ⟨j, m, u, hj, -, -, rfl⟩ := instructionStep_eq_next.mp ht
  rw [fetch_turn, hf] at hj
  cases hj
  rfl

/-! ### What each kind forbids -/

theorem hazard_of_kind_none {s : State} (h : s.last.kind = .none) (i : Instr) : hazard s i = none := by
  rw [hazard, h]

theorem hazard_of_kind_plp {s : State} {oldI : Bool} (h : s.last.kind = .plp oldI) (i : Instr) :
    hazard s i = if s.cfg.series38000 = false ∧ i ≠ .nop then some .plpNotFollowedByNop else none := by
  rw [hazard, h]
  simp [isNop]

theorem hazard_of_kind_decimal {s : State} (h : s.last.kind = .decimal) (i : Instr) :
    hazard s i = if i = .sec ∨ i = .clc ∨ i = .cld then some .flagInstructionAfterDecimal else none := by
  rw [hazard, h]
  simp [isSecClcCld, or_assoc]

/-! ### The step, by what the hazard rules say -/

theorem step_of_hazard {s : State} {i : Instr} {n : Nat} {r : Refusal} (hs : s.Ready) (hf : fetch s = .next (i, n))
    (hz : hazard s i = some r) : step s = .refused r := by
  rw [step_of_fetch hs hf, hz]

theorem step_of_no_hazard {s : State} {i : Instr} {n : Nat} (hs : s.Ready) (hf : fetch s = .next (i, n))
    (hz : hazard s i = none) :
    step s = andThen (exec i (s.turn.fetched n)) fun u => .next (settle s.turn i u) := by
  rw [step_of_fetch hs hf, hz]

/-! ### The statements -/

/-- Settles O52: PLP leaves a kind that forbids all but NOP where the series is not 38000, and RTI leaves none. -/
theorem nopAfterPlp : Obligations.NopAfterPlp := by
  intro s t n m i hs hst ht hf
  refine ⟨fun hplp hseries hi => step_of_hazard ht hf ?refused, fun h => step_of_no_hazard ht hf ?runs⟩
  case refused =>
    have hkind := (last_kind_of_step hs hplp hst).trans (kindAfter_plp s)
    rw [hazard_of_kind_plp hkind, if_pos ⟨hseries, hi⟩]
  case runs =>
    rcases h with ⟨hplp, hallowed⟩ | hrti
    · have hkind := (last_kind_of_step hs hplp hst).trans (kindAfter_plp s)
      rw [hazard_of_kind_plp hkind, if_neg]
      rintro ⟨hseries, hi⟩
      rcases hallowed with hseries' | hnop
      · rw [hseries] at hseries'
        cases hseries'
      · exact hi hnop
    · exact hazard_of_kind_none ((last_kind_of_step hs hrti hst).trans (kindAfter_rti s)) i

/-- Settles O53: ADC and SBC leave a kind that forbids SEC, CLC and CLD when D was 1 before them, and none when it was 0. -/
theorem noFlagInstructionAfterDecimal : Obligations.NoFlagInstructionAfterDecimal := by
  intro s t n m i j src hi hs hfs hst ht hft
  have hkind := (last_kind_of_step hs hfs hst).trans (kindAfter_adc_or_sbc s hi)
  cases hd : s.ps.d with
  | false =>
    have hnone : t.last.kind = .none := by rw [hkind, hd]; rfl
    exact ⟨nofun, fun _ => step_of_no_hazard ht hft (hazard_of_kind_none hnone j)⟩
  | true =>
    have hdecimal : t.last.kind = .decimal := by rw [hkind, hd]; rfl
    refine ⟨fun _ hj => step_of_hazard ht hft ?refused, fun h => step_of_no_hazard ht hft ?runs⟩
    case refused => rw [hazard_of_kind_decimal hdecimal, if_pos hj]
    case runs =>
      obtain ⟨hsec, hclc, hcld⟩ := h.resolve_left nofun
      rw [hazard_of_kind_decimal hdecimal, if_neg]
      rintro (rfl | rfl | rfl) <;> contradiction

end Sys2Proof.Machine
end

section
/-! PROOFS. The round trips between instructions and bytes, and the opcodes that are none (spec/30_encoding.md R90 to R98,
R103). -/

namespace Sys2Proof

/-! ### Decoding, once the map has answered -/

theorem decode_cons_of_lookup {c : Config} {op : Byte} {sh : Shape} (h : lookup c op = some sh) (bytes : List Byte) :
    decode c (op :: bytes) = sh.apply bytes := by
  simp only [decode, h]

/-- An instruction of one byte comes back from its encoding when the map has it at its opcode. -/
theorem decode_encode_one {c : Config} {rest : List Byte} {i : Instr} {op : Byte} (he : encode i = [op])
    (h : lookup c op = some (.one i)) : decode c (encode i ++ rest) = .ok (i, rest) := by
  rw [he]
  exact decode_cons_of_lookup h rest

/-- An instruction of two bytes comes back when the map's shape at its opcode makes it from its operand byte. -/
theorem decode_encode_two {c : Config} {rest : List Byte} {i : Instr} {op b : Byte} {f : Byte → Instr} (he : encode i = [op, b])
    (h : lookup c op = some (.two f)) (hi : f b = i) :
    decode c (encode i ++ rest) = .ok (i, rest) := by
  rw [he, ← hi]
  exact decode_cons_of_lookup h (b :: rest)

/-- An instruction of three bytes comes back when the map's shape at its opcode makes it from its operand bytes. -/
theorem decode_encode_three {c : Config} {rest : List Byte} {i : Instr} {op b1 b2 : Byte} {f : Byte → Byte → Instr}
    (he : encode i = [op, b1, b2]) (h : lookup c op = some (.three f)) (hi : f b1 b2 = i) :
    decode c (encode i ++ rest) = .ok (i, rest) := by
  rw [he, ← hi]
  exact decode_cons_of_lookup h (b1 :: b2 :: rest)

/-- An instruction with an address comes back: the address is joined from the two bytes it was cut into (R63). -/
theorem decode_encode_address {c : Config} {rest : List Byte} {i : Instr} {op : Byte} {a : Addr} {f : Addr → Instr}
    (he : encode i = withAddress op a) (h : lookup c op = some (address f)) (hi : f a = i) :
    decode c (encode i ++ rest) = .ok (i, rest) :=
  decode_encode_three he h (by rw [joinAddr_bytes, hi])

/-! ### The opcodes that depend on the chip (R96) -/

theorem lookup_mul {c : Config} (h : c.mulDiv = true) : lookup c 0x62 = some (.two .mul) := if_pos h

theorem lookup_div {c : Config} (hm : c.mulDiv = true) (hs : c.slwFst = false) : lookup c 0xE2 = some (.two .div) :=
  (if_neg (by rw [hs]; decide)).trans (if_pos hm)

theorem lookup_slw {c : Config} (h : c.slwFst = true) : lookup c 0xC2 = some (.one .slw) := if_pos h

theorem lookup_fst {c : Config} (h : c.slwFst = true) : lookup c 0xE2 = some (.one .fst) := if_pos h

theorem lookup_wit {c : Config} (h : c.slwFst = false) : lookup c 0xC2 = some (.one .wit) := if_neg (by rw [h]; decide)

theorem lookup_stp {c : Config} (h : c.stp = true) : lookup c 0x42 = some (.one .stp) := if_pos h

/-! ### From the instruction to its bytes and back -/

/-- Settles O1: the map's answer at the opcode of `encode i` is the shape of `i`, whatever the operands are; an address is
joined from the two bytes it was cut into. -/
theorem decodeOfEncode : Obligations.DecodeOfEncode := by
  intro c i rest hwf
  cases i with
  | lda m | adc m | sbc m | and m | ora m | eor m | cmp m =>
    cases m with
    | imm b | zp b | zpX b | indX b | indY b => exact decode_encode_two rfl rfl rfl
    | abs a | absX a | absY a => exact decode_encode_address rfl rfl rfl
  | ldx m =>
    cases m with
    | imm b | zp b | zpY b => exact decode_encode_two rfl rfl rfl
    | abs a | absY a => exact decode_encode_address rfl rfl rfl
  | ldy m =>
    cases m with
    | imm b | zp b | zpX b => exact decode_encode_two rfl rfl rfl
    | abs a | absX a => exact decode_encode_address rfl rfl rfl
  | sta m =>
    cases m with
    | zp b | zpX b | indX b | indY b => exact decode_encode_two rfl rfl rfl
    | abs a | absX a | absY a => exact decode_encode_address rfl rfl rfl
  | stx m =>
    cases m with
    | zp b | zpY b => exact decode_encode_two rfl rfl rfl
    | abs a => exact decode_encode_address rfl rfl rfl
  | sty m =>
    cases m with
    | zp b | zpX b => exact decode_encode_two rfl rfl rfl
    | abs a => exact decode_encode_address rfl rfl rfl
  | cpx m | cpy m =>
    cases m with
    | imm b | zp b => exact decode_encode_two rfl rfl rfl
    | abs a => exact decode_encode_address rfl rfl rfl
  | bit m =>
    cases m with
    | zp b => exact decode_encode_two rfl rfl rfl
    | abs a => exact decode_encode_address rfl rfl rfl
  | inc p | dec p | asl p | lsr p | rol p | ror p =>
    cases p with
    | acc => exact decode_encode_one rfl rfl
    | zp b | zpX b => exact decode_encode_two rfl rfl rfl
    | abs a | absX a => exact decode_encode_address rfl rfl rfl
  | jmp t =>
    cases t with
    | abs a | ind a => exact decode_encode_address rfl rfl rfl
    | zpInd b => exact decode_encode_two rfl rfl rfl
  | jsr t =>
    cases t with
    | abs a => exact decode_encode_address rfl rfl rfl
    | sp b | zpInd b => exact decode_encode_two rfl rfl rfl
  | ldm nn zz => exact decode_encode_three rfl rfl rfl
  | tst b | com b | rrf b | bra b | bcc b | bcs b | beq b | bne b | bmi b | bpl b | bvc b | bvs b =>
    exact decode_encode_two rfl rfl rfl
  | clb b p =>
    cases p with
    | acc => exact decode_encode_one rfl (lookup_bitOpcode c b _ (bitShape_clbAcc b))
    | zp zz => exact decode_encode_two rfl (lookup_bitOpcode c b _ (bitShape_clbZp b)) rfl
  | seb b p =>
    cases p with
    | acc => exact decode_encode_one rfl (lookup_bitOpcode c b _ (bitShape_sebAcc b))
    | zp zz => exact decode_encode_two rfl (lookup_bitOpcode c b _ (bitShape_sebZp b)) rfl
  | bbc b p rr =>
    cases p with
    | acc => exact decode_encode_two rfl (lookup_bitOpcode c b _ (bitShape_bbcAcc b)) rfl
    | zp zz => exact decode_encode_three rfl (lookup_bitOpcode c b _ (bitShape_bbcZp b)) rfl
  | bbs b p rr =>
    cases p with
    | acc => exact decode_encode_two rfl (lookup_bitOpcode c b _ (bitShape_bbsAcc b)) rfl
    | zp zz => exact decode_encode_three rfl (lookup_bitOpcode c b _ (bitShape_bbsZp b)) rfl
  | mul b => exact decode_encode_two rfl (lookup_mul hwf) rfl
  | div b =>
    obtain ⟨hm, hs⟩ := Bool.and_eq_true_iff.mp hwf
    exact decode_encode_two rfl (lookup_div hm ((Bool.not_eq_true' _).mp hs)) rfl
  | slw => exact decode_encode_one rfl (lookup_slw hwf)
  | fst => exact decode_encode_one rfl (lookup_fst hwf)
  | wit => exact decode_encode_one rfl (lookup_wit ((Bool.not_eq_true' _).mp hwf))
  | stp => exact decode_encode_one rfl (lookup_stp hwf)
  | _ => exact decode_encode_one rfl rfl

/-! ### From the bytes to the instruction and back -/

/-- The shape `sh` is that of the opcode `op`: whatever its operand bytes, its instruction is one the chip has, and is
encoded as `op` and those bytes. -/
def Shape.EncodedAs (c : Config) (op : Byte) : Shape → Prop
  | .one i => i.wf c = true ∧ encode i = [op]
  | .two f => ∀ b, (f b).wf c = true ∧ encode (f b) = [op, b]
  | .three f => ∀ b1 b2, (f b1 b2).wf c = true ∧ encode (f b1 b2) = [op, b1, b2]

/-- What a shape reads from operand bytes encodes to the opcode and the bytes it has read. -/
theorem Shape.EncodedAs.apply {c : Config} {op : Byte} {sh : Shape} (h : sh.EncodedAs c op) {bytes : List Byte}
    {i : Instr} {rest : List Byte} (ha : sh.apply bytes = .ok (i, rest)) :
    i.wf c = true ∧ encode i ++ rest = op :: bytes := by
  match sh, bytes, ha with
  | .one _, _, rfl => exact ⟨h.1, by rw [h.2]; rfl⟩
  | .two _, b :: _, rfl => exact ⟨(h b).1, by rw [(h b).2]; rfl⟩
  | .three _, b1 :: b2 :: _, rfl => exact ⟨(h b1 b2).1, by rw [(h b1 b2).2]; rfl⟩

theorem exists_bitOpcode : ∀ op : Byte, ∃ (b : BitNo) (low5 : BitVec 5), op = bitOpcode b low5 := by
  have hop : ∀ op : Byte, op = bitOpcode (op.extractLsb' 5 3) (op.extractLsb' 0 5) := by decide
  exact fun op => ⟨_, _, hop op⟩

/-- The shape of a bit instruction, at the opcode whose bit number and low five bits it was read from (R93). -/
theorem bitShape_encodedAs (c : Config) {op : Byte} {sh : Shape} (h : bitShape op = some sh) : sh.EncodedAs c op := by
  obtain ⟨b, low5, rfl⟩ := exists_bitOpcode op
  simp only [bitShape, bitOpcode_select, bitOpcode_bit] at h
  split at h
  case h_9 => cases h
  all_goals
    cases h
    rename_i hlow
    have hlow5 : low5 = BitVec.ofNat 5 low5.toNat := by simp
    rw [hlow] at hlow5
    subst hlow5
    simp [Shape.EncodedAs, Instr.wf, encode]

/-- Every cell of the map is the shape of the opcode with its row and column as nibbles (R94); the cells whose instruction
depends on the chip (R96) are its instruction on the chips that have it. -/
theorem mapCell_encodedAs {c : Config} {hi lo : Nat} {sh : Shape} (h : mapCell c hi lo = some sh) :
    sh.EncodedAs c (BitVec.ofNat 8 (16 * hi + lo)) := by
  unfold mapCell at h
  split at h
  case h_17 => cases h
  all_goals
    delta row0 row1 row2 row3 row4 row5 row6 row7 row8 row9 rowA rowB rowC rowD rowE rowF at h
    repeat' split at h
    all_goals cases h
    all_goals simp [Shape.EncodedAs, Instr.wf, encode, encodeAlu, encodeRmw, encodeCp, address, withAddress, *]

/-- Every entry of the map is the shape of its opcode. -/
theorem lookup_encodedAs {c : Config} {op : Byte} {sh : Shape} (h : lookup c op = some sh) : sh.EncodedAs c op := by
  unfold lookup at h
  split at h
  case h_1 hbit =>
    cases h
    exact bitShape_encodedAs c hbit
  case h_2 =>
    have hop := mapCell_encodedAs h
    rwa [Nat.div_add_mod, BitVec.ofNat_toNat, BitVec.setWidth_eq] at hop

/-- Settles O2: the decoder looks the first byte up and hands the others to the shape it finds, which is that byte's. -/
theorem encodeOfDecode : Obligations.EncodeOfDecode := by
  intro c bytes i rest h
  cases bytes with
  | nil => cases h
  | cons op bytes =>
    cases hop : lookup c op with
    | none =>
      simp only [decode, hop] at h
      cases h
    | some sh =>
      rw [decode_cons_of_lookup hop] at h
      exact (lookup_encodedAs hop).apply h

end Sys2Proof
end

section
/-! PROOFS. The opcodes that are no instruction, and the step at one of them (spec/30_encoding.md R96, R97). -/

namespace Sys2Proof

/-- A chip with the given options, which are all the opcode map asks of a chip (R96). -/
def chipWithOptions (mulDiv slwFst stp : Bool) : Config :=
  { Config.base with mulDiv := mulDiv, slwFst := slwFst, stp := stp }

theorem lookup_eq_lookup_chipWithOptions (c : Config) (op : Byte) :
    lookup c op = lookup (chipWithOptions c.mulDiv c.slwFst c.stp) op := rfl

/-- The codes of R97, and the codes of the options a chip lacks (R96). -/
theorem lookup_chipWithOptions_eq_none_iff : ∀ (mulDiv slwFst stp : Bool) (op : Byte),
    lookup (chipWithOptions mulDiv slwFst stp) op = none ↔
      op ∈ ([0x04, 0x0C, 0x14, 0x1C, 0x34, 0x52, 0x54, 0x5A, 0x5C, 0x72, 0x74, 0x7A, 0x7C, 0x89, 0x92, 0x9C, 0x9E, 0xD2,
        0xD4, 0xDA, 0xDC, 0xF2, 0xF4, 0xFA, 0xFC] : List Byte) ∨
      (op = 0x42 ∧ stp = false) ∨ (op = 0x62 ∧ mulDiv = false) ∨ (op = 0xE2 ∧ slwFst = false ∧ mulDiv = false) := by
  decide

theorem exists_decode_of_lookup {c : Config} {op : Byte} {sh : Shape} (b1 b2 : Byte) (h : lookup c op = some sh) :
    ∃ i rest, decode c [op, b1, b2] = .ok (i, rest) := by
  rw [decode_cons_of_lookup h]
  cases sh <;> exact ⟨_, _, rfl⟩

namespace Machine

/-- A byte that the instruction before did not store to is fetched as it is read (R75). -/
theorem fetchByte_of_present {s : State} {a : Addr} (hw : a ∉ s.last.written) (hp : s.present a = true) :
    fetchByte s a = .next (s.peek a) := by
  rw [fetchByte, if_neg hw, load_of_present hp]

theorem fetch_of_unassigned {s : State} (hw : s.pc ∉ s.last.written) (hp : s.present s.pc = true)
    (hl : lookup s.cfg (s.peek s.pc) = none) : fetch s = .refused (.unassignedOpcode (s.peek s.pc)) := by
  rw [fetch, fetchByte_of_present hw hp, andThen_next, hl]

/-- When the fetch is refused, so is the step that was to be an instruction. -/
theorem step_of_fetch_refused {s : State} {r : Refusal} (h : s.Ready) (hf : fetch s = .refused r) :
    step s = .refused r := by
  rw [step_of_ready h, instructionStep, fetch_turn, hf, andThen_refused]

end Machine

/-- Settles O3: the map asks of a chip no more than three options, so its empty cells are found by looking; a fetch that
finds one answers the refusal. -/
theorem unassignedOpcodesAreThoseOfTheMap : Obligations.UnassignedOpcodesAreThoseOfTheMap := by
  refine ⟨fun c op => ?emptyCells, fun _ _ _ b1 b2 h => exists_decode_of_lookup b1 b2 h, fun s hs hw hp hl => ?refused⟩
  case emptyCells =>
    rw [lookup_eq_lookup_chipWithOptions]
    exact lookup_chipWithOptions_eq_none_iff c.mulDiv c.slwFst c.stp op
  case refused => exact Machine.step_of_fetch_refused hs (Machine.fetch_of_unassigned hw hp hl)

/-- Settles O4. -/
theorem workedExamplesDecode : Obligations.WorkedExamplesDecode := by
  intro c
  and_intros <;> rfl

end Sys2Proof
end

section
/-! PROOFS. What an instruction leaves unchanged: registers, flags, clock and the model's own fields (spec/10_state.md
sections 1 to 4). -/

namespace Sys2Proof.Machine

/-- What `exec i` may change from `s` to `t` outside memory: each register and flag only if the spec names `i` among its
writers, and nothing the model keeps for itself but the list of stores. -/
structure Frame (i : Instr) (s t : State) : Prop where
  regA : mayWriteA s i = false → t.a = s.a
  regX : mayWriteX i = false → t.x = s.x
  regY : mayWriteY i = false → t.y = s.y
  regS : mayWriteS i = false → t.s = s.s
  regPc : mayWritePc i = false → t.pc = s.pc
  flagN : mayWriteNZ i = false → t.ps.n = s.ps.n
  flagZ : mayWriteNZ i = false → t.ps.z = s.ps.z
  flagC : mayWriteC i = false → t.ps.c = s.ps.c
  flagV : mayWriteV i = false → t.ps.v = s.ps.v
  flagT : mayWriteT i = false → t.ps.t = s.ps.t
  flagD : mayWriteD i = false → t.ps.d = s.ps.d
  flagI : mayWriteI i = false → t.ps.i = s.ps.i
  clk : i ≠ .wit → i ≠ .stp → t.clk = s.clk
  xoutf : i ≠ .slw → i ≠ .fst → t.xoutf = s.xoutf
  cfg : t.cfg = s.cfg
  inputs : t.inputs = s.inputs
  draws : t.draws = s.draws
  waiting : t.waiting = s.waiting
  kind : t.last.kind = s.last.kind
  changed : t.last.changed = s.last.changed
  forced : t.last.forced = s.last.forced

/-- Of every shape of `Effect`: each update in it is to a field whose writer `i` is, and leaves every other. -/
theorem frame_of_effect {i : Instr} {s t : State} (h : Effect s t i) : Frame i s t := by
  cases i <;> simp only [Effect, AluEffect, PlaceEffect] at h
  case inc p | dec p | asl p | lsr p | rol p | ror p | clb _ p | seb _ p =>
    cases p <;> cases_type* Exists And Or <;> subst_vars <;> constructor <;>
      simp_all [mayWriteA, mayWriteX, mayWriteY, mayWriteS, mayWritePc, mayWriteNZ, mayWriteC, mayWriteV, mayWriteT,
        mayWriteD, mayWriteI, placeOfRmw, placeOfBit]
  case tax | tay | txa | tya | tsx | txs | clv | nop | ldm =>
    subst h
    constructor <;> simp [mayWriteA, mayWriteX, mayWriteY, mayWriteS, mayWritePc, mayWriteNZ, mayWriteC, mayWriteV,
      mayWriteT, mayWriteD, mayWriteI, PS.setNZ]
  all_goals
    cases_type* Exists And Or <;> subst_vars <;> constructor <;>
      simp_all [mayWriteA, mayWriteX, mayWriteY, mayWriteS, mayWritePc, mayWriteNZ, mayWriteC, mayWriteV, mayWriteT,
        mayWriteD, mayWriteI, PS.setNZ]

theorem exec_frame {i : Instr} {s t : State} (h : exec i s = .next t) : Frame i s t :=
  frame_of_effect (exec_effect h)

/-- Settles O57. -/
theorem registersHaveOnlyTheirWriters : Obligations.RegistersHaveOnlyTheirWriters := by
  intro i s t h
  have hf := exec_frame h
  exact ⟨hf.regA, hf.regX, hf.regY, hf.regS, hf.regPc⟩

/-- Settles O58. -/
theorem flagsHaveOnlyTheirWriters : Obligations.FlagsHaveOnlyTheirWriters := by
  intro i s t h
  have hf := exec_frame h
  exact ⟨fun hi => ⟨hf.flagN hi, hf.flagZ hi⟩, hf.flagC, hf.flagV, hf.flagT, hf.flagD, hf.flagI⟩

/-- Settles O59. -/
theorem clockHasOnlyItsWriters : Obligations.ClockHasOnlyItsWriters := by
  intro i s t h
  have hf := exec_frame h
  exact ⟨hf.clk, hf.xoutf, hf.cfg, hf.inputs, hf.draws, hf.waiting, hf.kind, hf.changed, hf.forced⟩

end Sys2Proof.Machine
end

section
/-! PROOFS. What an instruction stores, and what it leaves of memory (spec/40_addressing.md sections 1 and 7). -/

namespace Sys2Proof.Machine

/-! ### The stores of an instruction -/

/-- `t` has the memory and the record of stores of `u`. -/
structure SameStores (u t : State) : Prop where
  mem : t.mem = u.mem
  written : t.last.written = u.last.written

theorem SameStores.byteAt {u t : State} (h : SameStores u t) (a : Addr) : t.byteAt a = u.byteAt a := by
  rw [State.byteAt, State.byteAt, h.mem]

/-- The stores of `i` from `s` to `t`: none, the one at its destination, the two pushes of JSR, or the three of BRK. -/
inductive StoresOf (s t : State) : Instr → Prop
  | none {i} (hi : storesNothing s i = true) (h : SameStores s t) : StoresOf s t i
  | one {i d a} (v : Byte) (hi : storeDest s i = some d) (ha : destAddr s d = .next a)
      (h : SameStores (s.put a v) t) : StoresOf s t i
  | jsr {target} (x y : Byte) (h : SameStores ((s.pushed x).pushed y) t) : StoresOf s t (.jsr target)
  | brk (x y z : Byte) (h : SameStores (((s.pushed x).pushed y).pushed z) t) : StoresOf s t .brk

theorem storesNothing_of_usesT (s : State) {i : Instr} (hi : usesT i = true) : storesNothing s i = !s.ps.t := by
  cases i with
  | lda | adc | sbc | and | ora | eor => rfl
  | _ => cases hi

theorem storeDest_of_usesT (s : State) {i : Instr} (hi : usesT i = true) :
    storeDest s i = if s.ps.t then some .firstOperand else none := by
  cases i with
  | lda | adc | sbc | and | ora | eor => rfl
  | _ => cases hi

/-- The instructions that T redirects store nothing when T = 0, and to M(X) when T = 1. -/
theorem AluEffect.storesOf {s t : State} {r : Byte} {p : PS} {i : Instr} (h : AluEffect s r p t)
    (hi : usesT i = true) : StoresOf s t i := by
  rcases h with ⟨ht, rfl⟩ | ⟨ht, rfl⟩
  · exact .none (by rw [storesNothing_of_usesT s hi, ht]; rfl) ⟨rfl, rfl⟩
  · exact .one r (by rw [storeDest_of_usesT s hi, if_pos ht]) rfl ⟨rfl, rfl⟩

/-- A change in place stores nothing on A, and to its effective address on memory. -/
theorem PlaceEffect.storesOf {s t : State} {place : Place} {r : Byte} {p : PS} {i : Instr}
    (h : PlaceEffect s place r p t) (hacc : place = .acc → storesNothing s i = true)
    (hmem : storeDest s i = destOfPlace place) : StoresOf s t i := by
  rcases h with ⟨hp, rfl⟩ | ⟨m, a, rfl, ha, rfl⟩
  · exact .none (hacc hp) ⟨rfl, rfl⟩
  · exact .one r hmem ha ⟨rfl, rfl⟩

/-- A push is a store at the stack address. -/
theorem storesOf_pushed {s t : State} {x : Byte} {i : Instr} (hi : storeDest s i = some .stack)
    (h : SameStores (s.pushed x) t) : StoresOf s t i :=
  .one x hi rfl ⟨h.mem, h.written⟩

theorem exec_storesOf {i : Instr} {s t : State} (hx : exec i s = .next t) : StoresOf s t i := by
  have h := exec_effect hx
  clear hx
  cases i <;> simp only [Effect] at h
  case lda =>
    obtain ⟨_, h⟩ := h
    exact h.storesOf rfl
  case adc | sbc =>
    obtain ⟨_, _, _, _, _, h⟩ := h
    exact h.storesOf rfl
  case and | ora | eor =>
    obtain ⟨_, _, _, h⟩ := h
    exact h.storesOf rfl
  case inc p | dec p =>
    obtain ⟨_, _, _, h⟩ := h
    exact h.storesOf (fun hp => by cases p with | acc => rfl | _ => cases hp) rfl
  case asl p | lsr p | rol p | ror p =>
    obtain ⟨_, _, _, _, h⟩ := h
    exact h.storesOf (fun hp => by cases p with | acc => rfl | _ => cases hp) rfl
  case clb p | seb p =>
    obtain ⟨_, h⟩ := h
    exact h.storesOf (fun hp => by cases p with | acc => rfl | _ => cases hp) rfl
  case sta | stx | sty =>
    obtain ⟨a, ha, rfl⟩ := h
    exact .one _ rfl ha ⟨rfl, rfl⟩
  case ldm =>
    subst h
    exact .one _ rfl rfl ⟨rfl, rfl⟩
  case com =>
    obtain ⟨r, _, _, rfl⟩ := h
    exact .one r rfl rfl ⟨rfl, rfl⟩
  case rrf =>
    obtain ⟨r, rfl⟩ := h
    exact .one r rfl rfl ⟨rfl, rfl⟩
  case pha | php =>
    obtain ⟨x, rfl⟩ := h
    exact storesOf_pushed rfl ⟨rfl, rfl⟩
  case mul | div =>
    obtain ⟨x, _, rfl⟩ := h
    exact storesOf_pushed rfl ⟨rfl, rfl⟩
  case jsr =>
    obtain ⟨x, y, _, rfl⟩ := h
    exact .jsr x y (by constructor <;> simp)
  case brk =>
    obtain ⟨x, y, z, _, rfl⟩ := h
    exact .brk x y z (by constructor <;> simp)
  case tax | tay | txa | tya | tsx | txs | clv | nop =>
    subst h
    exact .none rfl ⟨rfl, rfl⟩
  all_goals
    cases_type* Exists Or
    all_goals
      subst_vars
      exact .none rfl ⟨rfl, rfl⟩

/-! ### Which of the cases an instruction is in -/

theorem storeDest_of_storesNothing {s : State} {i : Instr} (h : storesNothing s i = true) : storeDest s i = none := by
  cases i with
  | lda | adc | sbc | and | ora | eor =>
    rw [storesNothing_of_usesT s rfl, Bool.not_eq_true'] at h
    rw [storeDest_of_usesT s rfl, h]
    rfl
  | inc p | dec p | asl p | lsr p | rol p | ror p | clb _ p | seb _ p =>
    cases p with
    | acc => rfl
    | _ => cases h
  | ldm | sta | stx | sty | com | rrf | mul | div | pha | php => cases h
  | _ => rfl

theorem StoresOf.of_storesNothing {s t : State} {i : Instr} (h : StoresOf s t i) (hi : storesNothing s i = true) :
    SameStores s t := by
  cases h with
  | none _ h => exact h
  | one v hd _ _ =>
    rw [storeDest_of_storesNothing hi] at hd
    cases hd
  | jsr | brk => cases hi

theorem StoresOf.of_storeDest {s t : State} {i : Instr} {d : StoreDest} {a : Addr} (h : StoresOf s t i)
    (hd : storeDest s i = some d) (ha : destAddr s d = .next a) : ∃ v, SameStores (s.put a v) t := by
  cases h with
  | none hi _ =>
    rw [storeDest_of_storesNothing hi] at hd
    cases hd
  | one v hd' ha' h =>
    cases hd.symm.trans hd'
    cases ha.symm.trans ha'
    exact ⟨v, h⟩
  | jsr | brk => cases hd

theorem StoresOf.of_jsr {s t : State} {target : JsrTarget} (h : StoresOf s t (.jsr target)) :
    ∃ x y, SameStores ((s.pushed x).pushed y) t := by
  cases h with
  | none hi _ => cases hi
  | one _ hd _ _ => cases hd
  | jsr x y h => exact ⟨x, y, h⟩

theorem StoresOf.of_brk {s t : State} (h : StoresOf s t .brk) :
    ∃ x y z, SameStores (((s.pushed x).pushed y).pushed z) t := by
  cases h with
  | none hi _ => cases hi
  | one _ hd _ _ => cases hd
  | brk x y z h => exact ⟨x, y, z, h⟩

/-! ### Pushes, by the bytes below the stack pointer -/

theorem State.byteAt_pushed_of_ne_below (s : State) {b : Addr} (v : Byte) (h : b ≠ s.below 0) :
    (s.pushed v).byteAt b = s.byteAt b :=
  State.byteAt_pushed_ne s v (by rwa [State.below_zero] at h)

/-- Two pushes that leave the stack page alone change only the two bytes below the stack pointer. -/
theorem State.byteAt_pushed_pushed_ne {s : State} {n : Nat} {b : Addr} (x y : Byte) (hp : s.PageKept (n + 1))
    (h0 : b ≠ s.below 0) (h1 : b ≠ s.below 1) : ((s.pushed x).pushed y).byteAt b = s.byteAt b := by
  rw [State.byteAt_pushed_of_ne_below _ y (by rwa [State.below_pushed x hp]), State.byteAt_pushed_of_ne_below s x h0]

/-- Settles O60: the stores of an instruction, case by case. -/
theorem memoryFrame : Obligations.MemoryFrame := by
  intro i s t hx
  have h := exec_storesOf hx
  refine ⟨fun hi b => ?nothing, fun d a hd ha b hb => ?oneByte, ?jsr, ?brk⟩
  case nothing => exact (h.of_storesNothing hi).byteAt b
  case oneByte =>
    obtain ⟨v, hv⟩ := h.of_storeDest hd ha
    rw [hv.byteAt, State.byteAt_put_ne s v hb]
  case jsr =>
    rintro target rfl hp b h0 h1
    obtain ⟨x, y, hxy⟩ := h.of_jsr
    rw [hxy.byteAt, State.byteAt_pushed_pushed_ne x y hp h0 h1]
  case brk =>
    rintro rfl hp b h0 h1 h2
    obtain ⟨x, y, z, hxyz⟩ := h.of_brk
    have hpx := State.pageKept_pushed x hp
    rw [hxyz.byteAt, State.byteAt_pushed_pushed_ne y z hpx (by rwa [State.below_pushed x hp])
      (by rwa [State.below_pushed x hp]), State.byteAt_pushed_of_ne_below s x h0]

end Sys2Proof.Machine
end

section
/-! PROOFS. What every step keeps: the canonical form of memory, ROM and the chip (spec/20_memory.md section 3,
spec/70_reset_and_hazards.md section 1, spec/00_scope.md section 4). -/

namespace Sys2Proof.Machine

/-! ### Memory that comes about by writes where the map has RAM or an SFR -/

/-- `m'` comes from `m` by writes at addresses where the chip `c` has memory that a store changes. -/
inductive WrittenFrom (c : Config) (m : Memory) : Memory → Prop
  | refl : WrittenFrom c m m
  | write {m' : Memory} (h : WrittenFrom c m m') {a : Addr} (v : Byte) (hk : kindAt c a = .ram ∨ kindAt c a = .sfr) :
      WrittenFrom c m (m'.write a.toNat v)

theorem WrittenFrom.wf {c : Config} {m m' : Memory} (h : WrittenFrom c m m') (hm : m.wf = true) : m'.wf = true := by
  induction h with
  | refl => exact hm
  | write _ _ _ ih => exact Memory.wf_write ih (BitVec.isLt _)

theorem WrittenFrom.read_of_rom {c : Config} {m m' : Memory} (h : WrittenFrom c m m') {b : Addr}
    (hb : kindAt c b = .rom ∨ kindAt c b = .romIgnoringWrites) : m'.read b.toNat = m.read b.toNat := by
  induction h with
  | refl => rfl
  | @write m' _ a v hk ih =>
    have hne : a ≠ b := by
      rintro rfl
      rcases hk with hk | hk <;> rw [hk] at hb <;> simp at hb
    rw [Memory.read_write_ne fun e => hne (BitVec.eq_of_toNat_eq e), ih]

theorem State.writable_iff {s : State} {a : Addr} :
    s.writable a = true ↔ kindAt s.cfg a = .ram ∨ kindAt s.cfg a = .sfr := by
  simp [State.writable]

theorem WrittenFrom.put {c : Config} {m : Memory} {s : State} (h : WrittenFrom c m s.mem) (hc : s.cfg = c) (a : Addr)
    (v : Byte) : WrittenFrom c m (s.put a v).mem := by
  rw [State.put_mem]
  split
  case isTrue hw => exact h.write v (hc ▸ State.writable_iff.mp hw)
  case isFalse => exact h

theorem WrittenFrom.pushed {c : Config} {m : Memory} {s : State} (h : WrittenFrom c m s.mem) (hc : s.cfg = c)
    (v : Byte) : WrittenFrom c m (s.pushed v).mem :=
  h.put hc s.stackAddr v

theorem WrittenFrom.hardwareBit {c : Config} {m : Memory} {s : State} (h : WrittenFrom c m s.mem) (hc : s.cfg = c)
    (l : BitLoc) (x : Bool) : WrittenFrom c m (s.hardwareBit l x).mem := by
  unfold State.hardwareBit
  split
  case isTrue hw => exact h.write _ (hc ▸ State.writable_iff.mp hw)
  case isFalse => exact h

/-- An instruction changes memory by its stores only. -/
theorem StoresOf.writtenFrom {s t : State} {i : Instr} (h : StoresOf s t i) : WrittenFrom s.cfg s.mem t.mem := by
  cases h with
  | none _ h => exact h.mem ▸ .refl
  | one v _ _ h => exact h.mem ▸ WrittenFrom.refl.put rfl _ v
  | jsr x y h => exact h.mem ▸ (WrittenFrom.refl.pushed rfl x).pushed (by simp) y
  | brk x y z h => exact h.mem ▸ ((WrittenFrom.refl.pushed rfl x).pushed (by simp) y).pushed (by simp) z

/-! ### The acknowledgement of an interrupt -/

@[simp] theorem State.acknowledge_a (s : State) (l : Option BitLoc) : (s.acknowledge l).a = s.a := by
  cases l <;> simp [State.acknowledge]
@[simp] theorem State.acknowledge_x (s : State) (l : Option BitLoc) : (s.acknowledge l).x = s.x := by
  cases l <;> simp [State.acknowledge]
@[simp] theorem State.acknowledge_y (s : State) (l : Option BitLoc) : (s.acknowledge l).y = s.y := by
  cases l <;> simp [State.acknowledge]
@[simp] theorem State.acknowledge_s (s : State) (l : Option BitLoc) : (s.acknowledge l).s = s.s := by
  cases l <;> simp [State.acknowledge]
@[simp] theorem State.acknowledge_ps (s : State) (l : Option BitLoc) : (s.acknowledge l).ps = s.ps := by
  cases l <;> simp [State.acknowledge]
@[simp] theorem State.acknowledge_clk (s : State) (l : Option BitLoc) : (s.acknowledge l).clk = s.clk := by
  cases l <;> simp [State.acknowledge]
@[simp] theorem State.acknowledge_xoutf (s : State) (l : Option BitLoc) : (s.acknowledge l).xoutf = s.xoutf := by
  cases l <;> simp [State.acknowledge]
@[simp] theorem State.acknowledge_last (s : State) (l : Option BitLoc) : (s.acknowledge l).last = s.last := by
  cases l <;> simp [State.acknowledge]
@[simp] theorem State.acknowledge_inputs (s : State) (l : Option BitLoc) : (s.acknowledge l).inputs = s.inputs := by
  cases l <;> simp [State.acknowledge]
@[simp] theorem State.acknowledge_cfg (s : State) (l : Option BitLoc) : (s.acknowledge l).cfg = s.cfg := by
  cases l <;> simp [State.acknowledge]

theorem WrittenFrom.acknowledge {c : Config} {m : Memory} {s : State} (h : WrittenFrom c m s.mem) (hc : s.cfg = c)
    (l : Option BitLoc) : WrittenFrom c m (s.acknowledge l).mem := by
  cases l with
  | none => exact h
  | some l => exact h.hardwareBit hc l false

/-- The state of an entry when its three pushes and the acknowledgement are done and PC is not yet loaded (R329). -/
def State.entered (s : State) (ret : Addr) (b : Bool) (request : Option BitLoc) : State :=
  ((((s.pushed (hiByte ret)).pushed (loByte ret)).pushed (s.ps.toByte b)).setPs { s.ps with i := true }).acknowledge
    request

/-- An entry that goes through loads PC in the entered state from the vector there. -/
theorem takeException_eq_entered {s t : State} {ret vector : Addr} {b : Bool} {request : Option BitLoc}
    (h : takeException s ret b request vector = .next t) : ∃ target,
      read16 (s.entered ret b request) vector = .next target ∧ t = (s.entered ret b request).setPc target := by
  obtain ⟨s1, s2, target, h1, h2, h3, rfl⟩ := takeException_eq_next.mp h
  obtain ⟨-, -, rfl⟩ := pushAddr_eq_next.mp h1
  obtain ⟨-, rfl⟩ := push8_eq_next.mp h2
  exact ⟨target, h3, rfl⟩

theorem State.writtenFrom_entered (s : State) (ret : Addr) (b : Bool) (request : Option BitLoc) :
    WrittenFrom s.cfg s.mem (s.entered ret b request).mem := by
  unfold State.entered
  apply WrittenFrom.acknowledge
  · rw [State.setPs_mem]
    exact ((WrittenFrom.refl.pushed rfl _).pushed (State.pushed_cfg _ _) _).pushed (by simp) _
  · simp

/-- The bit an entry of source k acknowledges (R327). -/
def acknowledged (k : IrqSource) : Option BitLoc := if k.autoClear then some k.request else none

/-- The end of an interrupt entry: PC is loaded, the clock runs, no latency is open and no source waits (R329, D24). -/
def State.finishEntry (s : State) (target : Addr) (draws : Nat) : State :=
  ((((s.setPc target).setClk .run).setLast Last.none).setDraws draws).setWaiting []

/-- The state after the entry of source k. -/
theorem enterInterrupt_eq_entered {s t : State} {k : IrqSource} (h : enterInterrupt s k = .next t) : ∃ target,
    read16 (s.entered s.pc false (acknowledged k)) k.vector = .next target ∧
    t = (s.entered s.pc false (acknowledged k)).finishEntry target (s.draws + 1) := by
  obtain ⟨u, hu, rfl⟩ := enterInterrupt_eq_next.mp h
  obtain ⟨target, hr, rfl⟩ := takeException_eq_entered hu
  exact ⟨target, hr, rfl⟩

section
variable (s : State) (target : Addr) (n : Nat)

@[simp] theorem State.finishEntry_a : (s.finishEntry target n).a = s.a := rfl
@[simp] theorem State.finishEntry_x : (s.finishEntry target n).x = s.x := rfl
@[simp] theorem State.finishEntry_y : (s.finishEntry target n).y = s.y := rfl
@[simp] theorem State.finishEntry_s : (s.finishEntry target n).s = s.s := rfl
@[simp] theorem State.finishEntry_pc : (s.finishEntry target n).pc = target := rfl
@[simp] theorem State.finishEntry_ps : (s.finishEntry target n).ps = s.ps := rfl
@[simp] theorem State.finishEntry_clk : (s.finishEntry target n).clk = .run := rfl
@[simp] theorem State.finishEntry_xoutf : (s.finishEntry target n).xoutf = s.xoutf := rfl
@[simp] theorem State.finishEntry_last : (s.finishEntry target n).last = Last.none := rfl
@[simp] theorem State.finishEntry_inputs : (s.finishEntry target n).inputs = s.inputs := rfl
@[simp] theorem State.finishEntry_cfg : (s.finishEntry target n).cfg = s.cfg := rfl
@[simp] theorem State.finishEntry_byteAt (a : Addr) : (s.finishEntry target n).byteAt a = s.byteAt a := rfl
@[simp] theorem State.finishEntry_bitAt (l : BitLoc) : (s.finishEntry target n).bitAt l = s.bitAt l := rfl

end

/-! ### Reset -/

/-- What every hardware write of a bit keeps, the reset of the sources' bits keeps. -/
theorem State.resetSources_induction {P : State → Prop} (hP : ∀ s l x, P s → P (s.hardwareBit l x)) {s : State}
    (h : P s) : P s.resetSources := by
  unfold State.resetSources
  generalize s.cfg.irqSources = ks
  induction ks generalizing s with
  | nil => exact h
  | cons k ks ih => exact ih (hP _ _ _ (hP _ _ _ h))

theorem State.resetStackPage_induction {P : State → Prop} (hP : ∀ s l x, P s → P (s.hardwareBit l x)) {s : State}
    (u : ResetDraw) (h : P s) : P (s.resetStackPage u) := by
  unfold State.resetStackPage
  split
  · exact h
  · exact hP _ _ _ h

/-- The state of a reset in which no bit of memory has its reset value yet. -/
def State.resetRegisters (c : Config) (u : ResetDraw) (m : Memory) : State :=
  { a := u.a, x := u.x, y := u.y, s := u.s, pc := 0, ps := PS.resetWith u.flags, mem := m, clk := .run,
    xoutf := u.xoutf, last := Last.none, draws := 0, waiting := [], inputs := [], cfg := c }

theorem State.resetBeforeVector_eq (c : Config) (u : ResetDraw) (m : Memory) :
    State.resetBeforeVector c u m = ((State.resetRegisters c u m).resetStackPage u).resetSources := rfl

theorem State.resetBeforeVector_induction {P : State → Prop} (hP : ∀ s l x, P s → P (s.hardwareBit l x)) (c : Config)
    (u : ResetDraw) (m : Memory) (h : P (State.resetRegisters c u m)) : P (State.resetBeforeVector c u m) :=
  State.resetBeforeVector_eq c u m ▸ State.resetSources_induction hP (State.resetStackPage_induction hP u h)

section
variable (c : Config) (u : ResetDraw) (m : Memory)

@[simp] theorem State.resetBeforeVector_cfg : (State.resetBeforeVector c u m).cfg = c :=
  State.resetBeforeVector_induction (P := fun s => s.cfg = c) (fun _ _ _ h => by simpa using h) c u m rfl
@[simp] theorem State.resetBeforeVector_last : (State.resetBeforeVector c u m).last = Last.none :=
  State.resetBeforeVector_induction (P := fun s => s.last = Last.none) (fun _ _ _ h => by simpa using h) c u m rfl
@[simp] theorem State.resetBeforeVector_clk : (State.resetBeforeVector c u m).clk = .run :=
  State.resetBeforeVector_induction (P := fun s => s.clk = .run) (fun _ _ _ h => by simpa using h) c u m rfl
@[simp] theorem State.resetBeforeVector_ps : (State.resetBeforeVector c u m).ps = PS.resetWith u.flags :=
  State.resetBeforeVector_induction (P := fun s => s.ps = PS.resetWith u.flags) (fun _ _ _ h => by simpa using h) c u m
    rfl

theorem State.writtenFrom_resetBeforeVector : WrittenFrom c m (State.resetBeforeVector c u m).mem :=
  (State.resetBeforeVector_induction (P := fun s => s.cfg = c ∧ WrittenFrom c m s.mem)
    (fun s l x h => ⟨by rw [State.hardwareBit_cfg, h.1], h.2.hardwareBit h.1 l x⟩) c u m ⟨rfl, .refl⟩).2

end

/-! ### What a step does -/

/-- The kinds of step: the CPU's (an entry, an instruction, a turn of waiting) and the environment's. -/
inductive StepKind (s t : State) : Prop
  | entry (hc : s.CpuTurn) (k : IrqSource) (ht : s.interruptTaken = some k) (h : enterInterrupt s.turn k = .next t)
  | instruction (hs : s.Ready) (h : instructionStep s.turn = .next t)
  | wait (hr : s.clk ≠ .run) (ht : s.interruptTaken = none) (h : t = s.turn)
  | environment (e : EnvEvent) (hi : s.inputs.head? = some e) (h : environmentActs s.turn e = .next t)

theorem cpuStep_kind {s t : State} (hc : s.CpuTurn) (h : cpuStep s.turn = .next t) : StepKind s t := by
  unfold cpuStep at h
  split at h
  case h_1 k hk => exact .entry hc k hk h
  case h_2 hk =>
    split at h
    case h_1 hr => exact .instruction ⟨hc, hr, hk⟩ h
    all_goals
      rename_i hr
      have hstopped : s.clk ≠ .run := fun e => by cases hr.symm.trans e
      split at h
      · cases h
      · injection h with h
        exact .wait hstopped hk h.symm

theorem step_kind {s t : State} (h : step s = .next t) : StepKind s t := by
  cases hi : s.inputs with
  | nil => exact cpuStep_kind (.inl hi) ((step_of_cpuTurn (.inl hi)).symm.trans h)
  | cons e rest =>
    have hturn : s.turn = s.setInputs rest := by rw [State.turn, hi, List.tail_cons]
    cases e with
    | cpu => exact cpuStep_kind (.inr ⟨rest, hi⟩) ((step_of_cpuTurn (.inr ⟨rest, hi⟩)).symm.trans h)
    | request | device | reset =>
      simp only [step, hi, ← hturn] at h
      exact .environment _ (by rw [hi]; rfl) h

/-- The kinds of action of the environment that change the state. -/
inductive ActionKind (s t : State) : Prop
  | idle (h : t = s)
  | request (k : IrqSource) (h : t = s.hardwareBit k.request true)
  | device (a : Addr) (v : Byte) (hk : kindAt s.cfg a = .sfr) (h : t = s.setMem (s.mem.write a.toNat v))
  | reset (h : resetEvent s = .next t)

theorem environmentActs_kind {s t : State} {e : EnvEvent} (h : environmentActs s e = .next t) : ActionKind s t := by
  cases e with
  | cpu =>
    injection h with h
    exact .idle h.symm
  | request n =>
    unfold environmentActs at h
    dsimp only at h
    split at h <;> injection h with h
    case h_1 k _ => exact .request k h.symm
    case h_2 => exact .idle h.symm
  | device a v =>
    unfold environmentActs at h
    dsimp only at h
    split at h <;> injection h with h
    case isTrue hk => exact .device a v hk h.symm
    case isFalse => exact .idle h.symm
  | reset => exact .reset h

/-- Every step leaves memory as writes to RAM and SFRs make it, from the memory before or, in a reset, from the memory the
reset leaves. -/
theorem step_writtenFrom {s t : State} (h : step s = .next t) :
    WrittenFrom s.cfg s.mem t.mem ∨ WrittenFrom s.cfg s.memoryAfterReset t.mem := by
  cases step_kind h with
  | entry _ k _ h =>
    obtain ⟨target, -, rfl⟩ := enterInterrupt_eq_entered h
    exact .inl (s.turn.writtenFrom_entered _ _ _)
  | instruction _ h =>
    obtain ⟨i, n, u, -, -, hu, rfl⟩ := instructionStep_eq_next.mp h
    exact .inl (exec_storesOf hu).writtenFrom
  | wait _ _ h => exact .inl (h ▸ .refl)
  | environment e _ h =>
    cases environmentActs_kind h with
    | idle h => exact .inl (h ▸ .refl)
    | request k h => exact .inl (h ▸ WrittenFrom.refl.hardwareBit (s := s.turn) rfl k.request true)
    | device a v hk h => exact .inl (h ▸ WrittenFrom.refl.write v (.inr hk))
    | reset h =>
      obtain ⟨pc, -, rfl⟩ := resetEvent_eq_next.mp h
      exact .inr (State.writtenFrom_resetBeforeVector _ _ _)

/-- Settles O6: writes keep the canonical form, and a reset starts from a memory that has it. -/
theorem stepKeepsMemoryCanonical : Obligations.StepKeepsMemoryCanonical := by
  intro s t hm h
  rcases step_writtenFrom h with h | h
  · exact h.wf hm
  · exact h.wf s.wf_memoryAfterReset

theorem State.read_memoryAfterReset_of_rom {s : State} {a : Addr}
    (ha : kindAt s.cfg a = .rom ∨ kindAt s.cfg a = .romIgnoringWrites) :
    s.memoryAfterReset.read a.toNat = s.byteAt a := by
  rw [State.read_memoryAfterReset]
  rcases ha with ha | ha <;> rw [ha]

/-- Settles O8: no write goes to ROM, and a reset starts from a memory that keeps it. -/
theorem stepNeverChangesRom : Obligations.StepNeverChangesRom := by
  intro s t a h ha
  rcases step_writtenFrom h with h | h
  · exact h.read_of_rom ha
  · exact (h.read_of_rom ha).trans (State.read_memoryAfterReset_of_rom ha)

end Sys2Proof.Machine
end

section
/-! PROOFS. The chip and the records of every step, and the state after reset (spec/10_state.md sections 6 and 8,
spec/70_reset_and_hazards.md section 1). -/

namespace Sys2Proof.Machine

/-! ### The chip, the inputs and the latency records -/

/-- The latency records of `s` are about request bits and sources of its chip. -/
structure State.RecordsReal (s : State) : Prop where
  changed : ∀ l ∈ s.last.changed, ∃ k ∈ s.cfg.irqSources, k.request = l
  forced : ∀ k ∈ s.last.forced, k ∈ s.cfg.irqSources

theorem State.recordsReal_of_last_none {s : State} (h : s.last = Last.none) : s.RecordsReal := by
  constructor <;> rw [h] <;> exact fun _ h => by cases h

theorem recordsReal_settle (pre : State) (i : Instr) {post : State} (hc : post.cfg = pre.cfg) :
    (settle pre i post).RecordsReal where
  changed l hl := by
    obtain ⟨k, hk, rfl⟩ := List.mem_map.mp (List.mem_of_mem_filter hl)
    exact ⟨k, hc ▸ hk, rfl⟩
  forced k hk := hc ▸ List.mem_of_mem_filter hk

/-- `t` has the chip of `s`, and its inputs after their first entry. -/
structure NextOf (s t : State) : Prop where
  cfg : t.cfg = s.cfg
  inputs : t.inputs = s.inputs.tail

theorem nextOf_turn (s : State) : NextOf s s.turn := ⟨rfl, rfl⟩

/-- What a step does to the chip, the inputs and the latency records: an instruction writes the records anew, an entry and
a reset clear them, and nothing else touches them. -/
theorem step_nextOf {s t : State} (h : step s = .next t) : NextOf s t ∧ (t.last = s.last ∨ t.RecordsReal) := by
  cases step_kind h with
  | entry _ k _ h =>
    obtain ⟨target, -, rfl⟩ := enterInterrupt_eq_entered h
    exact ⟨⟨by simp [State.entered, State.turn], by simp [State.entered, State.turn]⟩,
      .inr (State.recordsReal_of_last_none rfl)⟩
  | instruction _ h =>
    obtain ⟨i, n, u, -, -, hu, rfl⟩ := instructionStep_eq_next.mp h
    have hf := exec_frame hu
    exact ⟨⟨hf.cfg, hf.inputs⟩, .inr (recordsReal_settle s.turn i hf.cfg)⟩
  | wait _ _ h => exact h ▸ ⟨nextOf_turn s, .inl rfl⟩
  | environment e _ h =>
    cases environmentActs_kind h with
    | idle h => exact h ▸ ⟨nextOf_turn s, .inl rfl⟩
    | request k h => exact h ▸ ⟨⟨State.hardwareBit_cfg .., State.hardwareBit_inputs ..⟩, .inl (State.hardwareBit_last ..)⟩
    | device a v _ h => exact h ▸ ⟨⟨rfl, rfl⟩, .inl rfl⟩
    | reset h =>
      obtain ⟨pc, -, rfl⟩ := resetEvent_eq_next.mp h
      exact ⟨⟨by simp [State.turn], by simp [State.turn]⟩, .inr (State.recordsReal_of_last_none (by simp))⟩

theorem eq_or_cons_of_eq_tail {α : Type} {l l' : List α} (h : l' = l.tail) : l' = l ∨ ∃ e, l = e :: l' := by
  cases l with
  | nil => exact .inl h
  | cons e l => exact .inr ⟨e, by rw [h, List.tail_cons]⟩

/-- Settles O9: a record that a step leaves as it was is about the same chip, and one it writes is about real bits. -/
theorem stepKeepsTheChip : Obligations.StepKeepsTheChip := by
  intro s t h
  obtain ⟨hnext, hlast⟩ := step_nextOf h
  refine ⟨hnext.cfg, eq_or_cons_of_eq_tail hnext.inputs, ?changed, ?forced⟩
  case changed =>
    rcases hlast with hl | hr
    · rw [hl, hnext.cfg]
      exact id
    · exact fun _ => hr.changed
  case forced =>
    rcases hlast with hl | hr
    · rw [hl, hnext.cfg]
      exact id
    · exact fun _ => hr.forced

/-! ### The state after reset -/

/-- Settles O7. -/
theorem resetMemoryIsCanonical : Obligations.ResetMemoryIsCanonical := rfl

/-- Settles O10. -/
theorem resetStateAsSpecified : Obligations.ResetStateAsSpecified := ⟨rfl, rfl, rfl, rfl, rfl⟩

/-- The request and enable bits of the chip at the place `l` all have the reset value `x`. -/
def State.BitsResetTo (s : State) (l : BitLoc) (x : Bool) : Prop :=
  ∀ k ∈ s.cfg.irqSources, (k.request = l → k.requestReset = x) ∧ (k.enable = l → k.enableReset = x)

/-- In `s` memory is canonical and can hold the bit `l`. -/
structure State.CanHold (s : State) (l : BitLoc) : Prop where
  wf : s.mem.wf = true
  writable : s.writable l.addr = true

theorem State.CanHold.hardwareBit {s : State} {l : BitLoc} (h : s.CanHold l) (l' : BitLoc) (x : Bool) :
    (s.hardwareBit l' x).CanHold l where
  wf := s.wf_hardwareBit l' x h.wf
  writable := by
    have hw := h.writable
    rw [State.writable_iff] at hw ⊢
    rwa [State.hardwareBit_cfg]

/-- A hardware write at `l` writes `x` there, and one at another place leaves the bit. -/
theorem State.CanHold.bitAt_hardwareBit {s : State} {l l' : BitLoc} {x x' : Bool} (h : s.CanHold l)
    (hx : l' = l → x' = x) (hbit : l' = l ∨ s.bitAt l = x) : (s.hardwareBit l' x').bitAt l = x := by
  by_cases e : l' = l
  · rw [e, hx e, State.bitAt_hardwareBit_same s l x h.wf h.writable]
  · rw [State.bitAt_hardwareBit_ne s x' h.wf (Ne.symm e), hbit.resolve_left e]

/-- After the reset of the sources' bits the bit at `l` is `x`, if all of them at `l` reset to `x` and it was `x` before or
one of them is there. -/
theorem State.bitAt_resetSources {s : State} {l : BitLoc} {x : Bool} (h : s.CanHold l) (hx : s.BitsResetTo l x)
    (hbit : s.bitAt l = x ∨ ∃ k ∈ s.cfg.irqSources, k.request = l ∨ k.enable = l) : s.resetSources.bitAt l = x := by
  unfold State.resetSources State.BitsResetTo at *
  generalize s.cfg.irqSources = ks at hx hbit ⊢
  induction ks generalizing s with
  | nil =>
    rcases hbit with hbit | ⟨k, hk, -⟩
    · exact hbit
    · cases hk
  | cons k ks ih =>
    obtain ⟨hreq, hen⟩ := hx k List.mem_cons_self
    have h1 := h.hardwareBit k.request k.requestReset
    refine ih (h1.hardwareBit k.enable k.enableReset) (fun j hj => hx j (List.mem_cons_of_mem k hj)) ?_
    by_cases hr : k.request = l
    · exact .inl (h1.bitAt_hardwareBit hen (.inr (h.bitAt_hardwareBit hreq (.inl hr))))
    by_cases he : k.enable = l
    · exact .inl (h1.bitAt_hardwareBit hen (.inl he))
    rcases hbit with hbit | ⟨j, hj, hl⟩
    · exact .inl (h1.bitAt_hardwareBit hen (.inr (h.bitAt_hardwareBit hreq (.inr hbit))))
    · rcases List.mem_cons.mp hj with rfl | hj
      · exact absurd hl (by simp [hr, he])
      · exact .inr ⟨j, hj, hl⟩

theorem State.CanHold.resetStackPage {s : State} {l : BitLoc} (h : s.CanHold l) (u : ResetDraw) :
    (s.resetStackPage u).CanHold l :=
  State.resetStackPage_induction (P := fun s => s.CanHold l) (fun _ l' x h => h.hardwareBit l' x) u h

@[simp] theorem State.resetStackPage_cfg (s : State) (u : ResetDraw) : (s.resetStackPage u).cfg = s.cfg :=
  State.resetStackPage_induction (P := fun t => t.cfg = s.cfg) (fun _ _ _ h => by simpa using h) u rfl

theorem State.bitAt_resetStackPage {s : State} {zp : Byte} {bit : BitNo} {r : Bool} (u : ResetDraw)
    (hs : s.cfg.stackPage = .selectable zp bit (some r)) (h : s.CanHold ⟨zeroPage zp, bit⟩) :
    (s.resetStackPage u).bitAt ⟨zeroPage zp, bit⟩ = r := by
  unfold State.resetStackPage
  rw [hs]
  exact State.bitAt_hardwareBit_same s _ r h.wf h.writable

/-- Where nothing is left of latencies a 16-bit read gives the bytes of memory. -/
theorem eq_of_read16_of_unchanged {s : State} {a target : Addr} (hch : s.last.changed = [])
    (h : read16 s a = .next target) : target = joinAddr (s.byteAt (a + 1)) (s.byteAt a) := by
  obtain ⟨-, -, rfl⟩ := read16_eq_next.mp h
  rw [State.peek_of_unchanged hch, State.peek_of_unchanged hch]

/-- Settles O11: the state of the event is that of `State.resetBeforeVector` but for PC, the draw and the inputs; its bits
are those that `State.resetStackPage` and then `State.resetSources` write. -/
theorem resetEventGivesTheResetState : Obligations.ResetEventGivesTheResetState := by
  intro s t rest hi h
  have hstep : step s = resetEvent (s.setInputs rest) := by
    unfold step
    rw [hi]
    rfl
  have hrom : ∀ a : Addr, (kindAt s.cfg a = .rom ∨ kindAt s.cfg a = .romIgnoringWrites) → t.byteAt a = s.byteAt a :=
    fun a ha => stepNeverChangesRom s t a h ha
  rw [hstep] at h
  obtain ⟨pc, hpc, rfl⟩ := resetEvent_eq_next.mp h
  have hold : ∀ l : BitLoc, s.writable l.addr = true →
      (State.resetRegisters s.cfg (ResetDraw.free s.draws) (s.setInputs rest).memoryAfterReset).CanHold l :=
    fun l hw => ⟨State.wf_memoryAfterReset _, hw⟩
  refine ⟨?i, ?clk, ?last, ?cfg, rfl, ?pc, hrom, fun zp bit r hs hw hne => ?sps, fun l x hw hex hall => ?sources⟩
  case i => simp [PS.resetWith]
  case clk => simp
  case last => simp
  case cfg => simp
  case pc => exact eq_of_read16_of_unchanged (s := State.resetBeforeVector _ _ _) (by simp [Last.none]) hpc
  case sps =>
    refine State.bitAt_resetSources ((hold _ hw).resetStackPage _) ?_ (.inl (State.bitAt_resetStackPage _ hs (hold _ hw)))
    rw [State.BitsResetTo, State.resetStackPage_cfg]
    exact fun k hk => ⟨fun e => absurd e (hne k hk).1, fun e => absurd e (hne k hk).2⟩
  case sources =>
    obtain ⟨k, hk, hl⟩ := hex
    refine State.bitAt_resetSources ((hold l hw).resetStackPage _) ?_ (.inr ⟨k, ?_, hl.imp And.left And.left⟩)
    · rwa [State.BitsResetTo, State.resetStackPage_cfg]
    · rwa [State.resetStackPage_cfg]

end Sys2Proof.Machine
end

section
/-! PROOFS. SBC in binary mode, decimal mode, EOR and the compares (spec/42_arithmetic_logic.md sections 1 to 3). -/

namespace Sys2Proof.Machine

/-! ### The binary difference -/

theorem toNat_binaryDiff (a m : Byte) (c : Bool) :
    (binaryDiff a m c).toNat = (a.toNat + 0x200 - m.toNat - carryNat (!c)) % 0x100 := by
  have hc := carryNat_le_one (!c)
  have ha := a.isLt
  have hm := m.isLt
  rw [binaryDiff, BitVec.toNat_ofInt]
  omega

theorem binaryDiff_eq_mod (a m : Byte) (c : Bool) :
    binaryDiff a m c = BitVec.ofNat 8 ((a.toNat + 0x200 - m.toNat - carryNat (!c)) % 0x100) :=
  BitVec.eq_of_toNat_eq (by rw [toNat_binaryDiff]; simp)

/-- The signs of the operands and of the result say whether the signed difference leaves -128 to +127 (R181): bit 7 of each
is a comparison with 0x80, and the signed value is the unsigned one less 0x100 where that bit is 1. -/
theorem diffOverflow_binaryDiff (a m : Byte) (c : Bool) : diffOverflow a m (binaryDiff a m c) =
    decide (a.toInt - m.toInt - (carryNat (!c) : Int) < -128 ∨ 127 < a.toInt - m.toInt - (carryNat (!c) : Int)) := by
  have hc := carryNat_le_one (!c)
  have ha := a.isLt
  have hm := m.isLt
  rw [diffOverflow, getLsbD_seven, getLsbD_seven, getLsbD_seven, toNat_binaryDiff, a.toInt_eq_toNat_cond,
    m.toInt_eq_toNat_cond, Bool.eq_iff_iff]
  simp only [Bool.and_eq_true, bne_iff_ne, decide_eq_true_eq, ne_eq, decide_eq_decide]
  by_cases ha7 : 0x80 ≤ a.toNat <;> by_cases hm7 : 0x80 ≤ m.toNat <;> omega

theorem carryNat_not (c : Bool) : carryNat (!c) = if c then 0 else 1 := by
  cases c <;> rfl

/-- SBC's result and flags in binary mode, in the terms of R181. -/
theorem subWithCarry_of_not_d {p : PS} (draw : Nat) (a m : Byte) (hd : p.d = false) :
    subWithCarry draw p a m = (BitVec.ofNat 8 ((a.toNat + 0x200 - m.toNat - carryNat (!p.c)) % 0x100),
      { p.withNZ (BitVec.ofNat 8 ((a.toNat + 0x200 - m.toNat - carryNat (!p.c)) % 0x100)) with
        c := decide (m.toNat + carryNat (!p.c) ≤ a.toNat)
        v := decide (a.toInt - m.toInt - (carryNat (!p.c) : Int) < -128 ∨
          127 < a.toInt - m.toInt - (carryNat (!p.c) : Int)) }) := by
  rw [← binaryDiff_eq_mod, ← diffOverflow_binaryDiff, subWithCarry, if_neg (by rw [hd]; decide)]
  rfl

/-- Settles O21: SBC is a two-operand instruction, and `subWithCarry_of_not_d` gives its result and flags. -/
theorem sbcBinarySubtractsWithBorrow : Obligations.SbcBinarySubtractsWithBorrow := by
  intro m s a v hd hv ha
  rw [← carryNat_not]
  exact aluOp_of_operands hv ha (subWithCarry_of_not_d s.draws a v hd)

/-! ### Decimal mode -/

theorem decOf_lt_of_validBcd {b : Byte} (h : validBcd b = true) : decOf b < 100 := by
  simp only [validBcd, Bool.and_eq_true, decide_eq_true_eq] at h
  unfold decOf
  omega

theorem validBcd_bcdOf : ∀ n < 100, validBcd (bcdOf n) = true := by decide

theorem carryNat_decide (p : Prop) [Decidable p] : carryNat (decide p) = if p then 1 else 0 := by
  by_cases h : p <;> simp [carryNat, h]

theorem decOf_bcdOf : ∀ n < 100, decOf (bcdOf n) = n := by decide

/-- The decimal sum of valid operands is valid and, with C as the hundreds, exact (R182). -/
theorem decimalSum_exact {a m : Byte} (c : Bool) (ha : validBcd a = true) (hm : validBcd m = true) :
    validBcd (decimalSum a m c).1 = true ∧
    decOf (decimalSum a m c).1 + 100 * carryNat (decimalSum a m c).2 = decOf a + decOf m + carryNat c := by
  have hc := carryNat_le_one c
  have ha' := decOf_lt_of_validBcd ha
  have hm' := decOf_lt_of_validBcd hm
  have hlt : (decOf a + decOf m + carryNat c) % 100 < 100 := Nat.mod_lt _ (by omega)
  simp only [decimalSum]
  refine ⟨validBcd_bcdOf _ hlt, ?_⟩
  rw [decOf_bcdOf _ hlt, carryNat_decide]
  split <;> omega

/-- The decimal difference of valid operands is valid and, with a borrow counting for a hundred, exact (R182). -/
theorem decimalDiff_exact {a m : Byte} (c : Bool) (ha : validBcd a = true) (hm : validBcd m = true) :
    validBcd (decimalDiff a m c).1 = true ∧
    decOf (decimalDiff a m c).1 + decOf m + carryNat (!c) = decOf a + 100 * carryNat (!(decimalDiff a m c).2) := by
  have hc := carryNat_le_one (!c)
  have ha' := decOf_lt_of_validBcd ha
  have hm' := decOf_lt_of_validBcd hm
  have hlt : (((decOf a : Int) - decOf m - carryNat (!c)) % 100).toNat < 100 := by omega
  simp only [decimalDiff]
  refine ⟨validBcd_bcdOf _ hlt, ?_⟩
  rw [decOf_bcdOf _ hlt, carryNat_not (decide _)]
  simp only [decide_eq_true_eq]
  split <;> omega

/-- `q` is `p` but for C, N, V and Z. -/
def PS.AgreesOnTDI (p q : PS) : Prop := q = { p with c := q.c, n := q.n, v := q.v, z := q.z }

theorem PS.agreesOnTDI_afterDecimal (p : PS) (draw : Nat) (c : Bool) : p.AgreesOnTDI (p.afterDecimal draw c) := rfl

theorem addWithCarry_of_d {p : PS} (draw : Nat) (a m : Byte) (hd : p.d = true) :
    addWithCarry draw p a m = ((decimalResult draw a m (decimalSum a m p.c)).1,
      p.afterDecimal draw (decimalResult draw a m (decimalSum a m p.c)).2) :=
  if_pos hd

theorem subWithCarry_of_d {p : PS} (draw : Nat) (a m : Byte) (hd : p.d = true) :
    subWithCarry draw p a m = ((decimalResult draw a m (decimalDiff a m p.c)).1,
      p.afterDecimal draw (decimalResult draw a m (decimalDiff a m p.c)).2) :=
  if_pos hd

theorem decimalResult_of_valid {a m : Byte} (draw : Nat) (r : Byte × Bool) (ha : validBcd a = true)
    (hm : validBcd m = true) : decimalResult draw a m r = r :=
  if_pos (by rw [ha, hm]; rfl)

/-- Settles O22: on valid operands the result is that of `decimalSum` or `decimalDiff`, which are exact. -/
theorem decimalModeAddsAndSubtracts : Obligations.DecimalModeAddsAndSubtracts := by
  intro m s a v hd hv ha hba hbv
  have hadd := addWithCarry_of_d s.draws a v hd
  have hsub := subWithCarry_of_d s.draws a v hd
  rw [decimalResult_of_valid _ _ hba hbv] at hadd hsub
  obtain ⟨hsumValid, hsum⟩ := decimalSum_exact s.ps.c hba hbv
  obtain ⟨hdiffValid, hdiff⟩ := decimalDiff_exact s.ps.c hba hbv
  refine ⟨⟨_, _, PS.agreesOnTDI_afterDecimal _ s.draws _, hsumValid, hsum, aluOp_of_operands hv ha hadd⟩,
    ⟨_, _, PS.agreesOnTDI_afterDecimal _ s.draws _, hdiffValid, ?_, aluOp_of_operands hv ha hsub⟩⟩
  rw [← carryNat_not, ← carryNat_not]
  exact hdiff

/-! ### EOR and the compares -/

/-- Settles O24: EOR is a two-operand instruction, whose operation is already in the rule's terms. -/
theorem eorCombines : Obligations.EorCombines := fun _ _ _ _ hv ha => aluOp_of_operands (f := eorOp) hv ha rfl

/-- C, Z and N of a comparison, in the terms of R186 to R188. -/
theorem PS.compare_eq (p : PS) (r m : Byte) : p.compare r m =
    { p with
      c := decide (m.toNat ≤ r.toNat), z := decide (r = m)
      n := decide (0x80 ≤ (r.toNat + 0x100 - m.toNat) % 0x100) } := by
  have hn : (r - m).getLsbD 7 = decide (0x80 ≤ (r.toNat + 0x100 - m.toNat) % 0x100) := by
    rw [getLsbD_seven, BitVec.toNat_sub, decide_eq_decide]
    omega
  have hz : ((r - m) == 0) = decide (r = m) := by
    rw [Bool.eq_iff_iff, beq_iff_eq, decide_eq_true_eq]
    exact sub_eq_zero
  rw [PS.compare, PS.setNZC, PS.setNZ, hn, hz]

theorem exec_cmp_of_operands {s : State} {m : AluSrc} {a v : Byte} (hv : readSource s (sourceOfAlu m) = .next v)
    (ha : op1 s = .next a) : exec (.cmp m) s = .next (s.setPs (s.ps.compare a v)) :=
  (andThen_of_eq_next hv _).trans (andThen_of_eq_next ha _)

theorem exec_cpx_of_read {s : State} {m : CpSrc} {v : Byte} (hv : readSource s (sourceOfCp m) = .next v) :
    exec (.cpx m) s = .next (s.setPs (s.ps.compare s.x v)) :=
  andThen_of_eq_next hv _

theorem exec_cpy_of_read {s : State} {m : CpSrc} {v : Byte} (hv : readSource s (sourceOfCp m) = .next v) :
    exec (.cpy m) s = .next (s.setPs (s.ps.compare s.y v)) :=
  andThen_of_eq_next hv _

/-- Settles O25: the three compare different registers, and `PS.compare_eq` says how. -/
theorem comparesSetFlags : Obligations.ComparesSetFlags := by
  refine ⟨fun _ => ⟨rfl, fun _ => rfl⟩, fun nn zz a => ?encodingAndCycles, fun m s a v hv ha => ?cmp,
    fun m s v hv => ?cpxCpy⟩
  case encodingAndCycles => and_intros <;> rfl
  case cmp => exact ⟨fun ht => eq_a_of_op1 ht ha, by rw [exec_cmp_of_operands hv ha, PS.compare_eq]⟩
  case cpxCpy => rw [exec_cpx_of_read hv, exec_cpy_of_read hv, PS.compare_eq, PS.compare_eq]; exact ⟨rfl, rfl⟩

end Sys2Proof.Machine
end

section
/-! PROOFS. MUL and DIV, undefined results, and changes of one byte in place (spec/42_arithmetic_logic.md sections 1, 4 and
5, spec/43_shift_rotate_bit.md). -/

namespace Sys2Proof.Machine

/-! ### MUL and DIV -/

/-- A 16-bit quantity is 0x100 times its high byte plus its low byte (R63). -/
theorem toNat_hiByte_loByte (a : Addr) : (hiByte a).toNat * 0x100 + (loByte a).toNat = a.toNat := by
  have ha := a.isLt
  simp only [hiByte, loByte, BitVec.extractLsb'_toNat, Nat.shiftRight_eq_div_pow]
  omega

/-- Two bytes' product fits 16 bits. -/
theorem toNat_product (a m : Byte) : (product a m).toNat = a.toNat * m.toNat := by
  have hle : a.toNat * m.toNat ≤ 0xFF * 0xFF := Nat.mul_le_mul (by have := a.isLt; omega) (by have := m.isLt; omega)
  rw [product, BitVec.toNat_ofNat, Nat.mod_eq_of_lt (by omega)]

theorem exec_mul_of_read {s : State} {zz v : Byte} (hv : readSource s (.mem (.zpX zz)) = .next v)
    (hs : s.storable s.stackAddr (hiByte (product s.a v)) = true) :
    exec (.mul zz) s = .next ((s.pushed (hiByte (product s.a v))).setA (loByte (product s.a v))) :=
  (andThen_of_eq_next hv _).trans (andThen_of_eq_next (push8_of_storable hs) _)

/-- Settles O29: the two bytes are those of the product. -/
theorem mulPushesHighKeepsLow : Obligations.MulPushesHighKeepsLow := fun _ s v hv =>
  ⟨_, _, (toNat_hiByte_loByte (product s.a v)).trans (toNat_product s.a v), exec_mul_of_read hv⟩

theorem exec_div_of_read {s : State} {zz : Byte} {n : Addr} (hn : readZp16 s (zz + s.x) = .next n)
    (hs : s.storable s.stackAddr (remainderByte s.draws n s.a) = true) :
    exec (.div zz) s = .next ((s.pushed (remainderByte s.draws n s.a)).setA (quotientByte s.draws n s.a)) :=
  (andThen_of_eq_next hn _).trans (andThen_of_eq_next (push8_of_storable hs) _)

/-- Where the division is exact, DIV's two bytes are the quotient and the complemented remainder, whatever the draw. -/
theorem quotientByte_remainderByte_of_eq {n : Addr} {d q r : Byte} (draw : Nat)
    (hn : n.toNat = q.toNat * d.toNat + r.toNat) (hr : r.toNat < d.toNat) :
    quotientByte draw n d = q ∧ remainderByte draw n d = r ^^^ 0xFF := by
  obtain ⟨hquot, hrem⟩ := (Nat.div_mod_unique (by omega : 0 < d.toNat)).mpr
    ⟨(show r.toNat + d.toNat * q.toNat = n.toNat by rw [hn, Nat.mul_comm, Nat.add_comm]), hr⟩
  have hd : d ≠ 0 := by
    rintro rfl
    exact absurd hr (by simp)
  have hq := q.isLt
  have hdiv : divisible n d = true := by
    rw [divisible, hquot, Bool.and_eq_true, decide_eq_true_eq, bne_iff_ne]
    exact ⟨hd, by omega⟩
  rw [quotientByte, remainderByte, if_pos hdiv, if_pos hdiv, hquot, hrem, BitVec.ofNat_toNat, BitVec.ofNat_toNat,
    BitVec.setWidth_eq, BitVec.setWidth_eq]
  exact ⟨rfl, rfl⟩

/-- Settles O30. -/
theorem divGivesQuotientAndRemainder : Obligations.DivGivesQuotientAndRemainder := by
  intro zz s n q r hread hn hr hs
  obtain ⟨hquot, hrem⟩ := quotientByte_remainderByte_of_eq s.draws hn hr
  rw [exec_div_of_read hread (by rwa [hrem]), hquot, hrem]

/-- Settles O31: a decimal operation's result, whatever it is, goes where every result goes; so do DIV's two bytes. -/
theorem undefinedResultsStillRun : Obligations.UndefinedResultsStillRun := by
  refine ⟨fun m s a v hd hv ha => ?decimal, fun zz s n hn _ hs => ⟨_, _, exec_div_of_read hn (hs _)⟩⟩
  case decimal =>
    obtain ⟨addToA, addToMemory⟩ := aluOp_of_operands hv ha (addWithCarry_of_d s.draws a v hd)
    obtain ⟨subToA, subToMemory⟩ := aluOp_of_operands hv ha (subWithCarry_of_d s.draws a v hd)
    exact ⟨_, _, _, _, PS.agreesOnTDI_afterDecimal _ _ _, PS.agreesOnTDI_afterDecimal _ _ _,
      fun ht => ⟨(addToA ht).2, (subToA ht).2⟩, addToMemory, subToMemory⟩

/-! ### Rotates -/

/-- Nine bits are C and the byte. -/
theorem ofBool_append_inj {c c' : Bool} {r r' : Byte} (h : BitVec.ofBool c ++ r = BitVec.ofBool c' ++ r') :
    c = c' ∧ r = r' := by
  have hc := congrArg (fun w => w.getLsbD 8) h
  have hr := congrArg (BitVec.extractLsb' 0 8) h
  simp only [BitVec.extractLsb'_append_eq_right] at hr
  simp only [BitVec.getLsbD_append] at hc
  exact ⟨by simpa using hc, hr⟩

theorem rotateLeft_nine : ∀ (c : Bool) (v : Byte), (BitVec.ofBool c ++ v).rotateLeft 1 =
    BitVec.ofBool (v.getLsbD 7) ++ ((v <<< 1) ||| BitVec.ofNat 8 (carryNat c)) := by
  decide

theorem rotateRight_nine : ∀ (c : Bool) (v : Byte), (BitVec.ofBool c ++ v).rotateRight 1 =
    BitVec.ofBool (v.getLsbD 0) ++ ((v >>> 1) ||| (BitVec.ofNat 8 (carryNat c) <<< 7)) := by
  decide

/-- ROL rotates the nine bits C : v to the left (R222). -/
theorem rolOp_of_rotate {p : PS} {v r : Byte} {c : Bool}
    (h : BitVec.ofBool c ++ r = (BitVec.ofBool p.c ++ v).rotateLeft 1) : rolOp p v = (r, { p.withNZ r with c := c }) := by
  obtain ⟨rfl, rfl⟩ := ofBool_append_inj (h.trans (rotateLeft_nine p.c v))
  rfl

/-- ROR rotates the nine bits C : v to the right (R223). -/
theorem rorOp_of_rotate {p : PS} {v r : Byte} {c : Bool}
    (h : BitVec.ofBool c ++ r = (BitVec.ofBool p.c ++ v).rotateRight 1) :
    rorOp p v = (r, { p.withNZ r with c := c }) := by
  obtain ⟨rfl, rfl⟩ := ofBool_append_inj (h.trans (rotateRight_nine p.c v))
  rfl

theorem exec_rol_eq_modifyPlace (p : RmwPlace) (s : State) :
    exec (.rol p) s = modifyPlace s (placeOfRmw p) rolOp := rfl

theorem exec_ror_eq_modifyPlace (p : RmwPlace) (s : State) :
    exec (.ror p) s = modifyPlace s (placeOfRmw p) rorOp := rfl

/-- Settles O33: each rotate changes its operand in place by an operation that rotates the nine bits. -/
theorem rolRorRotateNineBits : Obligations.RolRorRotateNineBits := by
  intro v rl rr cl cr s hl hr
  have hrol := rolOp_of_rotate hl
  have hror := rorOp_of_rotate hr
  refine ⟨?onA, fun p m a hp ha hv => ?onMemory⟩
  case onA =>
    rintro rfl
    exact ⟨modifyPlace_acc_of_op hrol, modifyPlace_acc_of_op hror⟩
  case onMemory =>
    rw [exec_rol_eq_modifyPlace, exec_ror_eq_modifyPlace, hp]
    exact ⟨modifyPlace_mem_of_op ha hv hrol, modifyPlace_mem_of_op ha hv hror⟩

/-! ### One bit -/

/-- A byte is its eight bits. -/
theorem eq_of_testBit {v w : Byte} (h : ∀ c : BitNo, testBit c v = testBit c w) : v = w := by
  refine BitVec.eq_of_getLsbD_eq fun j hj => ?_
  have hc := h (BitVec.ofNat 3 j)
  rwa [testBit, testBit, BitVec.toNat_ofNat, Nat.mod_eq_of_lt hj] at hc

/-- The byte with one bit made `x` is the only one with that bit and the others as they were. -/
theorem putBit_eq_of_bits {b : BitNo} {x : Bool} {v r : Byte}
    (h : ∀ c : BitNo, testBit c r = if c = b then x else testBit c v) : putBit b x v = r :=
  eq_of_testBit fun c => by rw [testBit_putBit, h]

theorem clearBit_eq_of_bits {b : BitNo} {v r : Byte}
    (h : ∀ j : Nat, j < 8 → r.getLsbD j = (v.getLsbD j && decide (j ≠ b.toNat))) : clearBit b v = r :=
  putBit_eq_of_bits (x := false) fun c => by
    rw [testBit, h c.toNat c.isLt]
    by_cases e : c = b
    · simp [e]
    · simp [e, BitVec.toNat_inj, testBit]

theorem setBit_eq_of_bits {b : BitNo} {v r : Byte}
    (h : ∀ j : Nat, j < 8 → r.getLsbD j = (v.getLsbD j || decide (j = b.toNat))) : setBit b v = r :=
  putBit_eq_of_bits (x := true) fun c => by
    rw [testBit, h c.toNat c.isLt]
    by_cases e : c = b
    · simp [e]
    · simp [e, BitVec.toNat_inj, testBit]

theorem clbOp_of_bits {b : BitNo} {v r : Byte} (p : PS)
    (h : ∀ j : Nat, j < 8 → r.getLsbD j = (v.getLsbD j && decide (j ≠ b.toNat))) : clbOp b p v = (r, p) := by
  rw [clbOp, clearBit_eq_of_bits h]

theorem sebOp_of_bits {b : BitNo} {v r : Byte} (p : PS)
    (h : ∀ j : Nat, j < 8 → r.getLsbD j = (v.getLsbD j || decide (j = b.toNat))) : sebOp b p v = (r, p) := by
  rw [sebOp, setBit_eq_of_bits h]

/-- The flags an instruction puts back as they were are not changed. -/
@[simp] theorem State.setPs_ps_self (s : State) : s.setPs s.ps = s := rfl
theorem State.put_setPs_self (s : State) (a : Addr) (v : Byte) : (s.put a v).setPs s.ps = s.put a v := by
  rw [← State.put_ps s a v, State.setPs_ps_self]

/-- Settles O34. -/
theorem clbSebChangeOneBit : Obligations.ClbSebChangeOneBit := by
  intro b v rc rs s hc hs
  have hclb := clbOp_of_bits s.ps hc
  have hseb := sebOp_of_bits s.ps hs
  refine ⟨?onA, fun zz hv => ?onMemory⟩
  case onA =>
    rintro rfl
    exact ⟨modifyPlace_acc_of_op hclb, modifyPlace_acc_of_op hseb⟩
  case onMemory =>
    rw [← State.put_setPs_self s _ rc, ← State.put_setPs_self s _ rs]
    exact ⟨modifyPlace_mem_of_op (m := .zp zz) rfl hv hclb, modifyPlace_mem_of_op (m := .zp zz) rfl hv hseb⟩

/-! ### TST, COM, RRF -/

theorem comOp_of_sum {p : PS} {v r : Byte} (h : r.toNat + v.toNat = 0xFF) : comOp p v = (r, p.withNZ r) := by
  have hcom : v ^^^ 0xFF = r := by
    rw [show (0xFF : Byte) = BitVec.allOnes 8 from rfl, BitVec.xor_allOnes]
    exact BitVec.eq_of_toNat_eq (by rw [BitVec.toNat_not]; omega)
  rw [comOp, hcom, PS.setNZ_eq_withNZ]

theorem rrfOp_eq_rotateRight (p : PS) (v : Byte) : rrfOp p v = (v.rotateRight 4, p) := by
  have hrot : ∀ v : Byte, (v <<< 4) ||| (v >>> 4) = v.rotateRight 4 := by decide
  rw [rrfOp, hrot]

theorem rotateRight_four_twice : ∀ v : Byte, (v.rotateRight 4).rotateRight 4 = v := by decide

theorem exec_tst_of_present {s : State} {zz : Byte} (h : s.present (zeroPage zz) = true) :
    exec (.tst zz) s = .next (s.setPs (s.ps.withNZ (s.peek (zeroPage zz)))) :=
  andThen_of_eq_next (load_of_present h) _

/-- Settles O27. -/
theorem tstComRrf : Obligations.TstComRrf := by
  intro zz s hp
  have hv := load_of_present hp
  refine ⟨exec_tst_of_present hp, fun r hr hs => ?com, fun hs => ?rrf, rotateRight_four_twice _⟩
  case com => exact modifyPlace_mem_of_op (m := .zp zz) rfl hv (comOp_of_sum hr) hs
  case rrf =>
    rw [← State.put_setPs_self]
    exact modifyPlace_mem_of_op (m := .zp zz) rfl hv (rrfOp_eq_rotateRight _ _) hs

/-! ### Counting -/

theorem exec_inc_eq_modifyPlace (p : RmwPlace) (s : State) :
    exec (.inc p) s = modifyPlace s (placeOfRmw p) incOp := rfl

theorem exec_dec_eq_modifyPlace (p : RmwPlace) (s : State) :
    exec (.dec p) s = modifyPlace s (placeOfRmw p) decOp := rfl

/-- Settles O28. -/
theorem incrementsAndDecrementsCount : Obligations.IncrementsAndDecrementsCount := by
  refine ⟨fun s => ⟨rfl, rfl, rfl, rfl, rfl, rfl⟩, fun p m s a hp ha hpresent => ?onMemory⟩
  rw [exec_inc_eq_modifyPlace, exec_dec_eq_modifyPlace, hp]
  have hv := load_of_present hpresent
  exact ⟨modifyPlace_mem_of_op (f := incOp) ha hv rfl, modifyPlace_mem_of_op (f := decOp) ha hv rfl⟩

/-! ### LDM, transfers, flags, clock -/

/-- Settles O18. -/
theorem ldmStoresTheImmediate : Obligations.LdmStoresTheImmediate := fun _ zz _ =>
  ⟨rfl, storeTo_of_storable (m := .zp zz) rfl⟩

/-- Settles O19. -/
theorem transfersCopy : Obligations.TransfersCopy := fun _ => ⟨rfl, rfl, rfl, rfl, rfl, rfl⟩

/-- Settles O35. -/
theorem flagInstructionsWriteOneFlag : Obligations.FlagInstructionsWriteOneFlag := fun _ =>
  ⟨rfl, rfl, rfl, rfl, rfl, rfl, rfl, rfl, rfl, rfl⟩

/-- Settles O45. -/
theorem clockInstructions : Obligations.ClockInstructions := fun _ => ⟨rfl, rfl, rfl, rfl⟩

end Sys2Proof.Machine
end

section
/-! PROOFS. Accesses, effective addresses, and the step that runs the decoded instruction (spec/20_memory.md,
spec/40_addressing.md, spec/00_scope.md section 5). -/

namespace Sys2Proof.Machine

/-! ### Accesses -/

/-- Settles O12. -/
theorem loadAfterStore : Obligations.LoadAfterStore := fun s _ v hm hw hs =>
  ⟨store_of_storable hs, s.byteAt_put_same v hm hw, fun _ hb => s.byteAt_put_ne v hb⟩

theorem load_of_absent {s : State} {a : Addr} (h : kindAt s.cfg a = .absent) :
    load s a = .fault (.absentAddress a) := by
  simp [load, State.present, h]

theorem store_of_absent {s : State} {a : Addr} (v : Byte) (h : kindAt s.cfg a = .absent) :
    store s a v = .fault (.absentAddress a) := by
  simp [store, h]

theorem store_of_rom {s : State} {a : Addr} (v : Byte) (h : kindAt s.cfg a = .rom) :
    store s a v = .refused (.romWrite a) := by
  simp [store, h]

theorem store_of_romIgnoringWrites {s : State} {a : Addr} (v : Byte) (h : kindAt s.cfg a = .romIgnoringWrites) :
    store s a v = .next s := by
  simp [store, State.put, State.writable, h]

theorem setsRequest_of_request {s : State} {v : Byte} {k : IrqSource} (hk : k ∈ s.cfg.irqSources)
    (h0 : s.bitAt k.request = false) (h1 : testBit k.request.bit v = true) :
    s.setsRequest k.request.addr v = true := by
  have h0' : testBit k.request.bit (s.byteAt k.request.addr) = false := h0
  exact List.any_eq_true.mpr ⟨k, hk, by simp [h0', h1]⟩

theorem store_of_setsRequest {s : State} {a : Addr} {v : Byte} (hk : kindAt s.cfg a = .ram ∨ kindAt s.cfg a = .sfr)
    (h : s.setsRequest a v = true) : store s a v = .refused (.requestBitSetBySoftware a) := by
  rcases hk with hk | hk <;> simp [store, hk, h]

/-- Settles O13: an access is decided by the kind the map gives the address. -/
theorem accessesTheMapForbids : Obligations.AccessesTheMapForbids := by
  refine fun s a v => ⟨fun h => ⟨load_of_absent h, store_of_absent v h⟩, store_of_rom v, store_of_romIgnoringWrites v, ?_⟩
  rintro k hk rfl h0 h1 hkind
  exact store_of_setsRequest hkind (setsRequest_of_request hk h0 h1)

/-! ### Effective addresses -/

theorem joinAddr_eq_ofNat (hi lo : Byte) : joinAddr hi lo = BitVec.ofNat 16 (hi.toNat * 0x100 + lo.toNat) := by
  have h := toNat_hiByte_loByte (joinAddr hi lo)
  rw [hiByte_joinAddr, loByte_joinAddr] at h
  rw [h, BitVec.ofNat_toNat, BitVec.setWidth_eq]

theorem zeroPage_eq_ofNat (z : Byte) : zeroPage z = BitVec.ofNat 16 z.toNat := by
  rw [zeroPage, joinAddr_eq_ofNat]
  simp

theorem index16_eq_ofNat (r : Byte) : index16 r = BitVec.ofNat 16 r.toNat := zeroPage_eq_ofNat r

/-- A sum in the zero page drops its carry (R67). -/
theorem zeroPage_add (z r : Byte) : zeroPage (z + r) = BitVec.ofNat 16 ((z.toNat + r.toNat) % 0x100) := by
  rw [zeroPage_eq_ofNat, BitVec.toNat_add]

theorem zeroPage_add_one (z : Byte) : zeroPage (z + 1) = BitVec.ofNat 16 ((z.toNat + 1) % 0x100) := zeroPage_add z 1

/-- A 16-bit sum with an index wraps (R66). -/
theorem add_index16 (a : Addr) (r : Byte) : a + index16 r = BitVec.ofNat 16 (a.toNat + r.toNat) := by
  rw [index16_eq_ofNat, BitVec.ofNat_add, BitVec.ofNat_toNat 16 a, BitVec.setWidth_eq]

theorem readZp16_of_load {s : State} {z lo hi : Byte} (hlo : load s (zeroPage z) = .next lo)
    (hhi : load s (zeroPage (z + 1)) = .next hi) : readZp16 s z = .next (joinAddr hi lo) := by
  rw [readZp16, hlo, andThen_next, hhi, andThen_next]

theorem read16_of_load {s : State} {a : Addr} {lo hi : Byte} (hlo : load s a = .next lo)
    (hhi : load s (a + 1) = .next hi) : read16 s a = .next (joinAddr hi lo) := by
  rw [read16, hlo, andThen_next, hhi, andThen_next]

/-- Settles O14: each mode's sum, in the numbers of the rules. -/
theorem effectiveAddresses : Obligations.EffectiveAddresses := by
  intro s zz a
  refine ⟨?zp, ?zpX, ?zpY, rfl, ?absX, ?absY, fun lo hi hlo hhi => ?indX, fun lo hi hlo hhi => ?indY⟩
  case zp => rw [effectiveAddr, zeroPage_eq_ofNat]
  case zpX => rw [effectiveAddr, zeroPage_add]
  case zpY => rw [effectiveAddr, zeroPage_add]
  case absX => rw [effectiveAddr, add_index16]
  case absY => rw [effectiveAddr, add_index16]
  case indX =>
    have hnext : zeroPage (zz + s.x + 1) = BitVec.ofNat 16 ((zz.toNat + s.x.toNat + 1) % 0x100) := by
      rw [zeroPage_add_one, BitVec.toNat_add]
      congr 1
      omega
    rw [← zeroPage_add] at hlo
    rw [← hnext] at hhi
    rw [effectiveAddr, readZp16_of_load hlo hhi, joinAddr_eq_ofNat]
  case indY =>
    rw [← zeroPage_eq_ofNat] at hlo
    rw [← zeroPage_add_one] at hhi
    rw [effectiveAddr, readZp16_of_load hlo hhi, andThen_next, joinAddr_eq_ofNat, index16_eq_ofNat, ← BitVec.ofNat_add]

/-! ### The step that runs the decoded instruction -/

/-- A fetch reads the bytes that stand there. -/
theorem fetchBytes_of_holds {s : State} {a : Addr} {bytes : List Byte} (h : s.Holds a bytes) :
    fetchBytes s a bytes.length = .next bytes := by
  induction bytes generalizing a with
  | nil => rfl
  | cons b bytes ih =>
    obtain ⟨hw, hp, rfl, hrest⟩ := h
    rw [List.length_cons, fetchBytes, fetchByte_of_present hw hp, andThen_next, ih hrest, andThen_next]

/-- What a shape reads without a rest are all its operand bytes. -/
theorem length_of_apply {sh : Shape} {bytes : List Byte} {i : Instr} (h : sh.apply bytes = .ok (i, [])) :
    bytes.length + 1 = sh.length := by
  match sh, bytes, h with
  | .one _, _, rfl => rfl
  | .two _, _ :: _, rfl => rfl
  | .three _, _ :: _ :: _, rfl => rfl

/-- The bytes of an instruction the chip has are fetched as that instruction. -/
theorem fetch_of_holds {s : State} {i : Instr} (hi : i.wf s.cfg = true) (h : s.Holds s.pc (encode i)) :
    fetch s = .next (i, (encode i).length) := by
  have hdec := decodeOfEncode s.cfg i [] hi
  rw [List.append_nil] at hdec
  cases he : encode i with
  | nil =>
    rw [he] at hdec
    cases hdec
  | cons op rest =>
    rw [he] at hdec h
    obtain ⟨hw, hp, rfl, hrest⟩ := h
    cases hl : lookup s.cfg (s.peek s.pc) with
    | none =>
      simp only [decode, hl] at hdec
      cases hdec
    | some sh =>
      have hlen := length_of_apply ((decode_cons_of_lookup hl rest).symm.trans hdec)
      rw [fetch, fetchByte_of_present hw hp, andThen_next, hl]
      dsimp only
      rw [← hlen, Nat.add_sub_cancel, fetchBytes_of_holds hrest, andThen_next, hdec, List.length_cons]

/-- Settles O5: the bytes are fetched as the instruction, which no hazard rule forbids. -/
theorem stepRunsTheDecodedInstruction : Obligations.StepRunsTheDecodedInstruction := fun _ _ hs hi hb hz =>
  ⟨step_of_no_hazard hs (fetch_of_holds hi hb) hz, rfl, rfl, fun _ => rfl⟩

end Sys2Proof.Machine
end

section
/-! PROOFS. The stack and the transfers of control (spec/44_flag_stack_nop.md section 2, spec/45_control_transfer.md). -/

namespace Sys2Proof.Machine

/-! ### PHA, PHP, PLA, PLP -/

theorem getLsbD_toByte : ∀ (n v t d i z c b : Bool), ∀ j < 8, (PS.toByte ⟨n, v, t, d, i, z, c⟩ b).getLsbD j =
    [c, z, i, d, b, t, v, n].getD j false := by
  decide

theorem exec_pha_of_storable {s : State} (h : s.storable s.stackAddr s.a = true) : exec .pha s = .next (s.pushed s.a) :=
  push8_of_storable h

theorem exec_php_of_storable {s : State} (h : s.storable s.stackAddr (s.ps.toByte false) = true) :
    exec .php s = .next (s.pushed (s.ps.toByte false)) :=
  push8_of_storable h

theorem pull8_of_present {s : State} (h : s.present (joinAddr s.stackPage (s.s + 1)) = true) :
    pull8 s = .next (s.peek (joinAddr s.stackPage (s.s + 1)), s.setS (s.s + 1)) :=
  pull8_eq_next.mpr ⟨h, rfl⟩

theorem exec_pla_of_present {s : State} (h : s.present (joinAddr s.stackPage (s.s + 1)) = true) :
    exec .pla s = .next (((s.setS (s.s + 1)).setA (s.peek (joinAddr s.stackPage (s.s + 1)))).setPs
      (s.ps.withNZ (s.peek (joinAddr s.stackPage (s.s + 1))))) :=
  andThen_of_eq_next (pull8_of_present h) _

theorem exec_plp_of_present {s : State} (h : s.present (joinAddr s.stackPage (s.s + 1)) = true) :
    exec .plp s = .next ((s.setS (s.s + 1)).setPs (PS.ofByte (s.peek (joinAddr s.stackPage (s.s + 1))))) :=
  andThen_of_eq_next (pull8_of_present h) _

/-- A legal chip has its stack in page 0 or page 1 (R5, R24). -/
theorem State.stackPage_of_legal {s : State} (h : s.cfg.legal = true) : s.stackPage = 0x00 ∨ s.stackPage = 0x01 := by
  unfold State.stackPage
  cases hp : s.cfg.stackPage with
  | fixed page =>
    simp only [Config.legal, hp, Bool.and_eq_true, Bool.or_eq_true, beq_iff_eq] at h
    exact h.1.1.2
  | selectable zp bit r =>
    dsimp only
    split
    · exact .inr rfl
    · exact .inl rfl

/-- Settles O36. -/
theorem stackInstructionsPushAndPull : Obligations.StackInstructionsPushAndPull := by
  refine ⟨fun s f hbits => ⟨exec_pha_of_storable, fun hs => ?php⟩,
    fun s h => ⟨exec_pla_of_present h, exec_plp_of_present h⟩, fun s h => ?page⟩
  case php =>
    obtain rfl : f = s.ps.toByte false :=
      BitVec.eq_of_getLsbD_eq fun j hj => (hbits j hj).trans (getLsbD_toByte _ _ _ _ _ _ _ _ j hj).symm
    exact exec_php_of_storable hs
  case page =>
    have hlow := s.s.isLt
    rw [State.stackAddr, joinAddr_eq_ofNat, BitVec.toNat_ofNat]
    rcases State.stackPage_of_legal h with hp | hp <;> rw [hp] <;> simp <;> omega

/-! ### JMP, RTS, RTI and the pushes of JSR -/

/-- Settles O38. -/
theorem jmpLoadsPc : Obligations.JmpLoadsPc := by
  refine fun s a zz lo hi => ⟨rfl, fun ha hlo hhi => ?ind, fun ha => if_pos ha, fun hlo hhi => ?zpInd⟩
  case ind => exact (if_neg ha).trans (andThen_of_eq_next (read16_of_load hlo hhi) _)
  case zpInd => exact andThen_of_eq_next (readZp16_of_load hlo hhi) _

theorem exec_jsr_of_push {s s' : State} (target : JsrTarget) (h : pushAddr s (s.pc - 1) = .next s') :
    exec (.jsr target) s =
      match target with
      | .abs a => .next (s'.setPc a)
      | .sp ll => .next (s'.setPc (joinAddr s.cfg.specialPage ll))
      | .zpInd zz => andThen (readZp16 s' zz) fun a => .next (s'.setPc a) :=
  andThen_of_eq_next h _

/-- Settles O39. -/
theorem jsrPushesAndJumps : Obligations.JsrPushesAndJumps := by
  intro s a ll zz lo hi s1 s2 hhi hlo
  have hpush : pushAddr s (s.pc - 1) = .next s2 := pushAddr_eq_next.mpr ⟨hhi, hlo, rfl⟩
  refine ⟨exec_jsr_of_push _ hpush, exec_jsr_of_push _ hpush, fun hl hh => ?_⟩
  exact (exec_jsr_of_push _ hpush).trans (andThen_of_eq_next (readZp16_of_load hl hh) _)

theorem add_one_add_one (r : Byte) : r + 1 + 1 = r + 2 := by bv_omega
theorem add_one_add_one_add_one (r : Byte) : r + 1 + 1 + 1 = r + 3 := by bv_omega

/-- Settles O40. -/
theorem rtsRtiPull : Obligations.RtsRtiPull := by
  intro s h1 h2
  have e2 := add_one_add_one s.s
  refine ⟨?rts, fun h3 => ?rti⟩
  case rts =>
    have hpull := pullAddr_eq_next.mpr ⟨h1, by rwa [e2], rfl⟩
    rw [e2] at hpull
    exact andThen_of_eq_next hpull _
  case rti =>
    have e3 := add_one_add_one_add_one s.s
    refine returnFromException_eq_next.mpr ⟨_, _, pull8_of_present h1, pullAddr_eq_next.mpr ⟨?_, ?_, rfl⟩, ?_⟩
    · show s.present (joinAddr s.stackPage (s.s + 1 + 1)) = true
      rwa [e2]
    · show s.present (joinAddr s.stackPage (s.s + 1 + 1 + 1)) = true
      rwa [e3]
    · show _ = ((s.setS (s.s + 1 + 1 + 1)).setPs (PS.ofByte (s.peek (joinAddr s.stackPage (s.s + 1))))).setPc
        (joinAddr (s.peek (joinAddr s.stackPage (s.s + 1 + 1 + 1))) (s.peek (joinAddr s.stackPage (s.s + 1 + 1))))
      rw [e3, e2]
      rfl

/-! ### Branches -/

/-- The target of a branch is the signed sum modulo 0x10000 (R130, D1). -/
theorem State.relative_eq_ofInt (s : State) (rr : Byte) :
    s.relative rr = BitVec.ofInt 16 ((s.pc.toNat : Int) + rr.toInt) := by
  rw [BitVec.ofInt_add, BitVec.ofInt_natCast, BitVec.ofNat_toNat, BitVec.setWidth_eq]
  rfl

theorem branchIf_eq (s : State) (cond : Bool) (rr : Byte) : branchIf s cond rr =
    .next (if cond = true then s.setPc (BitVec.ofInt 16 ((s.pc.toNat : Int) + rr.toInt)) else s) := by
  rw [branchIf, State.relative_eq_ofInt]

theorem branchIf_not_eq (s : State) (cond : Bool) (rr : Byte) : branchIf s (!cond) rr =
    .next (if cond = false then s.setPc (BitVec.ofInt 16 ((s.pc.toNat : Int) + rr.toInt)) else s) := by
  rw [branchIf_eq]
  cases cond <;> rfl

theorem cycles_of_branch {s : State} {rr : Byte} {i : Instr} {taken : Bool}
    (h : (i, taken) ∈ [(.bpl rr, !s.ps.n), (.bmi rr, s.ps.n), (.bvc rr, !s.ps.v), (.bvs rr, s.ps.v), (.bcc rr, !s.ps.c),
      (.bcs rr, s.ps.c), (.bne rr, !s.ps.z), (.beq rr, s.ps.z)]) :
    cycles i + extraCycles s i = if taken then 4 else 2 := by
  have hcond : ∀ b : Bool, 2 + (if b then 2 else 0) = if b then 4 else 2 := by decide
  simp only [List.mem_cons, Prod.mk.injEq, List.not_mem_nil, or_false] at h
  rcases h with ⟨rfl, rfl⟩ | ⟨rfl, rfl⟩ | ⟨rfl, rfl⟩ | ⟨rfl, rfl⟩ | ⟨rfl, rfl⟩ | ⟨rfl, rfl⟩ | ⟨rfl, rfl⟩ | ⟨rfl, rfl⟩ <;>
    exact hcond _

/-- Settles O42: every branch is `branchIf` on its flag. -/
theorem branchesOnCondition : Obligations.BranchesOnCondition := by
  refine ⟨fun _ => ⟨rfl, rfl, rfl, rfl, rfl, rfl, rfl, rfl, rfl⟩, fun s rr => ?_⟩
  exact ⟨branchIf_eq s true rr, branchIf_not_eq s _ rr, branchIf_eq s _ rr, branchIf_not_eq s _ rr, branchIf_eq s _ rr,
    branchIf_not_eq s _ rr, branchIf_eq s _ rr, branchIf_not_eq s _ rr, branchIf_eq s _ rr, rfl,
    fun _ _ => cycles_of_branch⟩

/-- Settles O43: the two are `branchIf` on the bit of the byte they read. -/
theorem bitBranchesOnBit : Obligations.BitBranchesOnBit := by
  refine fun b rr zz s => ⟨branchIf_not_eq s _ rr, branchIf_eq s _ rr, fun v hv => ⟨?bbc, ?bbs⟩⟩
  case bbc => exact (andThen_of_eq_next (r := readPlace s (.mem (.zp zz))) hv _).trans (branchIf_not_eq s _ rr)
  case bbs => exact (andThen_of_eq_next (r := readPlace s (.mem (.zp zz))) hv _).trans (branchIf_eq s _ rr)

end Sys2Proof.Machine
end

section
/-! PROOFS. Frames on the stack: what a run of pushes leaves, and that the matching pulls bring it back
(spec/45_control_transfer.md section 5, spec/60_exceptions.md sections 3 and 4). -/

namespace Sys2Proof.Machine

/-! ### A run of pushes -/

/-- The state after the bytes are pushed, the first one first. -/
def State.pushedAll (s : State) (bytes : List Byte) : State := bytes.foldl State.pushed s

theorem State.pushedAll_cons (s : State) (b : Byte) (bytes : List Byte) :
    s.pushedAll (b :: bytes) = (s.pushed b).pushedAll bytes := rfl

@[simp] theorem State.pushedAll_cfg (s : State) (bytes : List Byte) : (s.pushedAll bytes).cfg = s.cfg := by
  induction bytes generalizing s with
  | nil => rfl
  | cons b bytes ih => rw [State.pushedAll_cons, ih, State.pushed_cfg]

theorem State.pushedAll_s (s : State) (bytes : List Byte) :
    (s.pushedAll bytes).s = s.s - BitVec.ofNat 8 bytes.length := by
  induction bytes generalizing s with
  | nil => simp [State.pushedAll]
  | cons b bytes ih =>
    rw [State.pushedAll_cons, ih, State.pushed_s, List.length_cons, BitVec.ofNat_add]
    bv_omega

theorem State.stackPage_pushedAll {s : State} {bytes : List Byte} (h : s.PageKept bytes.length) :
    (s.pushedAll bytes).stackPage = s.stackPage := by
  induction bytes generalizing s with
  | nil => rfl
  | cons b bytes ih => rw [State.pushedAll_cons, ih (State.pageKept_pushed b h), State.stackPage_pushed b h]

theorem State.wf_pushedAll {s : State} (bytes : List Byte) (hm : s.mem.wf = true) : (s.pushedAll bytes).mem.wf = true := by
  induction bytes generalizing s with
  | nil => exact hm
  | cons b bytes ih => exact ih (s.wf_pushed b hm)

theorem State.byteAt_pushedAll_ne {s : State} {bytes : List Byte} {a : Addr} (hp : s.PageKept bytes.length)
    (ha : ∀ m < bytes.length, a ≠ s.below m) : (s.pushedAll bytes).byteAt a = s.byteAt a := by
  induction bytes generalizing s with
  | nil => rfl
  | cons b bytes ih =>
    rw [State.pushedAll_cons, ih (State.pageKept_pushed b hp), State.byteAt_pushed_of_ne_below s b (ha 0 (by simp))]
    intro m hm
    rw [State.below_pushed b hp]
    exact ha (m + 1) (by simpa using hm)

/-- Where memory takes the pushes, the bytes stand below the stack pointer in their order. -/
theorem State.byteAt_pushedAll {s : State} {bytes : List Byte} (hm : s.mem.wf = true) (hf : s.StackFree bytes.length)
    (hp : s.PageKept bytes.length) (hlen : bytes.length ≤ 256) {m : Nat} (h : m < bytes.length) :
    (s.pushedAll bytes).byteAt (s.below m) = bytes[m] := by
  induction bytes generalizing s m with
  | nil => cases h
  | cons b bytes ih =>
    have hp' := State.pageKept_pushed b hp
    rw [State.pushedAll_cons]
    cases m with
    | zero =>
      rw [State.byteAt_pushedAll_ne hp', State.byteAt_pushed_same s b hm (hf 0 (by simp)).1, List.getElem_cons_zero]
      intro j hj
      rw [State.below_pushed b hp]
      rw [List.length_cons] at hlen
      exact s.below_ne (by omega) (by omega) (by omega)
    | succ m =>
      rw [← State.below_pushed b hp, List.getElem_cons_succ]
      exact ih (s.wf_pushed b hm) (State.stackFree_pushed b hp hf) hp' (by rw [List.length_cons] at hlen; omega)
        (by simpa using h)

/-! ### A frame that stands, and what is pulled from it -/

/-- In `t` the bytes stand as a frame pushed from the stack pointer of `s`, whose next pull is the last of them. -/
structure Framed (s t : State) (bytes : List Byte) : Prop where
  pointer : t.s = s.s - BitVec.ofNat 8 bytes.length
  page : t.stackPage = s.stackPage
  cfg : t.cfg = s.cfg
  bytes : ∀ (m : Nat) (h : m < bytes.length), t.byteAt (s.below m) = bytes[m]

theorem framed_pushedAll {s : State} {bytes : List Byte} (hm : s.mem.wf = true) (hf : s.StackFree bytes.length)
    (hp : s.PageKept bytes.length) (hlen : bytes.length ≤ 256) : Framed s (s.pushedAll bytes) bytes where
  pointer := s.pushedAll_s bytes
  page := State.stackPage_pushedAll hp
  cfg := s.pushedAll_cfg bytes
  bytes _ h := State.byteAt_pushedAll hm hf hp hlen h

/-- A frame does not depend on PC. -/
theorem Framed.setPc {s t : State} {bytes : List Byte} (h : Framed s t bytes) (a : Addr) :
    Framed s (t.setPc a) bytes where
  pointer := h.pointer
  page := h.page
  cfg := h.cfg
  bytes := h.bytes

/-- The stack address `m + 1` above the stack pointer of a frame is that of its byte `m` from the end. -/
theorem Framed.above {s t : State} {bytes : List Byte} (h : Framed s t bytes) {m : Nat} (hm : m < bytes.length) :
    joinAddr t.stackPage (t.s + BitVec.ofNat 8 (m + 1)) = s.below (bytes.length - 1 - m) := by
  obtain ⟨k, hk⟩ : ∃ k, bytes.length = k + (m + 1) := ⟨bytes.length - (m + 1), by omega⟩
  rw [h.page, h.pointer, State.below, hk, show k + (m + 1) - 1 - m = k by omega, BitVec.ofNat_add]
  congr 1
  bv_omega

/-- At any later state that still has the top of the stack, the pull `m + 1` above the stack pointer gives the byte `m`
from the end of the frame. -/
theorem Framed.pull {s t u : State} {bytes : List Byte} (h : Framed s t bytes) (hf : s.StackFree bytes.length)
    (hu : SameStackTop t u bytes.length) {m : Nat} (hm : m < bytes.length) :
    u.present (joinAddr u.stackPage (u.s + BitVec.ofNat 8 (m + 1))) = true ∧
    u.peek (joinAddr u.stackPage (u.s + BitVec.ofNat 8 (m + 1))) = bytes[bytes.length - 1 - m] := by
  have hlt : bytes.length - 1 - m < bytes.length := by omega
  have hpresent : t.present (joinAddr t.stackPage (t.s + BitVec.ofNat 8 (m + 1))) = true := by
    have hw := State.present_of_writable (hf _ hlt).1
    rw [h.above hm]
    unfold State.present at hw ⊢
    rwa [h.cfg]
  obtain ⟨hup, hpeek⟩ := hu.pull hm hpresent
  exact ⟨hup, by rw [hpeek, h.above hm, h.bytes _ hlt]⟩

/-- Pulling the whole frame brings the stack pointer back. -/
theorem Framed.s_restored {s t u : State} {bytes : List Byte} (h : Framed s t bytes)
    (hu : SameStackTop t u bytes.length) : u.s + BitVec.ofNat 8 bytes.length = s.s := by
  rw [hu.1, h.pointer]
  bv_omega

/-! ### PHP and PLP, JSR and RTS -/

/-- Settles O37. -/
theorem plpUndoesPhp : Obligations.PlpUndoesPhp := by
  intro s t u hm hf hp ht hu
  obtain ⟨-, rfl⟩ := push8_eq_next.mp ht
  have hframe := framed_pushedAll (bytes := [s.ps.toByte s.ps.b]) hm hf hp (by simp)
  obtain ⟨hpresent, hpeek⟩ := hframe.pull hf hu (m := 0) (by simp)
  refine (exec_plp_of_present hpresent).trans ?_
  have hs : u.s + 1 = s.s := hframe.s_restored hu
  rw [show u.peek (joinAddr u.stackPage (u.s + 1)) = s.ps.toByte s.ps.b from hpeek, hs, PS.ofByte_toByte]

/-- What JSR leaves but for PC does not depend on its format. -/
theorem exec_jsr_eq_next {s t : State} {target : JsrTarget} (h : exec (.jsr target) s = .next t) :
    ∃ a, t = (s.pushedAll [hiByte (s.pc - 1), loByte (s.pc - 1)]).setPc a := by
  obtain ⟨s', hpush, ht⟩ := andThen_eq_next.mp h
  obtain ⟨-, -, rfl⟩ := pushAddr_eq_next.mp hpush
  cases target with
  | abs | sp =>
    injection ht with ht
    exact ⟨_, ht.symm⟩
  | zpInd =>
    obtain ⟨a, -, ht⟩ := andThen_eq_next.mp ht
    injection ht with ht
    exact ⟨a, ht.symm⟩

/-- Settles O41. -/
theorem rtsResumesAfterJsr : Obligations.RtsResumesAfterJsr := by
  intro target s t u hm hf hp ht hu
  obtain ⟨a, rfl⟩ := exec_jsr_eq_next ht
  have hframe := (framed_pushedAll (bytes := [hiByte (s.pc - 1), loByte (s.pc - 1)]) hm hf hp (by simp)).setPc a
  obtain ⟨hp1, hb1⟩ := hframe.pull hf hu (m := 0) (by simp)
  obtain ⟨hp2, hb2⟩ := hframe.pull hf hu (m := 1) (by simp)
  refine (rtsRtiPull u hp1 hp2).1.trans ?_
  have hrs : u.s + 2 = s.s := hframe.s_restored hu
  have hb1' : u.peek (joinAddr u.stackPage (u.s + 1)) = loByte (s.pc - 1) := hb1
  have hb2' : u.peek (joinAddr u.stackPage (u.s + 2)) = hiByte (s.pc - 1) := hb2
  rw [hb1', hb2', hrs, joinAddr_bytes, sub_add_cancel]

end Sys2Proof.Machine
end

section
/-! PROOFS. The entry of an interrupt and of BRK, and the return from it (spec/60_exceptions.md sections 3 and 4,
spec/45_control_transfer.md section 4). -/

namespace Sys2Proof.Machine

/-! ### What memory holds does not depend on registers -/

@[simp] theorem State.byteAt_setPs (s : State) (p : PS) (a : Addr) : (s.setPs p).byteAt a = s.byteAt a := rfl
@[simp] theorem State.byteAt_setPc (s : State) (v a : Addr) : (s.setPc v).byteAt a = s.byteAt a := rfl
@[simp] theorem State.stackPage_setPs (s : State) (p : PS) : (s.setPs p).stackPage = s.stackPage := rfl

/-! ### The entered state -/

/-- The bytes an entry pushes (R329). -/
def State.entryFrame (s : State) (ret : Addr) (b : Bool) : List Byte := [hiByte ret, loByte ret, s.ps.toByte b]

theorem State.entered_eq (s : State) (ret : Addr) (b : Bool) (request : Option BitLoc) : s.entered ret b request =
    ((s.pushedAll (s.entryFrame ret b)).setPs { s.ps with i := true }).acknowledge request := rfl

section
variable (s : State) (ret : Addr) (b : Bool) (request : Option BitLoc)

@[simp] theorem State.entered_a : (s.entered ret b request).a = s.a := by simp [State.entered]
@[simp] theorem State.entered_x : (s.entered ret b request).x = s.x := by simp [State.entered]
@[simp] theorem State.entered_y : (s.entered ret b request).y = s.y := by simp [State.entered]
@[simp] theorem State.entered_ps : (s.entered ret b request).ps = { s.ps with i := true } := by simp [State.entered]
@[simp] theorem State.entered_clk : (s.entered ret b request).clk = s.clk := by simp [State.entered]
@[simp] theorem State.entered_xoutf : (s.entered ret b request).xoutf = s.xoutf := by simp [State.entered]
@[simp] theorem State.entered_inputs : (s.entered ret b request).inputs = s.inputs := by simp [State.entered]
@[simp] theorem State.entered_cfg : (s.entered ret b request).cfg = s.cfg := by simp [State.entered]
@[simp] theorem State.entered_last_changed : (s.entered ret b request).last.changed = s.last.changed := by
  simp [State.entered]

theorem State.entered_s : (s.entered ret b request).s = s.s - 3 := by
  rw [State.entered_eq, State.acknowledge_s, State.setPs_s, State.pushedAll_s]
  rfl

end

theorem State.byteAt_acknowledge_ne (s : State) {request : Option BitLoc} {a : Addr}
    (h : ∀ l, request = some l → a ≠ l.addr) : (s.acknowledge request).byteAt a = s.byteAt a := by
  cases request with
  | none => rfl
  | some l => exact s.byteAt_hardwareBit_ne false (h l rfl)

/-- The byte of the request bit that an entry acknowledges is none of those it pushes. -/
def State.OutsideFrame (s : State) (request : Option BitLoc) : Prop :=
  ∀ l, request = some l → ∀ m < 3, s.below m ≠ l.addr

theorem State.outsideFrame_none (s : State) : s.OutsideFrame none := nofun

/-- A request bit of the chip lies outside a frame that memory takes. -/
theorem State.StackFree.below_ne_request {s : State} (h : s.StackFree 3) {k : IrqSource} (hk : k ∈ s.cfg.irqSources)
    {m : Nat} (hm : m < 3) : s.below m ≠ k.request.addr :=
  fun e => (h m hm).2 k hk e.symm

theorem State.StackFree.outsideFrame {s : State} (h : s.StackFree 3) {k : IrqSource} (hk : k ∈ s.cfg.irqSources)
    (c : Bool) : s.OutsideFrame (if c then some k.request else none) := by
  intro l hl m hm
  cases c <;> cases hl
  exact h.below_ne_request hk hm

theorem ne_of_lt_three {s : State} {a : Addr} (h0 : a ≠ s.below 0) (h1 : a ≠ s.below 1) (h2 : a ≠ s.below 2) :
    ∀ m < 3, a ≠ s.below m
  | 0, _ => h0
  | 1, _ => h1
  | 2, _ => h2

/-- The bytes of an entry stand below the stack pointer. -/
theorem State.byteAt_entered {s : State} {ret : Addr} {b : Bool} {request : Option BitLoc} (hm : s.mem.wf = true)
    (hf : s.StackFree 3) (hp : s.PageKept 3) (hr : s.OutsideFrame request) (m : Nat)
    (h : m < (s.entryFrame ret b).length) : (s.entered ret b request).byteAt (s.below m) = (s.entryFrame ret b)[m] := by
  rw [State.entered_eq, State.byteAt_acknowledge_ne _ fun l hl => hr l hl m h, State.byteAt_setPs]
  exact State.byteAt_pushedAll (bytes := s.entryFrame ret b) hm hf hp (by simp [State.entryFrame]) h

/-- Outside the frame and the request byte an entry leaves memory as it was. -/
theorem State.byteAt_entered_ne {s : State} {ret : Addr} {b : Bool} {request : Option BitLoc} (hp : s.PageKept 3)
    {a : Addr} (ha : ∀ m < 3, a ≠ s.below m) (hr : ∀ l, request = some l → a ≠ l.addr) :
    (s.entered ret b request).byteAt a = s.byteAt a := by
  rw [State.entered_eq, State.byteAt_acknowledge_ne _ hr, State.byteAt_setPs]
  exact State.byteAt_pushedAll_ne (bytes := s.entryFrame ret b) hp ha

/-- Where memory takes the frame and the vector can be read, the entry goes through. -/
theorem takeException_of_stackFree {s : State} {vector : Addr} (ret : Addr) (b : Bool) (request : Option BitLoc)
    (hf : s.StackFree 3) (hp : s.PageKept 3) (hch : s.last.changed = []) (hv : s.present vector = true)
    (hv' : s.present (vector + 1) = true) : takeException s ret b request vector = .next ((s.entered ret b request).setPc
      (joinAddr ((s.entered ret b request).byteAt (vector + 1)) ((s.entered ret b request).byteAt vector))) := by
  have hf1 := State.stackFree_pushed (hiByte ret) hp hf
  have hp1 := State.pageKept_pushed (hiByte ret) hp
  have hf2 := State.stackFree_pushed (loByte ret) hp1 hf1
  have hpresent : ∀ a, (s.entered ret b request).present a = s.present a := fun a => by
    rw [State.present, State.entered_cfg, State.present]
  have hpeek := State.peek_of_unchanged ((s.entered_last_changed ret b request).trans hch)
  have hread := read16_eq_next.mpr ⟨(hpresent _).trans hv, (hpresent _).trans hv', rfl⟩
  rw [hpeek, hpeek] at hread
  exact takeException_eq_next.mpr ⟨_, _, _,
    pushAddr_eq_next.mpr ⟨State.storable_of_stackFree _ hf, State.storable_of_stackFree _ hf1, rfl⟩,
    push8_of_stackFree _ hf2, hread, rfl⟩

/-! ### BRK -/

theorem toByte_true (p : PS) : p.toByte true = p.toByte false ||| 0x10 := by
  have h : ∀ n v t d i z c : Bool, PS.toByte ⟨n, v, t, d, i, z, c⟩ true = PS.toByte ⟨n, v, t, d, i, z, c⟩ false ||| 0x10 := by
    decide
  exact h ..

theorem State.requestPending_eq_false {s : State}
    (h : ∀ k ∈ s.cfg.irqSources, s.bitAt k.request = false ∨ s.bitAt k.enable = false) : s.requestPending = false := by
  refine List.any_eq_false.mpr fun k hk => ?_
  rcases h k hk with h | h <;> simp [h]

theorem exec_brk_of_allowed {s : State}
    (h : s.cfg.series38000 = true ∨ s.ps.i = false ∨
      ∀ k ∈ s.cfg.irqSources, s.bitAt k.request = false ∨ s.bitAt k.enable = false) :
    exec .brk s = takeException s (s.pc + brkExtra s.cfg.brkOffset) true none s.cfg.vecBrk := by
  refine if_neg ?_
  rcases h with h | h | h
  · simp [h]
  · simp [h]
  · simp [State.requestPending_eq_false h]

theorem exec_brk_of_pending {s : State} {k : IrqSource} (hs : s.cfg.series38000 = false) (hi : s.ps.i = true)
    (hk : k ∈ s.cfg.irqSources) (hr : s.bitAt k.request = true) (he : s.bitAt k.enable = true) :
    exec .brk s = .refused .brkWithPendingRequest := by
  have hpending : s.requestPending = true := List.any_eq_true.mpr ⟨k, hk, by rw [hr, he]; rfl⟩
  exact if_pos (by rw [hs, hi, hpending]; rfl)

/-- Settles O44: outside the situation of the BRK bug BRK is an entry that acknowledges nothing. -/
theorem brkTakesTheSoftwareInterrupt : Obligations.BrkTakesTheSoftwareInterrupt := by
  refine ⟨fun s hm hf hp hch hv hv' hallowed => ?_, fun s k => exec_brk_of_pending⟩
  have hbytes := State.byteAt_entered (ret := s.pc + brkExtra s.cfg.brkOffset) (b := true) hm hf hp s.outsideFrame_none
  have hrest : ∀ a, a ≠ s.below 0 → a ≠ s.below 1 → a ≠ s.below 2 →
      (s.entered (s.pc + brkExtra s.cfg.brkOffset) true none).byteAt a = s.byteAt a :=
    fun a h0 h1 h2 => State.byteAt_entered_ne hp (ne_of_lt_three h0 h1 h2) nofun
  rw [exec_brk_of_allowed hallowed, takeException_of_stackFree _ true none hf hp hch hv hv']
  refine ⟨_, rfl, ?_⟩
  simp only [State.byteAt_setPc, State.setPc_s, State.setPc_ps, State.setPc_a, State.setPc_x, State.setPc_y,
    State.setPc_clk, State.setPc_xoutf, State.setPc_pc]
  refine ⟨?frame, s.entered_s .., s.entered_ps .., s.entered_a .., s.entered_x .., s.entered_y .., s.entered_clk ..,
    s.entered_xoutf .., trivial, hrest⟩
  case frame =>
    have h0 := hbytes 0 (by simp [State.entryFrame])
    have h1 := hbytes 1 (by simp [State.entryFrame])
    have h2 := (hbytes 2 (by simp [State.entryFrame])).trans (toByte_true s.ps)
    generalize s.cfg.brkOffset = offset at h0 h1 h2 ⊢
    cases offset with
    | one => exact ⟨h0.trans (congrArg hiByte (add_zero s.pc)), h1.trans (congrArg loByte (add_zero s.pc)), h2⟩
    | two => exact ⟨h0, h1, h2⟩

/-! ### The entry of an interrupt -/

theorem enterInterrupt_of_stackFree {s : State} {k : IrqSource} (hf : s.StackFree 3) (hp : s.PageKept 3)
    (hch : s.last.changed = []) (hv : s.present k.vector = true) (hv' : s.present (k.vector + 1) = true) :
    enterInterrupt s k = .next ((s.entered s.pc false (acknowledged k)).finishEntry
      (joinAddr ((s.entered s.pc false (acknowledged k)).byteAt (k.vector + 1))
        ((s.entered s.pc false (acknowledged k)).byteAt k.vector)) (s.draws + 1)) :=
  enterInterrupt_eq_next.mpr ⟨_, takeException_of_stackFree s.pc false (acknowledged k) hf hp hch hv hv', rfl⟩

/-- The entry of source k changes no byte but those it pushes and the one of the request bit. -/
theorem State.byteAt_entered_acknowledged_ne {s : State} {ret : Addr} {b : Bool} {k : IrqSource} (hp : s.PageKept 3)
    {a : Addr} (ha : ∀ m < 3, a ≠ s.below m) (hr : a ≠ k.request.addr) :
    (s.entered ret b (acknowledged k)).byteAt a = s.byteAt a := by
  refine State.byteAt_entered_ne hp ha fun l hl => ?_
  unfold acknowledged at hl
  split at hl <;> cases hl
  exact hr

/-- The bits of the request byte after an entry: the acknowledged one is 0, every other is as it was. -/
theorem State.bitAt_entered {s : State} {ret : Addr} {b : Bool} {k : IrqSource} (hm : s.mem.wf = true)
    (hf : s.StackFree 3) (hp : s.PageKept 3) (hk : k ∈ s.cfg.irqSources) :
    (k.autoClear = true → s.writable k.request.addr = true →
      (s.entered ret b (acknowledged k)).bitAt k.request = false) ∧
    (k.autoClear = false → (s.entered ret b (acknowledged k)).bitAt k.request = s.bitAt k.request) ∧
    ∀ j : BitNo, j ≠ k.request.bit →
      (s.entered ret b (acknowledged k)).bitAt ⟨k.request.addr, j⟩ = s.bitAt ⟨k.request.addr, j⟩ := by
  have hwf := State.wf_pushedAll (s.entryFrame ret b) hm
  have hbit : ∀ j : BitNo, ((s.pushedAll (s.entryFrame ret b)).setPs { s.ps with i := true }).bitAt ⟨k.request.addr, j⟩ =
      s.bitAt ⟨k.request.addr, j⟩ := fun j =>
    congrArg (testBit j) ((State.byteAt_setPs ..).trans
      (State.byteAt_pushedAll_ne hp fun m h e => hf.below_ne_request hk h e.symm))
  rw [State.entered_eq, acknowledged]
  cases hc : k.autoClear with
  | false => exact ⟨nofun, fun _ => hbit k.request.bit, fun j _ => hbit j⟩
  | true =>
    have hwf' : ((s.pushedAll (s.entryFrame ret b)).setPs { s.ps with i := true }).mem.wf = true := by
      rwa [State.setPs_mem]
    refine ⟨fun _ hw => State.bitAt_hardwareBit_same _ _ _ hwf' ?_, nofun, fun j hj => ?_⟩
    · rw [State.writable_iff] at hw ⊢
      rwa [State.setPs_cfg, State.pushedAll_cfg]
    · exact (State.bitAt_hardwareBit_ne _ false hwf' fun e => hj (congrArg BitLoc.bit e)).trans (hbit j)

theorem step_of_interruptTaken {s : State} {k : IrqSource} (hc : s.CpuTurn) (hk : s.interruptTaken = some k) :
    step s = enterInterrupt s.turn k := by
  have hk' : s.turn.interruptTaken = some k := hk
  rw [step_of_cpuTurn hc, cpuStep, hk']

/-- What the entry of source k leaves and what it keeps (R329 to R331). -/
theorem enterInterrupt_frame {s : State} {k : IrqSource} (hm : s.mem.wf = true) (hf : s.StackFree 3)
    (hp : s.PageKept 3) (hch : s.last.changed = []) (hk : k ∈ s.cfg.irqSources) (hv : s.present k.vector = true)
    (hv' : s.present (k.vector + 1) = true) : ∃ t, enterInterrupt s k = .next t ∧
      t.byteAt (s.below 0) = hiByte s.pc ∧ t.byteAt (s.below 1) = loByte s.pc ∧
      t.byteAt (s.below 2) = s.ps.toByte false ∧
      t.s = s.s - 3 ∧ t.ps = { s.ps with i := true } ∧ t.a = s.a ∧ t.x = s.x ∧ t.y = s.y ∧ t.clk = .run ∧
      t.xoutf = s.xoutf ∧ t.cfg = s.cfg ∧ t.inputs = s.inputs ∧
      t.last = Last.none ∧ t.pc = joinAddr (t.byteAt (k.vector + 1)) (t.byteAt k.vector) ∧
      (k.autoClear = true → s.writable k.request.addr = true → t.bitAt k.request = false) ∧
      (k.autoClear = false → t.bitAt k.request = s.bitAt k.request) ∧
      (∀ j : BitNo, j ≠ k.request.bit → t.bitAt ⟨k.request.addr, j⟩ = s.bitAt ⟨k.request.addr, j⟩) ∧
      ∀ a, a ≠ s.below 0 → a ≠ s.below 1 → a ≠ s.below 2 → a ≠ k.request.addr → t.byteAt a = s.byteAt a := by
  have hbytes := State.byteAt_entered (ret := s.pc) (b := false) hm hf hp (hf.outsideFrame hk k.autoClear)
  obtain ⟨hclear, hkeep, hother⟩ := State.bitAt_entered (ret := s.pc) (b := false) hm hf hp hk
  have hrest : ∀ a, a ≠ s.below 0 → a ≠ s.below 1 → a ≠ s.below 2 → a ≠ k.request.addr →
      (s.entered s.pc false (acknowledged k)).byteAt a = s.byteAt a :=
    fun a h0 h1 h2 => State.byteAt_entered_acknowledged_ne hp (ne_of_lt_three h0 h1 h2)
  rw [enterInterrupt_of_stackFree hf hp hch hv hv']
  refine ⟨_, rfl, ?_⟩
  simp only [State.finishEntry_byteAt, State.finishEntry_bitAt, State.finishEntry_s, State.finishEntry_ps,
    State.finishEntry_a, State.finishEntry_x, State.finishEntry_y, State.finishEntry_clk, State.finishEntry_xoutf,
    State.finishEntry_cfg, State.finishEntry_inputs, State.finishEntry_last, State.finishEntry_pc, true_and]
  exact ⟨hbytes 0 (by simp [State.entryFrame]), hbytes 1 (by simp [State.entryFrame]),
    hbytes 2 (by simp [State.entryFrame]), s.entered_s .., s.entered_ps .., s.entered_a .., s.entered_x ..,
    s.entered_y .., s.entered_xoutf .., s.entered_cfg .., s.entered_inputs .., hclear, hkeep, hother, hrest⟩

/-- Settles O49: the step is the entry in the state whose turn is taken off the inputs. -/
theorem interruptEntryFrame : Obligations.InterruptEntryFrame := by
  intro s k hc htaken hm hf hp hch hk hv hv'
  obtain ⟨t, ht, hframe⟩ := enterInterrupt_frame (s := s.turn) hm hf hp hch hk hv hv'
  exact ⟨t, (step_of_interruptTaken hc htaken).trans ht, hframe⟩

/-! ### The return -/

theorem State.stackPage_hardwareBit {s : State} {l : BitLoc} (x : Bool) (hm : s.mem.wf = true)
    (h : ∀ zp bit r, s.cfg.stackPage = .selectable zp bit r → l ≠ ⟨zeroPage zp, bit⟩) :
    (s.hardwareBit l x).stackPage = s.stackPage := by
  unfold State.stackPage
  rw [State.hardwareBit_cfg]
  cases hpage : s.cfg.stackPage with
  | fixed p => rfl
  | selectable zp bit r =>
    dsimp only
    rw [State.bitAt_hardwareBit_ne s x hm (h zp bit r hpage).symm]

/-- After the entry of a source whose request bit is not the Stack Page Selection Bit the frame stands. -/
theorem framed_entered {s : State} {ret : Addr} {b : Bool} {k : IrqSource} (hm : s.mem.wf = true) (hf : s.StackFree 3)
    (hp : s.PageKept 3) (hk : k ∈ s.cfg.irqSources)
    (hsps : ∀ zp bit r, s.cfg.stackPage = .selectable zp bit r → k.request ≠ ⟨zeroPage zp, bit⟩) :
    Framed s (s.entered ret b (acknowledged k)) (s.entryFrame ret b) where
  pointer := s.entered_s ..
  page := by
    have hpushed : ((s.pushedAll (s.entryFrame ret b)).setPs { s.ps with i := true }).stackPage = s.stackPage :=
      (State.stackPage_setPs ..).trans (State.stackPage_pushedAll hp)
    rw [State.entered_eq, acknowledged]
    cases k.autoClear with
    | false => exact hpushed
    | true =>
      refine (State.stackPage_hardwareBit false ?_ (by rwa [State.setPs_cfg, State.pushedAll_cfg])).trans hpushed
      rw [State.setPs_mem]
      exact State.wf_pushedAll (s.entryFrame ret b) hm
  cfg := s.entered_cfg ..
  bytes := State.byteAt_entered hm hf hp (hf.outsideFrame hk k.autoClear)

theorem Framed.finishEntry {s t : State} {bytes : List Byte} (h : Framed s t bytes) (target : Addr) (n : Nat) :
    Framed s (t.finishEntry target n) bytes where
  pointer := h.pointer
  page := h.page
  cfg := h.cfg
  bytes := h.bytes

/-- Settles O50: the frame of the entry stands, and RTI pulls it. -/
theorem rtiResumesTheInterruptedProgram : Obligations.RtiResumesTheInterruptedProgram := by
  intro s t u k hm hf hp hk hsps ht hu
  obtain ⟨target, -, rfl⟩ := enterInterrupt_eq_entered ht
  have hstands := framed_entered (ret := s.pc) (b := false) hm hf hp hk hsps
  have hframe := hstands.finishEntry target (s.draws + 1)
  obtain ⟨hp1, hb1⟩ := hframe.pull hf hu (m := 0) (by simp [State.entryFrame])
  obtain ⟨hp2, hb2⟩ := hframe.pull hf hu (m := 1) (by simp [State.entryFrame])
  obtain ⟨hp3, hb3⟩ := hframe.pull hf hu (m := 2) (by simp [State.entryFrame])
  refine ((rtsRtiPull u hp1 hp2).2 hp3).trans ?_
  have hrs : u.s + 3 = s.s := hframe.s_restored hu
  have hb1' : u.peek (joinAddr u.stackPage (u.s + 1)) = s.ps.toByte false := hb1
  have hb2' : u.peek (joinAddr u.stackPage (u.s + 2)) = loByte s.pc := hb2
  have hb3' : u.peek (joinAddr u.stackPage (u.s + 3)) = hiByte s.pc := hb3
  have hps := PS.ofByte_toByte s.ps false
  rw [hb1', hb2', hb3', hrs, joinAddr_bytes]
  unfold PS.ofByte at hps
  rw [hps]

end Sys2Proof.Machine
end

section
/-! PROOFS. Which interrupt a boundary takes, that none waits for ever, and what the environment does
(spec/60_exceptions.md section 2, spec/20_memory.md section 4). -/

namespace Sys2Proof.Machine

/-! ### The interrupt taken -/

theorem State.forcedSource_of_nil {s : State} (h : s.last.forced = []) : s.forcedSource = none := by
  rw [State.forcedSource, h]
  cases s.ps.i <;> rfl

/-- The candidate is an acceptable source of the chip, and none acceptable has a smaller rank (R328). -/
theorem State.candidate_spec {s : State} {k : IrqSource} (h : s.candidate = some k) :
    k ∈ s.cfg.irqSources ∧ s.acceptable k = true ∧
      ∀ j ∈ s.cfg.irqSources, s.acceptable j = true → k.rank ≤ j.rank := by
  obtain ⟨hk, hrank⟩ := highestPriority_spec h
  obtain ⟨hmem, hacc⟩ := List.mem_filter.mp hk
  exact ⟨hmem, hacc, fun j hj ha => hrank j (List.mem_filter.mpr ⟨hj, ha⟩)⟩

theorem State.candidate_eq_none_iff {s : State} :
    s.candidate = none ↔ ∀ k ∈ s.cfg.irqSources, s.acceptable k = false := by
  rw [State.candidate, highestPriority_eq_none, List.filter_eq_nil_iff]
  simp

/-- With no source forced, the interrupt taken is the candidate, and it must be taken when the clock is stopped or some
acceptable source is overdue. -/
theorem State.interruptTaken_of_candidate {s : State} {k : IrqSource} (hf : s.forcedSource = none)
    (hc : s.candidate = some k) : s.interruptTaken =
      if s.clk ≠ .run ∨ ∃ j ∈ s.cfg.irqSources, s.acceptable j = true ∧ s.overdue j = true then some k else none := by
  rw [State.interruptTaken, hf, hc]
  simp

theorem State.interruptTaken_of_no_candidate {s : State} (hf : s.forcedSource = none) (hc : s.candidate = none) :
    s.interruptTaken = none := by
  rw [State.interruptTaken, hf, hc]

theorem State.candidate_of_interruptTaken {s : State} {k : IrqSource} (hf : s.forcedSource = none)
    (h : s.interruptTaken = some k) : s.candidate = some k := by
  cases hc : s.candidate with
  | none =>
    rw [State.interruptTaken_of_no_candidate hf hc] at h
    cases h
  | some j =>
    rw [State.interruptTaken_of_candidate hf hc] at h
    split at h
    · exact h
    · cases h

/-- Settles O46: with no latency open, acceptable means requested, enabled and unmasked. -/
theorem interruptTakenIsAcceptableAndHighest : Obligations.InterruptTakenIsAcceptableAndHighest := by
  intro s hkind hch hforced
  have hnone := State.forcedSource_of_nil hforced
  have hacc := State.acceptable_of_none hkind hch
  refine ⟨fun k hk => ?taken, fun hi => ?masked, fun h => ?notRequested⟩
  case taken =>
    obtain ⟨hmem, hak, hrank⟩ := State.candidate_spec (State.candidate_of_interruptTaken hnone hk)
    rw [hacc, Bool.and_eq_true, Bool.and_eq_true, Bool.not_eq_true'] at hak
    obtain ⟨⟨hreq, hen⟩, hi⟩ := hak
    exact ⟨hmem, hreq, hen, hi, fun j hj hr he => hrank j hj (by rw [hacc, hr, he, hi]; rfl)⟩
  case masked =>
    refine State.interruptTaken_of_no_candidate hnone (State.candidate_eq_none_iff.mpr fun k _ => ?_)
    rw [hacc, hi, Bool.not_true, Bool.and_false]
  case notRequested =>
    refine State.interruptTaken_of_no_candidate hnone (State.candidate_eq_none_iff.mpr fun k hk => ?_)
    rcases h k hk with h | h <;> simp [hacc, h]

/-! ### What a boundary allows -/

theorem step_of_stopped {s : State} (hc : s.CpuTurn) (hr : s.clk ≠ .run) (ht : s.interruptTaken = none) :
    step s = if s.inputs.tail.isEmpty then .fault .clockStopped else .next s.turn := by
  have ht' : s.turn.interruptTaken = none := ht
  rw [step_of_cpuTurn hc, cpuStep, ht']
  cases hclk : s.clk with
  | run => exact absurd hclk hr
  | wait | stop =>
    have hclk' : s.turn.clk = _ := hclk
    simp only [hclk']
    rfl

/-- Settles O47. -/
theorem interruptBoundary : Obligations.InterruptBoundary := by
  refine ⟨fun s k hc hf hk => ⟨fun hr => ?running, fun hr => ?stopped⟩, fun s hc hr hf hk => ?waiting⟩
  case running =>
    have htaken := State.interruptTaken_of_candidate hf hk
    split at htaken
    case isTrue => exact .inl (step_of_interruptTaken hc htaken)
    case isFalse => exact .inr (step_of_ready ⟨hc, hr, htaken⟩)
  case stopped => exact step_of_interruptTaken hc ((State.interruptTaken_of_candidate hf hk).trans (if_pos (.inl hr)))
  case waiting =>
    rw [step_of_stopped hc hr (State.interruptTaken_of_no_candidate hf hk)]
    exact ⟨fun h => if_pos (List.isEmpty_iff.mpr h), fun h => if_neg (fun e => h (List.isEmpty_iff.mp e))⟩

/-! ### Fairness -/

/-- How many steps source k can still wait, while it stays acceptable: one for each input left, and the boundaries at which
it may still be passed over. -/
def State.waitBound (s : State) (k : IrqSource) : Nat :=
  s.inputs.length + (s.acceptableSince k + Config.freePatience (s.acceptableSince k) k - s.draws)

/-- It is the CPU's turn and an interrupt is taken. -/
def State.Enters (s : State) : Prop := s.CpuTurn ∧ ∃ j, s.interruptTaken = some j ∧ step s = enterInterrupt s.turn j

theorem State.enters_of_taken {s : State} {j : IrqSource} (hc : s.CpuTurn) (hj : s.interruptTaken = some j) : s.Enters :=
  ⟨hc, j, hj, step_of_interruptTaken hc hj⟩

/-- Where no interrupt is taken an acceptable source finds the clock running and is not overdue. -/
theorem State.not_overdue_of_not_taken {s : State} {k : IrqSource} (hk : k ∈ s.cfg.irqSources)
    (ha : s.acceptable k = true) (ht : s.interruptTaken = none) : s.clk = .run ∧ s.overdue k = false := by
  have hf : s.forcedSource = none := by
    cases h : s.forcedSource with
    | none => rfl
    | some j =>
      rw [State.interruptTaken, h] at ht
      cases ht
  cases hc : s.candidate with
  | none => exact absurd ha (by rw [State.candidate_eq_none_iff.mp hc k hk]; decide)
  | some j =>
    rw [State.interruptTaken_of_candidate hf hc] at ht
    split at ht
    case isTrue => cases ht
    case isFalse h =>
      rw [not_or, not_not] at h
      exact ⟨h.1, by_contra fun ho => h.2 ⟨k, hk, ha, by simpa using ho⟩⟩

theorem State.acceptable_of_reset {s t : State} (h : resetEvent s = .next t) (k : IrqSource) :
    t.acceptable k = false := by
  obtain ⟨pc, -, rfl⟩ := resetEvent_eq_next.mp h
  simp [State.acceptable, State.maskSeen, Last.none, PS.resetWith]

/-- The environment's turn takes an input and leaves an acceptable source waiting as it was, unless it resets. -/
theorem waitBound_of_environment {s t : State} {k : IrqSource} {e : EnvEvent} (hi : s.inputs.head? = some e)
    (h : environmentActs s.turn e = .next t) (hk : t.acceptable k = true) : t.waitBound k < s.waitBound k := by
  have hlen : s.inputs.tail.length < s.inputs.length := by
    obtain ⟨rest, hrest⟩ := List.head?_eq_some_iff.mp hi
    simp [hrest]
  have hsame : t.inputs = s.inputs.tail ∧ t.draws = s.draws ∧ t.waiting = s.waiting := by
    cases environmentActs_kind h with
    | idle h => exact h ▸ ⟨rfl, rfl, rfl⟩
    | request j h =>
      exact h ▸ ⟨State.hardwareBit_inputs .., State.hardwareBit_draws .., State.hardwareBit_waiting ..⟩
    | device a v _ h => exact h ▸ ⟨rfl, rfl, rfl⟩
    | reset h =>
      rw [State.acceptable_of_reset h] at hk
      cases hk
  obtain ⟨hinputs, hdraws, hwaiting⟩ := hsame
  have hsince : t.acceptableSince k = s.acceptableSince k := by
    rw [State.acceptableSince, State.acceptableSince, hwaiting, hdraws]
  unfold State.waitBound
  rw [hsince, hinputs, hdraws]
  omega

/-- An instruction passes an acceptable source over: it draws, and the source keeps the draw since which it waits. -/
theorem waitBound_of_instruction {s t : State} {k : IrqSource} (hk : k ∈ s.cfg.irqSources) (ha : s.acceptable k = true)
    (ho : s.overdue k = false) (h : instructionStep s.turn = .next t) : t.waitBound k < s.waitBound k := by
  obtain ⟨i, n, u, -, -, hu, rfl⟩ := instructionStep_eq_next.mp h
  have hinputs : (settle s.turn i u).inputs = s.inputs.tail := (exec_frame hu).inputs
  have hsince : (settle s.turn i u).acceptableSince k = s.acceptableSince k := by
    have hlookup : (settle s.turn i u).waiting.lookup k = some (s.turn.acceptableSince k) :=
      State.lookup_passedOver (s := s.turn) hk ha
    rw [State.acceptableSince, hlookup]
    rfl
  have hdraws : (settle s.turn i u).draws = s.draws + 1 := rfl
  have hlen : s.inputs.tail.length ≤ s.inputs.length := by simp
  rw [State.overdue, decide_eq_false_iff_not] at ho
  unfold State.waitBound
  rw [hsince, hinputs, hdraws]
  omega

/-- While a source stays acceptable and no interrupt is taken, the steps it can still wait get fewer. -/
theorem waitBound_of_step {s t : State} {k : IrqSource} (hk : k ∈ s.cfg.irqSources) (ha : s.acceptable k = true)
    (hn : ¬ s.Enters) (h : step s = .next t) (ha' : t.acceptable k = true) : t.waitBound k < s.waitBound k := by
  cases step_kind h with
  | entry hc j hj _ => exact absurd (State.enters_of_taken hc hj) hn
  | instruction hs h => exact waitBound_of_instruction hk ha (State.not_overdue_of_not_taken hk ha hs.2.2).2 h
  | wait hr ht _ => exact absurd (State.not_overdue_of_not_taken hk ha ht).1 hr
  | environment e hi h => exact waitBound_of_environment hi h ha'

/-- A run longer than a source can still wait reaches a state in which it is not acceptable or an interrupt is taken. -/
theorem exists_enters_of_waitBound_lt {k : IrqSource} {N : Nat} {s t : State} (hk : k ∈ s.cfg.irqSources)
    (hN : s.waitBound k < N) (hrun : core.run N s = .next t) :
    ∃ (n : Nat) (u : State), n ≤ N ∧ core.run n s = .next u ∧ (u.acceptable k = false ∨ u.Enters) := by
  induction N generalizing s with
  | zero => cases hN
  | succ N ih =>
    cases ha : s.acceptable k with
    | false => exact ⟨0, s, Nat.zero_le _, rfl, .inl ha⟩
    | true =>
      by_cases hn : s.Enters
      · exact ⟨0, s, Nat.zero_le _, rfl, .inr hn⟩
      obtain ⟨u, hu, hrun'⟩ := run_succ_eq_next.mp hrun
      cases ha' : u.acceptable k with
      | false => exact ⟨1, u, by omega, run_succ_eq_next.mpr ⟨u, hu, rfl⟩, .inl ha'⟩
      | true =>
        have hlt := waitBound_of_step hk ha hn hu ha'
        have hk' : k ∈ u.cfg.irqSources := (step_nextOf hu).1.cfg ▸ hk
        obtain ⟨n, v, hle, hv, hend⟩ := ih hk' (by omega) hrun'
        exact ⟨n + 1, v, by omega, run_succ_eq_next.mpr ⟨u, hu, hv⟩, hend⟩

/-- Settles O48, with one step more than the source can still wait. -/
theorem acceptableSourceIsNotPassedOverForEver : Obligations.AcceptableSourceIsNotPassedOverForEver :=
  fun s k hk => ⟨s.waitBound k + 1, fun _ => exists_enters_of_waitBound_lt hk (Nat.lt_succ_self _)⟩

/-! ### The environment -/

/-- Settles O51: the one byte the environment writes, and its bits. -/
theorem environmentActsBetweenInstructions : Obligations.EnvironmentActsBetweenInstructions := by
  refine ⟨fun s n k rest hi hk hm hw => ?request, fun s a v rest hi hkind hm => ?device⟩
  case request =>
    have hstep : step s = .next ((s.setInputs rest).hardwareBit k.request true) := by
      have hk' : (s.setInputs rest).cfg.irqSources[n]? = some k := hk
      rw [step, hi]
      simp only [environmentActs, hk']
    refine ⟨_, hstep.trans (congrArg _ (if_pos hw)), ?_⟩
    rw [Memory.read_write_same (m := (s.setInputs rest).mem) hm]
    refine ⟨?_, fun j hj => ?_, fun a ha => Memory.read_write_ne fun e => ha (BitVec.eq_of_toNat_eq e.symm)⟩
    · rw [testBit_putBit, if_pos rfl]
    · rw [testBit_putBit, if_neg hj]
      rfl
  case device =>
    have hstep : step s = .next ((s.setInputs rest).setMem ((s.setInputs rest).mem.write a.toNat v)) := by
      rw [step, hi]
      exact if_pos hkind
    exact ⟨_, hstep, Memory.read_write_same hm,
      fun b hb => Memory.read_write_ne fun e => hb (BitVec.eq_of_toNat_eq e.symm)⟩

end Sys2Proof.Machine
end

section
/-! PROOFS. What an instruction leaves for the next one: the bytes it stored to and the request bits it changed
(spec/20_memory.md section 4, spec/70_reset_and_hazards.md section 3). -/

namespace Sys2Proof.Machine

/-- A step at a boundary where the next step is an instruction is `exec` of what is fetched, and `settle`. -/
theorem exec_of_step {s t : State} {i : Instr} {n : Nat} (hs : s.Ready) (hf : fetch s = .next (i, n))
    (h : step s = .next t) : ∃ u, exec i (s.turn.fetched n) = .next u ∧ t = settle s.turn i u := by
  rw [step_of_ready hs] at h
  obtain ⟨j, m, u, hj, -, hu, rfl⟩ := instructionStep_eq_next.mp h
  rw [fetch_turn, hf] at hj
  cases hj
  exact ⟨u, hu, rfl⟩

/-! ### The record of stores -/

/-- Every byte in which `t` differs from `s` is recorded as stored to. -/
def RecordsChanges (s t : State) : Prop := ∀ a, t.byteAt a ≠ s.byteAt a → a ∈ t.last.written

theorem RecordsChanges.refl (s : State) : RecordsChanges s s := fun _ h => absurd rfl h

theorem RecordsChanges.put {s t : State} (h : RecordsChanges s t) (a : Addr) (v : Byte) :
    RecordsChanges s (t.put a v) := by
  intro b hb
  rw [State.put_last_written]
  by_cases hw : t.writable a = true
  · rw [if_pos hw]
    by_cases e : b = a
    · exact e ▸ List.mem_cons_self
    · exact List.mem_cons_of_mem a (h b (by rwa [State.byteAt_put_ne t v e] at hb))
  · rw [if_neg hw]
    rw [State.put, if_neg hw] at hb
    exact h b hb

theorem RecordsChanges.pushed {s t : State} (h : RecordsChanges s t) (v : Byte) : RecordsChanges s (t.pushed v) :=
  h.put t.stackAddr v

theorem RecordsChanges.of_sameStores {s t u : State} (h : RecordsChanges s t) (hu : SameStores t u) :
    RecordsChanges s u := by
  intro a ha
  rw [hu.byteAt] at ha
  rw [hu.written]
  exact h a ha

theorem StoresOf.recordsChanges {s t : State} {i : Instr} (h : StoresOf s t i) : RecordsChanges s t := by
  cases h with
  | none _ h => exact (RecordsChanges.refl s).of_sameStores h
  | one v _ _ h => exact ((RecordsChanges.refl s).put _ v).of_sameStores h
  | jsr x y h => exact (((RecordsChanges.refl s).pushed x).pushed y).of_sameStores h
  | brk x y z h => exact ((((RecordsChanges.refl s).pushed x).pushed y).pushed z).of_sameStores h

/-- A push to memory that takes it is recorded (R379). -/
theorem State.written_pushed {s : State} {n : Nat} (v : Byte) (h : s.StackFree (n + 1)) :
    (s.pushed v).last.written = s.below 0 :: s.last.written := by
  have hw := (h 0 (by omega)).1
  rw [State.below_zero] at hw ⊢
  exact (State.put_last_written s s.stackAddr v).trans (if_pos hw)

theorem State.written_pushed_pushed {s : State} {n : Nat} (x y : Byte) (h : s.StackFree (n + 2))
    (hp : s.PageKept (n + 2)) : ((s.pushed x).pushed y).last.written = s.below 1 :: s.below 0 :: s.last.written := by
  rw [State.written_pushed y (State.stackFree_pushed x hp h), State.below_pushed x hp, State.written_pushed x h]

theorem State.written_pushed_pushed_pushed {s : State} {n : Nat} (x y z : Byte) (h : s.StackFree (n + 3))
    (hp : s.PageKept (n + 3)) :
    (((s.pushed x).pushed y).pushed z).last.written = s.below 2 :: s.below 1 :: s.below 0 :: s.last.written := by
  rw [State.written_pushed_pushed y z (State.stackFree_pushed x hp h) (State.pageKept_pushed x hp),
    State.below_pushed x hp, State.below_pushed x hp, State.written_pushed x h]

/-- Which form an instruction is depends on T alone. -/
theorem storesNothing_congr {s t : State} (h : s.ps.t = t.ps.t) (i : Instr) : storesNothing s i = storesNothing t i := by
  unfold storesNothing
  rw [h]

theorem storeDest_congr {s t : State} (h : s.ps.t = t.ps.t) (i : Instr) : storeDest s i = storeDest t i := by
  unfold storeDest
  rw [h]

/-! ### Fetching a byte just stored to -/

theorem fetchByte_of_written {s : State} {a : Addr} (h : a ∈ s.last.written) :
    fetchByte s a = .refused (.overwroteNextInstruction a) :=
  if_pos h

theorem fetch_of_written {s : State} (h : s.pc ∈ s.last.written) :
    fetch s = .refused (.overwroteNextInstruction s.pc) := by
  rw [fetch, fetchByte_of_written h, andThen_refused]

/-- The bytes from `a` on are present and not just stored to, up to the byte number `j`, which is. -/
structure State.WrittenFirstAt (s : State) (a : Addr) (j : Nat) : Prop where
  before : ∀ m < j, a + BitVec.ofNat 16 m ∉ s.last.written ∧ s.present (a + BitVec.ofNat 16 m) = true
  here : a + BitVec.ofNat 16 j ∈ s.last.written

theorem State.WrittenFirstAt.head {s : State} {a : Addr} {j : Nat} (h : s.WrittenFirstAt a (j + 1)) :
    a ∉ s.last.written ∧ s.present a = true := by
  have h0 := h.before 0 (by omega)
  rwa [show a + BitVec.ofNat 16 0 = a from add_zero a] at h0

theorem State.WrittenFirstAt.tail {s : State} {a : Addr} {j : Nat} (h : s.WrittenFirstAt a (j + 1)) :
    s.WrittenFirstAt (a + 1) j := by
  have hadd : ∀ m : Nat, a + 1 + BitVec.ofNat 16 m = a + BitVec.ofNat 16 (m + 1) := fun m => by
    rw [BitVec.ofNat_add]
    bv_omega
  refine ⟨fun m hm => ?_, ?_⟩
  · rw [hadd]
    exact h.before (m + 1) (by omega)
  · rw [hadd]
    exact h.here

theorem fetchBytes_of_written {s : State} {a : Addr} {j n : Nat} (h : s.WrittenFirstAt a j) (hj : j < n) :
    fetchBytes s a n = .refused (.overwroteNextInstruction (a + BitVec.ofNat 16 j)) := by
  induction n generalizing a j with
  | zero => cases hj
  | succ n ih =>
    cases j with
    | zero =>
      have hw := h.here
      rw [show a + BitVec.ofNat 16 0 = a from add_zero a] at hw ⊢
      rw [fetchBytes, fetchByte_of_written hw, andThen_refused]
    | succ j =>
      obtain ⟨hw, hp⟩ := h.head
      rw [fetchBytes, fetchByte_of_present hw hp, andThen_next, ih h.tail (by omega), andThen_refused]
      congr 2
      rw [BitVec.ofNat_add]
      bv_omega

theorem fetch_of_written_at {s : State} {sh : Shape} {j : Nat} (hl : lookup s.cfg (s.peek s.pc) = some sh)
    (hj : j < sh.length) (h : s.WrittenFirstAt s.pc j) :
    fetch s = .refused (.overwroteNextInstruction (s.pc + BitVec.ofNat 16 j)) := by
  cases j with
  | zero =>
    have hw := h.here
    rw [show s.pc + BitVec.ofNat 16 0 = s.pc from add_zero s.pc] at hw ⊢
    exact fetch_of_written hw
  | succ j =>
    obtain ⟨hw, hp⟩ := h.head
    rw [fetch, fetchByte_of_present hw hp, andThen_next, hl]
    dsimp only
    rw [fetchBytes_of_written h.tail (by omega), andThen_refused]
    congr 2
    rw [BitVec.ofNat_add]
    bv_omega

/-- Settles O54: `exec` starts with nothing recorded, so the record is that of the instruction's own stores; the fetch
stops at the first byte in it. -/
theorem overwrittenNextInstructionRefused : Obligations.OverwrittenNextInstructionRefused := by
  refine ⟨fun s t i n hs hf ht => ?record, fun t hr hw => step_of_fetch_refused hr (fetch_of_written hw),
    fun t sh j hr _ hl hj hbefore hat => step_of_fetch_refused hr (fetch_of_written_at hl hj ⟨hbefore, hat⟩)⟩
  case record =>
    obtain ⟨u, hu, rfl⟩ := exec_of_step hs hf ht
    have hstores := exec_storesOf hu
    have hwritten : (settle s.turn i u).last.written = u.last.written := rfl
    refine ⟨fun hi => ?nothing, fun d a hd ha hw => ?oneByte, ?jsr, ?brk, fun a ha => hstores.recordsChanges a ha⟩
    case nothing =>
      exact (hstores.of_storesNothing ((storesNothing_congr rfl i).trans hi)).written
    case oneByte =>
      obtain ⟨v, hv⟩ := hstores.of_storeDest ((storeDest_congr rfl i).trans hd) ha
      exact hv.written.trans ((State.put_last_written ..).trans (if_pos hw))
    case jsr =>
      rintro target rfl hfree hp
      obtain ⟨x, y, hxy⟩ := hstores.of_jsr
      exact hxy.written.trans (State.written_pushed_pushed (s := s.turn.fetched n) x y hfree hp)
    case brk =>
      rintro rfl hfree hp
      obtain ⟨x, y, z, hxyz⟩ := hstores.of_brk
      exact hxyz.written.trans (State.written_pushed_pushed_pushed (s := s.turn.fetched n) x y z hfree hp)

/-! ### Request bits just changed -/

/-- Of a byte into which bits are put, the others are as they were. -/
theorem testBit_foldl_putBit {j : BitNo} {a : Addr} {ls : List BitLoc} (x : BitLoc → Bool)
    (h : ∀ l ∈ ls, l.addr = a → l.bit ≠ j) (v : Byte) :
    testBit j (ls.foldl (fun v l => if l.addr = a then putBit l.bit (x l) v else v) v) = testBit j v := by
  induction ls generalizing v with
  | nil => rfl
  | cons l ls ih =>
    rw [List.foldl_cons, ih fun l hl => h l (List.mem_cons_of_mem _ hl)]
    split
    case isTrue ha => rw [testBit_putBit, if_neg (h l List.mem_cons_self ha).symm]
    case isFalse => rfl

theorem mem_changedRequests {s t : State} {l : BitLoc} :
    l ∈ changedRequests s t ↔ (∃ k ∈ s.cfg.irqSources, k.request = l) ∧ s.bitAt l ≠ t.bitAt l := by
  simp [changedRequests]

/-- What a step of an instruction records as changed and as forced. -/
theorem last_of_step {s t : State} (hs : s.Ready) (h : step s = .next t) :
    t.last.changed = changedRequests s t ∧ t.last.forced = clearedWhileEnabled s t := by
  rw [step_of_ready hs] at h
  obtain ⟨i, n, u, -, -, -, rfl⟩ := instructionStep_eq_next.mp h
  exact ⟨rfl, rfl⟩

/-- Settles O55. -/
theorem onlyJustChangedRequestBitsReadLate : Obligations.OnlyJustChangedRequestBitsReadLate := by
  refine ⟨fun s a j h => testBit_foldl_putBit _ h _, fun s t hs ht hsame a => ?unchanged,
    fun s t k hs ht hk hne => ?recorded⟩
  case unchanged =>
    refine State.peek_of_unchanged ((last_of_step hs ht).1.trans (List.eq_nil_iff_forall_not_mem.mpr fun l hl => ?_)) a
    obtain ⟨⟨k, hk, rfl⟩, hne⟩ := mem_changedRequests.mp hl
    exact hne (hsame k hk).symm
  case recorded =>
    rw [(last_of_step hs ht).1]
    exact mem_changedRequests.mpr ⟨⟨k, hk, rfl⟩, hne.symm⟩

/-! ### Clearing a request and enabling it -/

theorem mem_clearedWhileEnabled {s t : State} {k : IrqSource} : k ∈ clearedWhileEnabled s t ↔
    k ∈ s.cfg.irqSources ∧ s.bitAt k.request = true ∧ t.bitAt k.request = false ∧ s.bitAt k.enable = false ∧
      t.bitAt k.enable = true := by
  simp [clearedWhileEnabled, and_assoc]

/-- The only source of a list is the one of highest priority. -/
theorem highestPriority_of_unique {ks : List IrqSource} {k : IrqSource} (hk : k ∈ ks) (h : ∀ j ∈ ks, j = k) :
    highestPriority ks = some k := by
  cases hp : highestPriority ks with
  | none =>
    rw [highestPriority_eq_none.mp hp] at hk
    cases hk
  | some j => rw [h j (highestPriority_spec hp).1]

theorem State.interruptTaken_of_forced {s : State} {k : IrqSource} (hi : s.ps.i = false)
    (h : highestPriority s.last.forced = some k) : s.interruptTaken = some k := by
  simp [State.interruptTaken, State.forcedSource, hi, h]

/-- Settles O56: the source is the only one recorded, so it is forced. -/
theorem clearAndEnableTogetherIsEntered : Obligations.ClearAndEnableTogetherIsEntered := by
  intro s t k hs ht hk hr hr' he he' hunique hi hc
  refine step_of_interruptTaken hc (State.interruptTaken_of_forced hi ?_)
  rw [(last_of_step hs ht).2]
  refine highestPriority_of_unique (mem_clearedWhileEnabled.mpr ⟨hk, hr, hr', he, he'⟩) fun j hj => ?_
  obtain ⟨hjmem, hjr, hjr', hje, hje'⟩ := mem_clearedWhileEnabled.mp hj
  exact hunique j hjmem hjr hjr' hje hje'

end Sys2Proof.Machine
end
